-- ==== Sys2Proof/Word.lean ====
section
/-! DEFINITION. Bytes and fixed-length byte buffers: the only word types of Firefly CORE (R15, R16). -/

namespace Sys2Proof

/-- A byte: 8 bits, bit 7 the most significant (R15). -/
abbrev Byte := BitVec 8

/-- A buffer of exactly `n` bytes; index 0 is the first byte on the wire (R69). The length is part of the value, as
the width is part of a register's, so a frame buffer of any other size cannot be written down (R34, R35). -/
structure Buf (n : Nat) where
  /-- the bytes, index 0 first -/
  bytes : List Byte
  /-- there are exactly `n` of them -/
  size : bytes.length = n
deriving DecidableEq, Repr

/-- `zeros(n)` of R15. -/
def zeros (n : Nat) : List Byte := List.replicate n 0

/-- The buffer of `n` zero bytes. -/
def Buf.zero (n : Nat) : Buf n := ⟨zeros n, by simp [zeros]⟩

end Sys2Proof
end

