-- ==== Sys2Proof/Config.lean ====
section
/-! DEFINITION. The constants of the hardware (R9, R11, R12), the default of the parameter `PN_TABLE` (R142), and the
uninterpreted encoder behind port `RS` (R13, R154). -/

namespace Sys2Proof.Config

/-- `CADU_LEN`: the whole frame, 1024 bytes (R9). -/
@[simp] abbrev caduLen : Nat := 1024
/-- `ASM_LEN`: the sync marker, 4 bytes (R9). -/
@[simp] abbrev asmLen : Nat := 4
/-- `ASM`: the sync marker as a 32-bit big-endian value (R9, R91). -/
abbrev asm : BitVec 32 := 0x1ACFFC1D#32
/-- `CVCDU_LEN`: the frame without its marker, 1020 bytes (R9). -/
@[simp] abbrev cvcduLen : Nat := 1020
/-- `VCPDU_LEN`: header and data zone, 892 bytes (R9). -/
@[simp] abbrev vcpduLen : Nat := 892
/-- `HDR_LEN`: the VC_PDU header, 8 bytes (R9). -/
@[simp] abbrev hdrLen : Nat := 8
/-- `DZ_LEN`: the data zone, 884 bytes (R9). -/
@[simp] abbrev dzLen : Nat := 884
/-- `CK_LEN`: the checksum field, 128 bytes (R9). -/
@[simp] abbrev ckLen : Nat := 128
/-- `FHP_NONE`: the sentinel "no packet header begins in this frame" (R11). -/
abbrev fhpNone : BitVec 11 := 2047#11
/-- `PKT_HDR_LEN`: the packet primary header, 6 bytes (R11). -/
@[simp] abbrev pktHdrLen : Nat := 6
/-- `PKT_DATA_MAX`: the longest data field, 65536 bytes (R11). -/
@[simp] abbrev pktDataMax : Nat := 65536
/-- `MIN_PACKET_LEN`: the shortest packet, 7 bytes (R11). -/
@[simp] abbrev minPacketLen : Nat := 7
/-- `MAX_PACKET_LEN`: the longest packet, 65542 bytes (R11). -/
@[simp] abbrev maxPacketLen : Nat := 65542
/-- `IL_DEPTH`: the interleave depth (R12). -/
@[simp] abbrev ilDepth : Nat := 4
/-- `RS_K`: the length of a sub-block (R12). -/
@[simp] abbrev rsK : Nat := 223
/-- `RS_P`: the parity length of a sub-block (R12). -/
@[simp] abbrev rsP : Nat := 32
/-- `PN_LEN`: the length of the pseudo-noise table (R12). -/
@[simp] abbrev pnLen : Nat := 255

/-- Byte `j` of `RS_ENCODE(x)`: the answer of the external Reed-Solomon encoder (R13, R24, R154). UNINTERPRETED: the
spec gives no code, so nothing can be proved of its values. Log entry 1. -/
opaque rsParity : List Byte → Nat → Byte

/-- The default of the parameter `PN_TABLE`, the 255 values R142 prints, 16 a row. Log entry 2. -/
def pnDefault : List Byte :=
  [0xFF, 0x48, 0x0E, 0xC0, 0x9A, 0x0D, 0x70, 0xBC, 0x8E, 0x2C, 0x93, 0xAD, 0xA7, 0xB7, 0x46, 0xCE,
   0x5A, 0x97, 0x7D, 0xCC, 0x32, 0xA2, 0xBF, 0x3E, 0x0A, 0x10, 0xF1, 0x88, 0x94, 0xCD, 0xEA, 0xB1] ++
  [0xFE, 0x90, 0x1D, 0x81, 0x34, 0x1A, 0xE1, 0x79, 0x1C, 0x59, 0x27, 0x5B, 0x4F, 0x6E, 0x8D, 0x9C,
   0xB5, 0x2E, 0xFB, 0x98, 0x65, 0x45, 0x7E, 0x7C, 0x14, 0x21, 0xE3, 0x11, 0x29, 0x9B, 0xD5, 0x63] ++
  [0xFD, 0x20, 0x3B, 0x02, 0x68, 0x35, 0xC2, 0xF2, 0x38, 0xB2, 0x4E, 0xB6, 0x9E, 0xDD, 0x1B, 0x39,
   0x6A, 0x5D, 0xF7, 0x30, 0xCA, 0x8A, 0xFC, 0xF8, 0x28, 0x43, 0xC6, 0x22, 0x53, 0x37, 0xAA, 0xC7] ++
  [0xFA, 0x40, 0x76, 0x04, 0xD0, 0x6B, 0x85, 0xE4, 0x71, 0x64, 0x9D, 0x6D, 0x3D, 0xBA, 0x36, 0x72,
   0xD4, 0xBB, 0xEE, 0x61, 0x95, 0x15, 0xF9, 0xF0, 0x50, 0x87, 0x8C, 0x44, 0xA6, 0x6F, 0x55, 0x8F] ++
  [0xF4, 0x80, 0xEC, 0x09, 0xA0, 0xD7, 0x0B, 0xC8, 0xE2, 0xC9, 0x3A, 0xDA, 0x7B, 0x74, 0x6C, 0xE5,
   0xA9, 0x77, 0xDC, 0xC3, 0x2A, 0x2B, 0xF3, 0xE0, 0xA1, 0x0F, 0x18, 0x89, 0x4C, 0xDE, 0xAB, 0x1F] ++
  [0xE9, 0x01, 0xD8, 0x13, 0x41, 0xAE, 0x17, 0x91, 0xC5, 0x92, 0x75, 0xB4, 0xF6, 0xE8, 0xD9, 0xCB,
   0x52, 0xEF, 0xB9, 0x86, 0x54, 0x57, 0xE7, 0xC1, 0x42, 0x1E, 0x31, 0x12, 0x99, 0xBD, 0x56, 0x3F] ++
  [0xD2, 0x03, 0xB0, 0x26, 0x83, 0x5C, 0x2F, 0x23, 0x8B, 0x24, 0xEB, 0x69, 0xED, 0xD1, 0xB3, 0x96,
   0xA5, 0xDF, 0x73, 0x0C, 0xA8, 0xAF, 0xCF, 0x82, 0x84, 0x3C, 0x62, 0x25, 0x33, 0x7A, 0xAC, 0x7F] ++
  [0xA4, 0x07, 0x60, 0x4D, 0x06, 0xB8, 0x5E, 0x47, 0x16, 0x49, 0xD6, 0xD3, 0xDB, 0xA3, 0x67, 0x2D,
   0x4B, 0xBE, 0xE6, 0x19, 0x51, 0x5F, 0x9F, 0x05, 0x08, 0x78, 0xC4, 0x4A, 0x66, 0xF5, 0x58]

set_option maxRecDepth 10000 in
/-- The table has 255 entries (R12). -/
theorem pnDefault_length : pnDefault.length = pnLen := rfl

end Sys2Proof.Config
end

