-- ==== Sys2Proof/Syntax.lean ====
section
/-! DEFINITION. The command as the host presents it (R22), the bit fields of the two headers (R93, R100), and one
constructor of `Instr` per row of spec/opcode_table.json. -/

namespace Sys2Proof

/-- What the host presents at the command port (R22): the command word, two bytes most significant first (R69, R110),
with the numeric operand `ARG` and the byte-sequence operand `DAT` beside it. The word is a list of bytes so that the
longer data-format rows of the opcode table can be presented too. Log entries 4, 5 and 7. -/
structure Cmd where
  /-- the bytes of the command word, first byte first -/
  word : List Byte
  /-- `ARG` -/
  arg : Nat
  /-- `DAT` -/
  dat : List Byte
deriving DecidableEq, Repr

/-- The fields of the VC_PDU header, in transmission order (R93). -/
structure VcHeader where
  /-- `VERSION`, H[63:62] -/
  version : BitVec 2
  /-- `SCID`, H[61:54] -/
  scid : BitVec 8
  /-- `VCID`, H[53:48] -/
  vcid : BitVec 6
  /-- `COUNTER`, H[47:24] -/
  counter : BitVec 24
  /-- `SPARE_A`, H[23:17] -/
  spareA : BitVec 7
  /-- `REPLAY`, H[16] -/
  replay : BitVec 1
  /-- `FHP`, H[15:5] -/
  fhp : BitVec 11
  /-- `SPARE_B`, H[4:0] -/
  spareB : BitVec 5
deriving DecidableEq, Repr

/-- The fields of the packet primary header, in transmission order (R100). -/
structure PktHeader where
  /-- `PVERSION`, P[47:45] -/
  pversion : BitVec 3
  /-- `TYPE`, P[44] -/
  ptype : BitVec 1
  /-- `SHF`, P[43] -/
  shf : BitVec 1
  /-- `APID`, P[42:32] -/
  apid : BitVec 11
  /-- `SEQFLAGS`, P[31:30] -/
  seqflags : BitVec 2
  /-- `SEQCOUNT`, P[29:16] -/
  seqcount : BitVec 14
  /-- `DATALEN`, P[15:0] -/
  datalen : BitVec 16
deriving DecidableEq, Repr

/-- The operations with the operands each uses (R111): an operand that R111 says is ignored is no argument. The last
five rows are formats of the table, not operations. -/
inductive Instr where
  /-- `RESET`, `CMD = 0x0100` (R262) -/
  | reset
  /-- `CFG.SET VERSION`, `CMD = 0x0200` (R260) -/
  | cfgSetVersion (v : Nat)
  /-- `CFG.SET SCID`, `CMD = 0x0201` (R260) -/
  | cfgSetScid (v : Nat)
  /-- `CFG.SET VCID`, `CMD = 0x0202` (R260) -/
  | cfgSetVcid (v : Nat)
  /-- `CFG.SET START_CTR`, `CMD = 0x0203` (R260) -/
  | cfgSetStartCtr (v : Nat)
  /-- `CFG.SET REPLAY`, `CMD = 0x0204` (R260) -/
  | cfgSetReplay (v : Nat)
  /-- `CFG.SET RANDOMIZE`, `CMD = 0x0205` (R260) -/
  | cfgSetRandomize (v : Nat)
  /-- `CFG.SET PACK_MODE`, `CMD = 0x0206` (R260) -/
  | cfgSetPackMode (v : Nat)
  /-- `CFG.GET VERSION`, `CMD = 0x0300` (R261) -/
  | cfgGetVersion
  /-- `CFG.GET SCID`, `CMD = 0x0301` (R261) -/
  | cfgGetScid
  /-- `CFG.GET VCID`, `CMD = 0x0302` (R261) -/
  | cfgGetVcid
  /-- `CFG.GET START_CTR`, `CMD = 0x0303` (R261) -/
  | cfgGetStartCtr
  /-- `CFG.GET REPLAY`, `CMD = 0x0304` (R261) -/
  | cfgGetReplay
  /-- `CFG.GET RANDOMIZE`, `CMD = 0x0305` (R261) -/
  | cfgGetRandomize
  /-- `CFG.GET PACK_MODE`, `CMD = 0x0306` (R261) -/
  | cfgGetPackMode
  /-- `SYNC.SHIFT`, `CMD = 0x1000` (R131) -/
  | syncShift
  /-- `SYNC.FIND`, `CMD = 0x1100` (R132) -/
  | syncFind
  /-- `RAND.APPLY`, `CMD = 0x1800` (R143) -/
  | randApply
  /-- `CK.RECOMPUTE`, `CMD = 0x2000` (R155) -/
  | ckRecompute
  /-- `CK.VALIDATE`, `CMD = 0x2100` (R156) -/
  | ckValidate
  /-- `CADU.NEW`, `CMD = 0x3000` (R166) -/
  | caduNew
  /-- `CADU.GET VERSION`, `CMD = 0x3100` (R170) -/
  | caduGetVersion
  /-- `CADU.GET SCID`, `CMD = 0x3101` (R170) -/
  | caduGetScid
  /-- `CADU.GET VCID`, `CMD = 0x3102` (R170) -/
  | caduGetVcid
  /-- `CADU.GET COUNTER`, `CMD = 0x3103` (R170) -/
  | caduGetCounter
  /-- `CADU.GET SPARE_A`, `CMD = 0x3104` (R170) -/
  | caduGetSpareA
  /-- `CADU.GET REPLAY`, `CMD = 0x3105` (R170) -/
  | caduGetReplay
  /-- `CADU.GET FHP`, `CMD = 0x3106` (R170) -/
  | caduGetFhp
  /-- `CADU.GET SPARE_B`, `CMD = 0x3107` (R170) -/
  | caduGetSpareB
  /-- `CADU.SET VERSION`, `CMD = 0x3200` (R171) -/
  | caduSetVersion (v : Nat)
  /-- `CADU.SET SCID`, `CMD = 0x3201` (R171) -/
  | caduSetScid (v : Nat)
  /-- `CADU.SET VCID`, `CMD = 0x3202` (R171) -/
  | caduSetVcid (v : Nat)
  /-- `CADU.SET COUNTER`, `CMD = 0x3203` (R171) -/
  | caduSetCounter (v : Nat)
  /-- `CADU.SET REPLAY`, `CMD = 0x3205` (R171) -/
  | caduSetReplay (v : Nat)
  /-- `CADU.SET FHP`, `CMD = 0x3206` (R171) -/
  | caduSetFhp (v : Nat)
  /-- `CADU.GETDATA`, `CMD = 0x3300` (R172) -/
  | caduGetdata
  /-- `CADU.SETDATA`, `CMD = 0x3400` (R173) -/
  | caduSetdata (dat : List Byte)
  /-- `CADU.READ`, `CMD = 0x3500` (R175) -/
  | caduRead
  /-- `CADU.WRITE`, `CMD = 0x3600` (R178) -/
  | caduWrite
  /-- `PKT.NEW`, `CMD = 0x4000` (R192) -/
  | pktNew
  /-- `PKT.GET PVERSION`, `CMD = 0x4100` (R193) -/
  | pktGetPversion
  /-- `PKT.GET TYPE`, `CMD = 0x4101` (R193) -/
  | pktGetType
  /-- `PKT.GET SHF`, `CMD = 0x4102` (R193) -/
  | pktGetShf
  /-- `PKT.GET APID`, `CMD = 0x4103` (R193) -/
  | pktGetApid
  /-- `PKT.GET SEQFLAGS`, `CMD = 0x4104` (R193) -/
  | pktGetSeqflags
  /-- `PKT.GET SEQCOUNT`, `CMD = 0x4105` (R193) -/
  | pktGetSeqcount
  /-- `PKT.GET DATALEN`, `CMD = 0x4106` (R193) -/
  | pktGetDatalen
  /-- `PKT.SET PVERSION`, `CMD = 0x4200` (R194) -/
  | pktSetPversion (v : Nat)
  /-- `PKT.SET TYPE`, `CMD = 0x4201` (R194) -/
  | pktSetType (v : Nat)
  /-- `PKT.SET SHF`, `CMD = 0x4202` (R194) -/
  | pktSetShf (v : Nat)
  /-- `PKT.SET APID`, `CMD = 0x4203` (R194) -/
  | pktSetApid (v : Nat)
  /-- `PKT.SET SEQFLAGS`, `CMD = 0x4204` (R194) -/
  | pktSetSeqflags (v : Nat)
  /-- `PKT.SET SEQCOUNT`, `CMD = 0x4205` (R194) -/
  | pktSetSeqcount (v : Nat)
  /-- `PKT.GETDATA`, `CMD = 0x4300` (R198) -/
  | pktGetdata
  /-- `PKT.SETDATA`, `CMD = 0x4400` (R195) -/
  | pktSetdata (dat : List Byte)
  /-- `PKT.SETDATA_LEN`, `CMD = 0x4500` (R196) -/
  | pktSetdataLen (n : Nat) (dat : List Byte)
  /-- `PKT.READ`, `CMD = 0x4600` (R197) -/
  | pktRead
  /-- `PKT.WRITE`, `CMD = 0x4700` (R203) -/
  | pktWrite
  /-- `PKT.FILL`, `CMD = 0x4800` (R201) -/
  | pktFill (n : Nat)
  /-- `PZ.INIT`, `CMD = 0x5000` (R216) -/
  | pzInit
  /-- `PZ.PUSH`, `CMD = 0x5100` (R217) -/
  | pzPush
  /-- `PZ.FLUSH`, `CMD = 0x5200` (R223) -/
  | pzFlush
  /-- `DZ.INIT`, `CMD = 0x6000` (R245) -/
  | dzInit
  /-- `DZ.PUSH`, `CMD = 0x6100` (R246) -/
  | dzPush
  /-- `DZ.END`, `CMD = 0x6200` (R251) -/
  | dzEnd
  /-- `FORMAT.CMD`: a command word that is no operation (R110, R115) -/
  | formatCmd (op sel : Byte)
  /-- `FORMAT.ASM`: the sync marker, a data format (R91) -/
  | formatAsm
  /-- `FORMAT.VCPDU_HEADER`: the 64-bit VC_PDU header, a data format (R93) -/
  | formatVcpduHeader (h : VcHeader)
  /-- `FORMAT.PACKET_HEADER`: the 48-bit packet primary header, a data format (R100) -/
  | formatPacketHeader (h : PktHeader)
  /-- `FORMAT.FILL_PACKET_HEADER`: the header of a fill packet, a data format (R103) -/
  | formatFillPacketHeader (dataLen : BitVec 16)
deriving DecidableEq, Repr

end Sys2Proof
end

