-- ==== Sys2Proof/WellFormed.lean ====
section
/-! DEFINITION. Which terms of `Instr` stand for something the host can present as that row: the two rows whose words
overlap other rows' words are held apart from them. -/

namespace Sys2Proof

/-- The selectors an operation code admits (R111 to R115): `some l` lists the legal values of `sel`, `none` says that the
code is no operation. Written from R111's operand column and the exclusions of R112 and R113. -/
def legalSelectors (op : Nat) : Option (List Nat) :=
  if op = 0x02 ∨ op = 0x03 then some [0, 1, 2, 3, 4, 5, 6]
  else if op = 0x31 then some [0, 1, 2, 3, 4, 5, 6, 7]
  else if op = 0x32 then some [0, 1, 2, 3, 5, 6]
  else if op = 0x41 then some [0, 1, 2, 3, 4, 5, 6]
  else if op = 0x42 then some [0, 1, 2, 3, 4, 5]
  else if op ∈ [0x01, 0x10, 0x11, 0x18, 0x20, 0x21, 0x30, 0x33, 0x34, 0x35, 0x36] ∨
      op ∈ [0x40, 0x43, 0x44, 0x45, 0x46, 0x47, 0x48, 0x50, 0x51, 0x52, 0x60, 0x61, 0x62] then some [0]
  else none

/-- A command word is legal when its code is an operation and its selector is one the operation admits (R115). -/
def legalWord (op sel : Byte) : Bool :=
  match legalSelectors op.toNat with
  | some l => l.contains sel.toNat
  | none => false

/-- The header of a fill packet, less its length field: `07 FF C0 00` (R103). -/
def PktHeader.isFill (h : PktHeader) : Bool :=
  h.pversion == 0 && h.ptype == 0 && h.shf == 0 && h.apid == 2047 && h.seqflags == 3 && h.seqcount == 0

/-- A `FORMAT.CMD` term is a word that is no operation; a `FORMAT.PACKET_HEADER` term is not a fill packet's header, which
has a row of its own; every other term is well-formed with any operands. -/
def Instr.wellFormed : Instr → Bool
  | .formatCmd op sel => !legalWord op sel
  | .formatPacketHeader h => !h.isFill
  | _ => true

end Sys2Proof
end

