-- ==== Sys2Proof/Decode.lean ====
section
/-! DEFINITION. Big-endian integers, the bit fields of the two headers (R15, R94, R101), the decoder of the command word
(R110 to R115) and, after it, the encoder. -/

namespace Sys2Proof

/-- `be_n(B)` of R15: the unsigned integer a byte sequence represents, first byte most significant. -/
def beNat : List Byte → Nat
  | [] => 0
  | b :: bs => b.toNat * 256 ^ bs.length + beNat bs

/-- `bytes_n(v)` of R15: the `n`-byte big-endian representation of `v mod 2^(8n)`. -/
def beBytes : Nat → Nat → List Byte
  | 0, _ => []
  | n + 1, v => BitVec.ofNat 8 (v / 256 ^ n) :: beBytes n v

/-- `v[lo + w - 1 : lo]` of R15: the `w`-bit field of `v` whose lowest bit is bit `lo`. -/
def bitField (v lo w : Nat) : BitVec w := BitVec.ofNat w (v / 2 ^ lo)

/-- The VC_PDU header read from its 8 bytes, by the bit positions of R93. -/
def VcHeader.ofBytes (b : List Byte) : VcHeader :=
  let h := beNat b
  { version := bitField h 62 2, scid := bitField h 54 8, vcid := bitField h 48 6, counter := bitField h 24 24,
    spareA := bitField h 17 7, replay := bitField h 16 1, fhp := bitField h 5 11, spareB := bitField h 0 5 }

/-- The 8 bytes of a VC_PDU header: `bytes_8(H)` with `H` assembled as R94 says. -/
def VcHeader.toBytes (h : VcHeader) : List Byte :=
  beBytes 8 (h.version.toNat * 2 ^ 62 + h.scid.toNat * 2 ^ 54 + h.vcid.toNat * 2 ^ 48 + h.counter.toNat * 2 ^ 24 +
    h.spareA.toNat * 2 ^ 17 + h.replay.toNat * 2 ^ 16 + h.fhp.toNat * 2 ^ 5 + h.spareB.toNat)

/-- The packet header read from its 6 bytes, by the bit positions of R100. -/
def PktHeader.ofBytes (b : List Byte) : PktHeader :=
  let p := beNat b
  { pversion := bitField p 45 3, ptype := bitField p 44 1, shf := bitField p 43 1, apid := bitField p 32 11,
    seqflags := bitField p 30 2, seqcount := bitField p 16 14, datalen := bitField p 0 16 }

/-- The 6 bytes of a packet header: `bytes_6(P)` with `P` assembled as R101 says. -/
def PktHeader.toBytes (h : PktHeader) : List Byte :=
  beBytes 6 (h.pversion.toNat * 2 ^ 45 + h.ptype.toNat * 2 ^ 44 + h.shf.toNat * 2 ^ 43 + h.apid.toNat * 2 ^ 32 +
    h.seqflags.toNat * 2 ^ 30 + h.seqcount.toNat * 2 ^ 16 + h.datalen.toNat)

/-- The header of a fill packet with length field `dataLen`: `07 FF C0 00` and the length (R103). -/
def fillHeader (dataLen : BitVec 16) : PktHeader :=
  { pversion := 0, ptype := 0, shf := 0, apid := 2047, seqflags := 3, seqcount := 0, datalen := dataLen }

/-- Why the decoder answers no instruction. -/
inductive DecodeError where
  /-- the item is neither a 16-bit command word nor one of the data formats of the opcode table (log entry 8) -/
  | notACommandWord
deriving DecidableEq, Repr

/-- The operation a 16-bit command word selects (R111 to R114), with the operands beside it; every other word is
`FORMAT.CMD`, the illegal word (R115). -/
def decodeWord (c : Cmd) (op sel : Byte) : Instr :=
  match op.toNat * 256 + sel.toNat with
  | 0x0100 => .reset
  | 0x0200 => .cfgSetVersion c.arg
  | 0x0201 => .cfgSetScid c.arg
  | 0x0202 => .cfgSetVcid c.arg
  | 0x0203 => .cfgSetStartCtr c.arg
  | 0x0204 => .cfgSetReplay c.arg
  | 0x0205 => .cfgSetRandomize c.arg
  | 0x0206 => .cfgSetPackMode c.arg
  | 0x0300 => .cfgGetVersion
  | 0x0301 => .cfgGetScid
  | 0x0302 => .cfgGetVcid
  | 0x0303 => .cfgGetStartCtr
  | 0x0304 => .cfgGetReplay
  | 0x0305 => .cfgGetRandomize
  | 0x0306 => .cfgGetPackMode
  | 0x1000 => .syncShift
  | 0x1100 => .syncFind
  | 0x1800 => .randApply
  | 0x2000 => .ckRecompute
  | 0x2100 => .ckValidate
  | 0x3000 => .caduNew
  | 0x3100 => .caduGetVersion
  | 0x3101 => .caduGetScid
  | 0x3102 => .caduGetVcid
  | 0x3103 => .caduGetCounter
  | 0x3104 => .caduGetSpareA
  | 0x3105 => .caduGetReplay
  | 0x3106 => .caduGetFhp
  | 0x3107 => .caduGetSpareB
  | 0x3200 => .caduSetVersion c.arg
  | 0x3201 => .caduSetScid c.arg
  | 0x3202 => .caduSetVcid c.arg
  | 0x3203 => .caduSetCounter c.arg
  | 0x3205 => .caduSetReplay c.arg
  | 0x3206 => .caduSetFhp c.arg
  | 0x3300 => .caduGetdata
  | 0x3400 => .caduSetdata c.dat
  | 0x3500 => .caduRead
  | 0x3600 => .caduWrite
  | 0x4000 => .pktNew
  | 0x4100 => .pktGetPversion
  | 0x4101 => .pktGetType
  | 0x4102 => .pktGetShf
  | 0x4103 => .pktGetApid
  | 0x4104 => .pktGetSeqflags
  | 0x4105 => .pktGetSeqcount
  | 0x4106 => .pktGetDatalen
  | 0x4200 => .pktSetPversion c.arg
  | 0x4201 => .pktSetType c.arg
  | 0x4202 => .pktSetShf c.arg
  | 0x4203 => .pktSetApid c.arg
  | 0x4204 => .pktSetSeqflags c.arg
  | 0x4205 => .pktSetSeqcount c.arg
  | 0x4300 => .pktGetdata
  | 0x4400 => .pktSetdata c.dat
  | 0x4500 => .pktSetdataLen c.arg c.dat
  | 0x4600 => .pktRead
  | 0x4700 => .pktWrite
  | 0x4800 => .pktFill c.arg
  | 0x5000 => .pzInit
  | 0x5100 => .pzPush
  | 0x5200 => .pzFlush
  | 0x6000 => .dzInit
  | 0x6100 => .dzPush
  | 0x6200 => .dzEnd
  | _ => .formatCmd op sel

/-- A 6-byte item: a fill packet's header where the first four bytes are `07 FF C0 00` (R103), else a packet header. -/
def decodePacketHeader (h : PktHeader) : Instr :=
  if h.isFill then .formatFillPacketHeader h.datalen else .formatPacketHeader h

/-- The decoder, total on any bytes. Two bytes are a command word (R110); four, six and eight bytes are the data formats
of the opcode table (log entry 7); anything else is rejected by name (log entry 8). -/
def decode (c : Cmd) : Except DecodeError Instr :=
  match c.word with
  | [op, sel] => .ok (decodeWord c op sel)
  | [b0, b1, b2, b3] => if beNat [b0, b1, b2, b3] = 0x1ACFFC1D then .ok .formatAsm else .error .notACommandWord
  | [b0, b1, b2, b3, b4, b5] => .ok (decodePacketHeader (PktHeader.ofBytes [b0, b1, b2, b3, b4, b5]))
  | [b0, b1, b2, b3, b4, b5, b6, b7] => .ok (.formatVcpduHeader (VcHeader.ofBytes [b0, b1, b2, b3, b4, b5, b6, b7]))
  | _ => .error .notACommandWord

/-- The command with the 16-bit word `w` and the given operands. -/
def opCmd (w arg : Nat) (dat : List Byte) : Cmd := ⟨beBytes 2 w, arg, dat⟩

/-- The encoder: the command the host presents for an instruction (R111 to R114; R91, R93, R100, R103 for the data
formats). An operand the operation does not use is 0 or empty. -/
def encode : Instr → Cmd
  | .reset => opCmd 0x0100 0 []
  | .cfgSetVersion v => opCmd 0x0200 v []
  | .cfgSetScid v => opCmd 0x0201 v []
  | .cfgSetVcid v => opCmd 0x0202 v []
  | .cfgSetStartCtr v => opCmd 0x0203 v []
  | .cfgSetReplay v => opCmd 0x0204 v []
  | .cfgSetRandomize v => opCmd 0x0205 v []
  | .cfgSetPackMode v => opCmd 0x0206 v []
  | .cfgGetVersion => opCmd 0x0300 0 []
  | .cfgGetScid => opCmd 0x0301 0 []
  | .cfgGetVcid => opCmd 0x0302 0 []
  | .cfgGetStartCtr => opCmd 0x0303 0 []
  | .cfgGetReplay => opCmd 0x0304 0 []
  | .cfgGetRandomize => opCmd 0x0305 0 []
  | .cfgGetPackMode => opCmd 0x0306 0 []
  | .syncShift => opCmd 0x1000 0 []
  | .syncFind => opCmd 0x1100 0 []
  | .randApply => opCmd 0x1800 0 []
  | .ckRecompute => opCmd 0x2000 0 []
  | .ckValidate => opCmd 0x2100 0 []
  | .caduNew => opCmd 0x3000 0 []
  | .caduGetVersion => opCmd 0x3100 0 []
  | .caduGetScid => opCmd 0x3101 0 []
  | .caduGetVcid => opCmd 0x3102 0 []
  | .caduGetCounter => opCmd 0x3103 0 []
  | .caduGetSpareA => opCmd 0x3104 0 []
  | .caduGetReplay => opCmd 0x3105 0 []
  | .caduGetFhp => opCmd 0x3106 0 []
  | .caduGetSpareB => opCmd 0x3107 0 []
  | .caduSetVersion v => opCmd 0x3200 v []
  | .caduSetScid v => opCmd 0x3201 v []
  | .caduSetVcid v => opCmd 0x3202 v []
  | .caduSetCounter v => opCmd 0x3203 v []
  | .caduSetReplay v => opCmd 0x3205 v []
  | .caduSetFhp v => opCmd 0x3206 v []
  | .caduGetdata => opCmd 0x3300 0 []
  | .caduSetdata dat => opCmd 0x3400 0 dat
  | .caduRead => opCmd 0x3500 0 []
  | .caduWrite => opCmd 0x3600 0 []
  | .pktNew => opCmd 0x4000 0 []
  | .pktGetPversion => opCmd 0x4100 0 []
  | .pktGetType => opCmd 0x4101 0 []
  | .pktGetShf => opCmd 0x4102 0 []
  | .pktGetApid => opCmd 0x4103 0 []
  | .pktGetSeqflags => opCmd 0x4104 0 []
  | .pktGetSeqcount => opCmd 0x4105 0 []
  | .pktGetDatalen => opCmd 0x4106 0 []
  | .pktSetPversion v => opCmd 0x4200 v []
  | .pktSetType v => opCmd 0x4201 v []
  | .pktSetShf v => opCmd 0x4202 v []
  | .pktSetApid v => opCmd 0x4203 v []
  | .pktSetSeqflags v => opCmd 0x4204 v []
  | .pktSetSeqcount v => opCmd 0x4205 v []
  | .pktGetdata => opCmd 0x4300 0 []
  | .pktSetdata dat => opCmd 0x4400 0 dat
  | .pktSetdataLen n dat => opCmd 0x4500 n dat
  | .pktRead => opCmd 0x4600 0 []
  | .pktWrite => opCmd 0x4700 0 []
  | .pktFill n => opCmd 0x4800 n []
  | .pzInit => opCmd 0x5000 0 []
  | .pzPush => opCmd 0x5100 0 []
  | .pzFlush => opCmd 0x5200 0 []
  | .dzInit => opCmd 0x6000 0 []
  | .dzPush => opCmd 0x6100 0 []
  | .dzEnd => opCmd 0x6200 0 []
  | .formatCmd op sel => ⟨[op, sel], 0, []⟩
  | .formatAsm => ⟨beBytes 4 0x1ACFFC1D, 0, []⟩
  | .formatVcpduHeader h => ⟨h.toBytes, 0, []⟩
  | .formatPacketHeader h => ⟨h.toBytes, 0, []⟩
  | .formatFillPacketHeader dataLen => ⟨(fillHeader dataLen).toBytes, 0, []⟩

/-- The item at the command port whose `nbits` bits are `w`, most significant byte first (R69), with `ARG` 0 and `DAT`
empty: every bit of the instruction above `nbits` is 0. -/
def tableCmd (nbits w : Nat) : Cmd := ⟨beBytes (nbits / 8) w, 0, []⟩

/-- The instruction the decoder reads from the `nbits` bits `w`, numbered as spec/opcode_table.json numbers them. -/
def decodeTableWord (nbits w : Nat) : Option Instr :=
  match decode (tableCmd nbits w) with
  | .ok i => some i
  | .error _ => none

end Sys2Proof
end

