-- ==== Sys2Proof/Machine/State.lean ====
section
/-! DEFINITION. The state of one Firefly CORE (R20), its reset value (R48), and the names of the ways a step can stop. -/

namespace Sys2Proof.Machine

/-- The status codes of R271; the constructors stand in the order of their numbers 0 to 8. -/
inductive Status where
  | ok
  | endOfStream
  | truncated
  | checksumInvalid
  | invalidPacket
  | fieldRange
  | packetSkipped
  | invalidPointer
  | illegalOp
deriving DecidableEq, Repr

/-- The two failures a decode-failure record can carry (R284). -/
inductive FailureCode where
  | truncated
  | invalidPointer
deriving DecidableEq, Repr

/-- One record of the `DIAG` output (R284). -/
inductive DiagRecord where
  /-- `DISCARD_REPORT(frames, bytes)` -/
  | discardReport (frames bytes : Nat)
  /-- `PACKET_SKIPPED(len)` -/
  | packetSkipped (len : Nat)
  /-- `DECODE_FAILURE(code, info)`: `info` is a stream position or a pointer value -/
  | decodeFailure (code : FailureCode) (info : Nat)
deriving DecidableEq, Repr

/-- The configuration registers `CFG[0..6]` (R40 to R47). -/
structure Cfg where
  /-- `CFG[0]` -/
  version : BitVec 2
  /-- `CFG[1]` -/
  scid : BitVec 8
  /-- `CFG[2]` -/
  vcid : BitVec 6
  /-- `CFG[3]` -/
  startCtr : BitVec 24
  /-- `CFG[4]` -/
  replay : BitVec 1
  /-- `CFG[5]`: 0 clean, 1 randomized -/
  randomize : BitVec 1
  /-- `CFG[6]`: 0 stream, 1 padded -/
  packMode : BitVec 1
deriving DecidableEq, Repr

/-- A frame object: its CVCDU and whether it is Dirty with respect to its checksum (R34, R35). -/
structure Frame where
  /-- header `[0..8)`, data zone `[8..892)`, checksum `[892..1020)` -/
  cvcdu : Buf Config.cvcduLen
  /-- Dirty (true) or Clean (false) -/
  dirty : Bool
deriving DecidableEq, Repr

/-- The working packet `PB` (R36). -/
structure Packet where
  /-- the primary header -/
  hdr : Buf Config.pktHdrLen
  /-- the data field; its length is part of the state (R62) -/
  data : List Byte
  /-- a data field has been set -/
  hasData : Bool
  /-- the length field of `hdr` has not been recomputed since the data field was set directly -/
  lenStale : Bool
deriving DecidableEq, Repr

/-- The packetizer (R28, R29, R35, R38). -/
structure Packetizer where
  /-- `PZ_NBO`, the data zone offset awaiting the next byte -/
  nbo : Nat
  /-- `PZ_CTR`, the counter value the next emitted frame carries -/
  ctr : BitVec 24
  /-- `PZ_FB`, the frame in progress -/
  fb : Frame
  /-- `PZ_MODE`: 0 stream packing, 1 padded packing -/
  mode : BitVec 1
  /-- `PZ_RAND`: 1 emits randomized frames -/
  rand : BitVec 1
deriving DecidableEq, Repr

/-- The depacketizer (R31, R32). -/
structure Depacketizer where
  /-- `DZ_SEEN` -/
  seen : Bool
  /-- `DZ_REPORTED` -/
  reported : Bool
  /-- `DZ_DFC` -/
  dfc : Nat
  /-- `DZ_DBC` -/
  dbc : Nat
deriving DecidableEq, Repr

/-- An input stream (R23, R65): `pos` bytes of it have been consumed since reset, and `pending` are those that have not,
so `len(S.bytes) = pos + pending.length`. `later` are the streams the environment attaches at later resets (R262). The
bytes are the environment's (R50); log entries 11 and 12. -/
structure InStream where
  /-- the bytes not consumed yet -/
  pending : List Byte
  /-- `S.pos` -/
  pos : Nat
  /-- the streams of later passes -/
  later : List (List Byte)
deriving DecidableEq, Repr

/-- The parameters of this one block (R13), fixed for its life: no operation writes them. Log entries 2 and 3. -/
structure Params where
  /-- `PN_TABLE` (R63) -/
  pnTable : Buf Config.pnLen
  /-- `DFC_WIDTH`; `none` is unbounded -/
  dfcWidth : Option Nat
deriving DecidableEq, Repr

/-- The complete state (R20), and after it the model's own fields: what R50 leaves to the parameters, the reset input and
the host, carried as plain data because a step has no other argument. -/
structure State where
  /-- `SYNC_SR` (R25) -/
  syncSr : BitVec 32
  /-- `STATUS` (R26) -/
  status : Status
  /-- `RESULT` (R27) -/
  result : Nat
  /-- `RDAT` (R27) -/
  rdat : List Byte
  /-- `CFG[0..6]` (R40) -/
  cfg : Cfg
  /-- `FB` (R34) -/
  fb : Frame
  /-- `PB` (R36) -/
  pb : Packet
  /-- the packetizer -/
  pz : Packetizer
  /-- the depacketizer -/
  dz : Depacketizer
  /-- `FRM_IN` (R21) -/
  frmIn : InStream
  /-- `PKT_IN` (R21) -/
  pktIn : InStream
  /-- `FRM_OUT.out` (R23) -/
  frmOut : List Byte
  /-- `PKT_OUT.out` (R23) -/
  pktOut : List Byte
  /-- `DIAG.out` (R23) -/
  diag : List DiagRecord
  /-- the model's own: the parameters of R13 -/
  par : Params
  /-- the model's own: the reset input is asserted (R48, log entry 10) -/
  resetIn : Bool
  /-- the model's own: the commands the host has presented and the block has not begun (R22, log entry 4) -/
  cmds : List Cmd
deriving DecidableEq, Repr

/-- Why the machine stops with a fault. -/
inductive Fault where
  /-- raised by `DZ.PUSH`: `DZ_DFC` cannot be incremented within a finite `DFC_WIDTH`, which 93_implementation_defined.md
  U9 makes a fault of the model. Safe: the spec chooses neither wrap nor saturation. -/
  | dfcOverflow
deriving DecidableEq, Repr

/-- Why the machine gives an item no meaning. -/
inductive Refusal where
  /-- an instruction not modelled yet, by its mnemonic; raised by no arm of `exec`. Safe. -/
  | notModelled (mnemonic : String)
  /-- raised by `step`: the item at the command port is neither 16 bits nor a data format of the opcode table; R22 gives
  the port 16 bits, so no such item exists. Safe (log entry 8). -/
  | notACommandWord
deriving DecidableEq, Repr

/-- The input stream at the start of the model: nothing to deliver. -/
def emptyStream : InStream := { pending := [], pos := 0, later := [] }

/-- An empty frame: zeros, Dirty (R48, R166). -/
def emptyFrame : Frame := { cvcdu := Buf.zero _, dirty := true }

/-- An empty packet: zero header, no data, stale length (R48, R192). -/
def emptyPacket : Packet := { hdr := Buf.zero _, data := [], hasData := false, lenStale := true }

/-- The depacketizer at the start of a pass (R48, R245). -/
def emptyDepacketizer : Depacketizer := { seen := false, reported := false, dfc := 0, dbc := 0 }

/-- The machine right after reset: the table of R48; the model's own fields as log entries 2, 3, 4, 10, 11 and 12 say. -/
def State.reset : State where
  syncSr := 0
  status := .ok
  result := 0
  rdat := []
  cfg := { version := 0, scid := 0, vcid := 0, startCtr := 0, replay := 0, randomize := 0, packMode := 0 }
  fb := emptyFrame
  pb := emptyPacket
  pz := { nbo := 0, ctr := 0, fb := emptyFrame, mode := 0, rand := 0 }
  dz := emptyDepacketizer
  frmIn := emptyStream
  pktIn := emptyStream
  frmOut := []
  pktOut := []
  diag := []
  par := { pnTable := ⟨Config.pnDefault, Config.pnDefault_length⟩, dfcWidth := none }
  resetIn := false
  cmds := []

end Sys2Proof.Machine
end

