-- ==== Sys2Proof/Machine/Flags.lean ====
section
/-! DEFINITION. Every flag of R33: what sets it, what clears it, and the match predicate. There are no arithmetic
condition codes. -/

namespace Sys2Proof.Machine

/-- The number of a status code (R271). -/
def Status.code : Status → Nat
  | .ok => 0
  | .endOfStream => 1
  | .truncated => 2
  | .checksumInvalid => 3
  | .invalidPacket => 4
  | .fieldRange => 5
  | .packetSkipped => 6
  | .invalidPointer => 7
  | .illegalOp => 8

/-- `match` of R33: the shift register equals the marker exactly (R131, R136). Not stored. -/
def isMarker (sr : BitVec 32) : Bool := sr == Config.asm

/-- The match as a `RESULT`: 1 or 0 (R131). -/
def matchResult (sr : BitVec 32) : Nat := if isMarker sr then 1 else 0

/-- A frame after its header or data zone was mutated: these bytes, Dirty (R167). -/
def dirtyFrame (cvcdu : Buf Config.cvcduLen) : Frame := { cvcdu := cvcdu, dirty := true }

/-- A frame whose checksum field was just written or received: these bytes, Clean (R167, R177). -/
def cleanFrame (cvcdu : Buf Config.cvcduLen) : Frame := { cvcdu := cvcdu, dirty := false }

/-- `PB` after its data field was set directly: it has data and its length field is stale (R195). -/
def Packet.withStaleData (p : Packet) (data : List Byte) : Packet :=
  { p with data := data, hasData := true, lenStale := true }

/-- `PB` after header and data field were set together, consistent (R196, R197, R201). -/
def freshPacket (hdr : Buf Config.pktHdrLen) (data : List Byte) : Packet :=
  { hdr := hdr, data := data, hasData := true, lenStale := false }

/-- The depacketizer after the frame that establishes alignment with pointer `p`, before its report (R246). -/
def Depacketizer.aligned (d : Depacketizer) (p : Nat) : Depacketizer := { d with seen := true, dbc := p }

/-- The depacketizer after the discard report (R250). -/
def Depacketizer.afterReport (d : Depacketizer) : Depacketizer := { d with reported := true }

end Sys2Proof.Machine
end

