-- ==== Sys2Proof/Machine/Operands.lean ====
section
/-! DEFINITION. Operand forms: range checks of `ARG` and `DAT`, the named regions of a frame buffer (R61), the addressing
forms of R82, and the header fields as operands. -/

namespace Sys2Proof.Machine

/-- `v` fits a field of `w` bits (R18 (d)). -/
def fits (w v : Nat) : Bool := decide (v < 2 ^ w)

/-- Overwrite `l` from index `a` on with `v`; bytes that would fall past the end are dropped, so the length never changes. -/
def overlay : List Byte → Nat → List Byte → List Byte
  | [], _, _ => []
  | x :: l, 0, [] => x :: l
  | _ :: l, 0, v :: vs => v :: overlay l 0 vs
  | x :: l, a + 1, vs => x :: overlay l a vs

/-- `overlay` keeps the length, whatever is written where. -/
theorem overlay_length : ∀ (l : List Byte) (a : Nat) (v : List Byte), (overlay l a v).length = l.length
  | [], _, _ => by simp [overlay]
  | _ :: _, 0, [] => by simp [overlay]
  | _ :: l, 0, _ :: vs => by simp [overlay, overlay_length l 0 vs]
  | _ :: l, a + 1, vs => by simp [overlay, overlay_length l a vs]

/-- `MemRead(buf, a, n)`: the bytes `buf[a..a+n)` (R17). -/
def bufRead {n : Nat} (b : Buf n) (a len : Nat) : List Byte := (b.bytes.drop a).take len

/-- `MemWrite(buf, a, n, v)`: `buf[a..a+n) <- v` (R17). -/
def bufWrite {n : Nat} (b : Buf n) (a : Nat) (v : List Byte) : Buf n :=
  ⟨overlay b.bytes a v, by rw [overlay_length, b.size]⟩

/-- The buffer that holds the given bytes from index 0 on. -/
def bufOfList (n : Nat) (l : List Byte) : Buf n := bufWrite (Buf.zero n) 0 l

/-- One byte of a buffer; every access of the block is in range (R81). -/
def bufByte {n : Nat} (b : Buf n) (i : Nat) : Byte := b.bytes.getD i 0

/-- R82 (b): the first byte of the data zone (R61). -/
def dzAddr : Nat := 8
/-- R82 (b): the first byte of the checksum field (R61). -/
def ckAddr : Nat := 892
/-- R82 (c): the CVCDU byte at data zone offset `PZ_NBO`. -/
def cursorAddr (nbo : Nat) : Nat := dzAddr + nbo
/-- R82 (d): the CVCDU byte at data zone offset `FHP`. -/
def pointerAddr (p : Nat) : Nat := dzAddr + p
/-- R82 (e): byte `4·i + k` of the VC_PDU or of the checksum field. -/
def strideAddr (i k : Nat) : Nat := Config.ilDepth * i + k
/-- R82 (f): the table index of byte `i` of a CVCDU. -/
def pnIndex (i : Nat) : Nat := i % Config.pnLen

/-- The VC_PDU, CVCDU bytes `[0..892)`. -/
def Frame.vcPdu (f : Frame) : List Byte := bufRead f.cvcdu 0 Config.vcpduLen
/-- The data zone, CVCDU bytes `[8..892)`. -/
def Frame.dataZone (f : Frame) : List Byte := bufRead f.cvcdu dzAddr Config.dzLen
/-- The checksum field, CVCDU bytes `[892..1020)`. -/
def Frame.checksumField (f : Frame) : List Byte := bufRead f.cvcdu ckAddr Config.ckLen
/-- The header fields of a frame (R93). -/
def Frame.header (f : Frame) : VcHeader := VcHeader.ofBytes (bufRead f.cvcdu 0 Config.hdrLen)

/-- The frame with its header replaced: Dirty (R171). -/
def Frame.setHeader (f : Frame) (h : VcHeader) : Frame := dirtyFrame (bufWrite f.cvcdu 0 h.toBytes)
/-- The frame with bytes written into its data zone from offset `o` on: Dirty (R173, R218). -/
def Frame.writeZone (f : Frame) (o : Nat) (v : List Byte) : Frame := dirtyFrame (bufWrite f.cvcdu (cursorAddr o) v)

/-- The header fields of the working packet (R100). -/
def Packet.header (p : Packet) : PktHeader := PktHeader.ofBytes p.hdr.bytes
/-- The working packet with its header replaced; no flag changes (R194). -/
def Packet.setHeader (p : Packet) (h : PktHeader) : Packet := { p with hdr := bufOfList _ h.toBytes }

/-- The bytes of the sync marker on the wire: `1A CF FC 1D` (R91). -/
def asmBytes : List Byte := beBytes Config.asmLen Config.asm.toNat

end Sys2Proof.Machine
end

