-- ==== Sys2Proof/Machine/Ops.lean ====
section
/-! DEFINITION. The shared operations: ending an operation with a status (R270, R280, R282), the streams (R66, R67), the
diagnostic output (R284), the marker search (R132), the randomizer (R141), the checksum (R151 to R153), serialization
(R178, R200, R202) and reset (R48). -/

namespace Sys2Proof.Machine

/-- The three outcomes of a step of this machine. -/
abbrev Result := Host.Outcome State Fault Refusal

/-! ### Ending an operation -/

/-- `return OK(RESULT = r, RDAT = d)` (R17, R27, R270). -/
def finish (s : State) (r : Nat) (d : List Byte) : Result :=
  .next { s with status := .ok, result := r, rdat := d }

/-- `raise <Status>` (R282): the operation ends with the code in `STATUS`, `RESULT` 0 and `RDAT` empty (R280). Nothing is
saved and control goes nowhere; there is no handler and no return (R285). -/
def raise (st : Status) (s : State) : Result :=
  .next { s with status := st, result := 0, rdat := [] }

/-- `Diag(rec)`: append one record (R284). -/
def diagnose (rec : DiagRecord) (s : State) : State := { s with diag := s.diag ++ [rec] }

/-! ### Streams -/

/-- The outcome of `StreamRead` (R66). -/
inductive ReadResult where
  /-- all the bytes asked for -/
  | full (bytes : List Byte)
  /-- the stream ended after `avail` bytes, which are consumed and lost -/
  | short (avail : Nat)
deriving DecidableEq, Repr

/-- The stream after its first `n` pending bytes were consumed (R23). -/
def InStream.consume (st : InStream) (n : Nat) : InStream :=
  { st with pending := st.pending.drop n, pos := st.pos + n }

/-- `StreamRead(S, n)` (R66). -/
def streamRead (st : InStream) (n : Nat) : ReadResult × InStream :=
  if n ≤ st.pending.length then (.full (st.pending.take n), st.consume n)
  else (.short st.pending.length, st.consume st.pending.length)

/-- The stream of the next pass, at its start (R262: "a new pass starts on new streams"; log entry 12). -/
def InStream.nextPass (st : InStream) : InStream :=
  { pending := st.later.headD [], pos := 0, later := st.later.tail }

/-- `StreamWrite(FRM_OUT, B)` (R67). -/
def writeFrm (b : List Byte) (s : State) : State := { s with frmOut := s.frmOut ++ b }

/-- `StreamWrite(PKT_OUT, B)` (R67). -/
def writePkt (b : List Byte) (s : State) : State := { s with pktOut := s.pktOut ++ b }

/-! ### The synchronizer -/

/-- One byte shifted into the register: `((SYNC_SR << 8) | b) mod 2^32` (R131). -/
def shiftIn (sr : BitVec 32) (b : Byte) : BitVec 32 := (sr <<< 8) ||| b.setWidth 32

/-- Where a search ends. -/
structure Scan where
  /-- the register -/
  sr : BitVec 32
  /-- how many bytes were shifted in -/
  used : Nat
  /-- whether the last of them completed a marker -/
  found : Bool
deriving DecidableEq, Repr

/-- The search loop of R132 over the pending bytes: shift one byte in at a time until a match or the end. -/
def scan : BitVec 32 → List Byte → Scan
  | sr, [] => { sr := sr, used := 0, found := false }
  | sr, b :: bs =>
    if isMarker (shiftIn sr b) then { sr := shiftIn sr b, used := 1, found := true }
    else { sr := (scan (shiftIn sr b) bs).sr, used := (scan (shiftIn sr b) bs).used + 1,
           found := (scan (shiftIn sr b) bs).found }

/-- The state after the search phase of `SYNC.FIND` and `CADU.READ` (R132, R175), and whether a marker was found. -/
def searchMarker (s : State) : State × Bool :=
  let r := scan s.syncSr s.frmIn.pending
  ({ s with syncSr := r.sr, frmIn := s.frmIn.consume r.used }, r.found)

/-- The offset of the first byte of the marker just matched: `FRM_IN.pos − 4` (R132). -/
def markerOffset (s : State) : Nat := s.frmIn.pos - Config.asmLen

/-! ### The randomizer -/

/-- `Rand` from byte index `i` on: byte `i` is XORed with the table entry at `i mod 255` (R141). -/
def randFrom (table : List Byte) : Nat → List Byte → List Byte
  | _, [] => []
  | i, b :: bs => (b ^^^ table.getD (pnIndex i) 0) :: randFrom table (i + 1) bs

/-- `Rand(B)` (R141), with the block's table; the index restarts at 0 for every frame (R146). -/
def randomize (p : Params) (b : List Byte) : List Byte := randFrom p.pnTable.bytes 0 b

/-- The transform applied when the variant bit says randomized (R105, R145). -/
def lineForm (variant : BitVec 1) (p : Params) (b : List Byte) : List Byte :=
  if variant = 1#1 then randomize p b else b

/-! ### The checksum -/

/-- `Deint(V)_k`: sub-block `k` holds the bytes at positions `4·i + k` (R151). -/
def deint (v : List Byte) (k : Nat) : List Byte :=
  (List.range Config.rsK).map fun i => v.getD (strideAddr i k) 0

/-- `RS_ENCODE(x)` through port `RS` (R24, R154). -/
def rsEncode (x : List Byte) : List Byte := (List.range Config.rsP).map fun j => Config.rsParity x j

/-- `Int(p)[4·i + k] = p_k[i]` for the parity blocks `p` (R152). -/
def interleave (p : List (List Byte)) : List Byte :=
  (List.range Config.ckLen).map fun j => (p.getD (j % Config.ilDepth) []).getD (j / Config.ilDepth) 0

/-- `Cksum(V)` with a given encoder (R153). -/
def cksumWith (enc : List Byte → List Byte) (v : List Byte) : List Byte :=
  interleave ((List.range Config.ilDepth).map fun k => enc (deint v k))

/-- `Cksum(V)` (R153). -/
def cksum (v : List Byte) : List Byte := cksumWith rsEncode v

/-- The frame with its checksum recomputed and stored: Clean (R155). -/
def Frame.recompute (f : Frame) : Frame := cleanFrame (bufWrite f.cvcdu ckAddr (cksum f.vcPdu))

/-- "if Dirty, recompute checksum then clear" (R178). -/
def Frame.settle (f : Frame) : Frame := if f.dirty then f.recompute else f

/-- The stored checksum field equals the recomputed one, all 128 bytes (R156). -/
def Frame.checksumMatches (f : Frame) : Bool := decide (cksum f.vcPdu = f.checksumField)

/-! ### Serialization -/

/-- The 1024 bytes of a frame on the wire: the marker in clear, then the CVCDU in the selected variant (R90, R105, R178). -/
def wireFrame (variant : BitVec 1) (p : Params) (f : Frame) : List Byte :=
  asmBytes ++ lineForm variant p f.cvcdu.bytes

/-- `Recalc` (R199): where the length is stale, the header's length bytes become the data length less 1. -/
def Packet.recalc (p : Packet) : Packet :=
  if p.lenStale then
    { p with hdr := bufWrite p.hdr 4 (beBytes 2 (p.data.length - 1)), lenStale := false }
  else p

/-- `PktBytes`: the serialized packet (R200). -/
def Packet.serialize (p : Packet) : List Byte := p.hdr.bytes ++ p.data

/-- The 6 header bytes of a fill packet of total length `n` (R103, R201, R202). -/
def fillHeaderBytes (n : Nat) : List Byte := [0x07, 0xFF, 0xC0, 0x00] ++ beBytes 2 (n - Config.minPacketLen)

/-- `FillBytes(n)` (R202). -/
def fillBytes (n : Nat) : List Byte := fillHeaderBytes n ++ zeros (n - Config.pktHdrLen)

/-! ### Reset -/

/-- The reset input and `RESET` (R48, R262, R300): every piece of the block's state takes its value of R48, and new streams
are attached. The parameters, the streams to come and the host's commands are not the block's (R50; log entries 10, 12). -/
def resetState (s : State) : State :=
  { State.reset with
    frmIn := s.frmIn.nextPass, pktIn := s.pktIn.nextPass, par := s.par, resetIn := s.resetIn, cmds := s.cmds }

end Sys2Proof.Machine
end

