-- ==== Sys2Proof/Machine/Cadu.lean ====
section
/-! DEFINITION. The CADU family (R166 to R178), on the working frame `FB`. -/

namespace Sys2Proof.Machine

/-- `CADU.SET f, #v` for a field of `w` bits, `h` being the header with field `f` at `v` (R171). -/
def caduSet (w v : Nat) (h : VcHeader) (s : State) : Result :=
  if fits w v then finish { s with fb := s.fb.setHeader h } 0 [] else raise .fieldRange s

/-- `CADU.NEW` (R166). -/
def execCaduNew (s : State) : Result := finish { s with fb := emptyFrame } 0 []

/-- `CADU.GET VERSION` (R170). -/
def execCaduGetVersion (s : State) : Result := finish s s.fb.header.version.toNat []
/-- `CADU.GET SCID` (R170). -/
def execCaduGetScid (s : State) : Result := finish s s.fb.header.scid.toNat []
/-- `CADU.GET VCID` (R170). -/
def execCaduGetVcid (s : State) : Result := finish s s.fb.header.vcid.toNat []
/-- `CADU.GET COUNTER` (R170). -/
def execCaduGetCounter (s : State) : Result := finish s s.fb.header.counter.toNat []
/-- `CADU.GET SPARE_A` (R170, R96). -/
def execCaduGetSpareA (s : State) : Result := finish s s.fb.header.spareA.toNat []
/-- `CADU.GET REPLAY` (R170). -/
def execCaduGetReplay (s : State) : Result := finish s s.fb.header.replay.toNat []
/-- `CADU.GET FHP` (R170). -/
def execCaduGetFhp (s : State) : Result := finish s s.fb.header.fhp.toNat []
/-- `CADU.GET SPARE_B` (R170, R96). -/
def execCaduGetSpareB (s : State) : Result := finish s s.fb.header.spareB.toNat []

/-- `CADU.SET VERSION, #v` (R171). -/
def execCaduSetVersion (v : Nat) (s : State) : Result := caduSet 2 v { s.fb.header with version := BitVec.ofNat 2 v } s
/-- `CADU.SET SCID, #v` (R171). -/
def execCaduSetScid (v : Nat) (s : State) : Result := caduSet 8 v { s.fb.header with scid := BitVec.ofNat 8 v } s
/-- `CADU.SET VCID, #v` (R171). -/
def execCaduSetVcid (v : Nat) (s : State) : Result := caduSet 6 v { s.fb.header with vcid := BitVec.ofNat 6 v } s
/-- `CADU.SET COUNTER, #v` (R171). -/
def execCaduSetCounter (v : Nat) (s : State) : Result := caduSet 24 v { s.fb.header with counter := BitVec.ofNat 24 v } s
/-- `CADU.SET REPLAY, #v` (R171). -/
def execCaduSetReplay (v : Nat) (s : State) : Result := caduSet 1 v { s.fb.header with replay := BitVec.ofNat 1 v } s
/-- `CADU.SET FHP, #v` (R171): any 11-bit value, reserved ones included. -/
def execCaduSetFhp (v : Nat) (s : State) : Result := caduSet 11 v { s.fb.header with fhp := BitVec.ofNat 11 v } s

/-- `CADU.GETDATA` (R172). -/
def execCaduGetdata (s : State) : Result := finish s 0 s.fb.dataZone

/-- `CADU.SETDATA <bytes>` (R173): exactly 884 bytes. -/
def execCaduSetdata (dat : List Byte) (s : State) : Result :=
  if dat.length = Config.dzLen then finish { s with fb := s.fb.writeZone 0 dat } 0 [] else raise .fieldRange s

/-- Phase 2 of `CADU.READ` (R175), after a marker was found at offset `off`: the 1020-byte body, which does not pass
through the shift register. -/
def readBody (s : State) (off : Nat) : Result :=
  match streamRead s.frmIn Config.cvcduLen with
  | (.full b, st) =>
    finish { s with frmIn := st, fb := cleanFrame (bufOfList _ (lineForm s.cfg.randomize s.par b)) } off []
  | (.short _, st) =>
    raise .truncated (diagnose (.decodeFailure .truncated st.pos) { s with frmIn := st })

/-- `CADU.READ` (R175): the search of `SYNC.FIND` on the raw input, then the body. -/
def execCaduRead (s : State) : Result :=
  match searchMarker s with
  | (t, true) => readBody t (markerOffset t)
  | (t, false) => raise .endOfStream t

/-- `CADU.WRITE` (R178): recompute if Dirty, on `FB` itself, then serialize, a clone if randomized. -/
def execCaduWrite (s : State) : Result :=
  finish (writeFrm (wireFrame s.cfg.randomize s.par s.fb.settle) { s with fb := s.fb.settle }) 0 []

end Sys2Proof.Machine
end

