-- ==== Sys2Proof/Machine/Checksum.lean ====
section
/-! DEFINITION. The CK family: `CK.RECOMPUTE`, `CK.VALIDATE` (R155, R156). -/

namespace Sys2Proof.Machine

/-- `CK.RECOMPUTE` (R155). -/
def execCkRecompute (s : State) : Result := finish { s with fb := s.fb.recompute } 0 []

/-- `CK.VALIDATE` (R156): a Dirty frame is invalid unconditionally (R158), a Clean one when its checksum field is not
the recomputed checksum. -/
def execCkValidate (s : State) : Result :=
  if s.fb.dirty then raise .checksumInvalid s
  else if s.fb.checksumMatches then finish s 1 []
  else raise .checksumInvalid s

end Sys2Proof.Machine
end

