-- ==== Sys2Proof/Machine/ConfigOps.lean ====
section
/-! DEFINITION. The CFG family: `RESET`, `CFG.SET`, `CFG.GET` (R260 to R262). -/

namespace Sys2Proof.Machine

/-- `CFG.SET r, #v` for a register of `w` bits, `cfg` being the registers with `CFG[r]` at `v` (R260). -/
def cfgSet (w v : Nat) (cfg : Cfg) (s : State) : Result :=
  if fits w v then finish { s with cfg := cfg } 0 [] else raise .fieldRange s

/-- `RESET` (R262). -/
def execReset (s : State) : Result := finish (resetState s) 0 []

/-- `CFG.SET VERSION, #v` (R260, R41). -/
def execCfgSetVersion (v : Nat) (s : State) : Result := cfgSet 2 v { s.cfg with version := BitVec.ofNat 2 v } s
/-- `CFG.SET SCID, #v` (R260, R42). -/
def execCfgSetScid (v : Nat) (s : State) : Result := cfgSet 8 v { s.cfg with scid := BitVec.ofNat 8 v } s
/-- `CFG.SET VCID, #v` (R260, R43). -/
def execCfgSetVcid (v : Nat) (s : State) : Result := cfgSet 6 v { s.cfg with vcid := BitVec.ofNat 6 v } s
/-- `CFG.SET START_CTR, #v` (R260, R44). -/
def execCfgSetStartCtr (v : Nat) (s : State) : Result := cfgSet 24 v { s.cfg with startCtr := BitVec.ofNat 24 v } s
/-- `CFG.SET REPLAY, #v` (R260, R45). -/
def execCfgSetReplay (v : Nat) (s : State) : Result := cfgSet 1 v { s.cfg with replay := BitVec.ofNat 1 v } s
/-- `CFG.SET RANDOMIZE, #v` (R260, R46). -/
def execCfgSetRandomize (v : Nat) (s : State) : Result := cfgSet 1 v { s.cfg with randomize := BitVec.ofNat 1 v } s
/-- `CFG.SET PACK_MODE, #v` (R260, R47). -/
def execCfgSetPackMode (v : Nat) (s : State) : Result := cfgSet 1 v { s.cfg with packMode := BitVec.ofNat 1 v } s

/-- `CFG.GET VERSION` (R261). -/
def execCfgGetVersion (s : State) : Result := finish s s.cfg.version.toNat []
/-- `CFG.GET SCID` (R261). -/
def execCfgGetScid (s : State) : Result := finish s s.cfg.scid.toNat []
/-- `CFG.GET VCID` (R261). -/
def execCfgGetVcid (s : State) : Result := finish s s.cfg.vcid.toNat []
/-- `CFG.GET START_CTR` (R261). -/
def execCfgGetStartCtr (s : State) : Result := finish s s.cfg.startCtr.toNat []
/-- `CFG.GET REPLAY` (R261). -/
def execCfgGetReplay (s : State) : Result := finish s s.cfg.replay.toNat []
/-- `CFG.GET RANDOMIZE` (R261). -/
def execCfgGetRandomize (s : State) : Result := finish s s.cfg.randomize.toNat []
/-- `CFG.GET PACK_MODE` (R261). -/
def execCfgGetPackMode (s : State) : Result := finish s s.cfg.packMode.toNat []

end Sys2Proof.Machine
end

