-- ==== Sys2Proof/Machine/Depacketizer.lean ====
section
/-! DEFINITION. The DZ family: `DZ.INIT`, `DZ.PUSH`, `DZ.END` (R245 to R251). -/

namespace Sys2Proof.Machine

/-- The discard report (R250): one record with both counts, and the flag that says it was written. -/
def reportDiscards (s : State) : State :=
  { diagnose (.discardReport s.dz.dfc s.dz.dbc) s with dz := s.dz.afterReport }

/-- The discard report, guarded by `DZ_REPORTED` so that a pass has one (R250, R33, R284, D28). -/
def reportOnce (s : State) : State := if s.dz.reported then s else reportDiscards s

/-- `n` frames can be counted in `DZ_DFC` (R32; 93_implementation_defined.md U9). -/
def countFits (width : Option Nat) (n : Nat) : Bool :=
  match width with
  | none => true
  | some w => fits w n

/-- A frame before alignment whose pointer is the sentinel is discarded whole (R246). It is counted also when the counts were
already reported, by a `DZ.END`: DESIGN CHOICE, log entry 17. -/
def discardFrame (s : State) : Result :=
  if countFits s.par.dfcWidth (s.dz.dfc + 1) then
    finish { s with dz := { s.dz with dfc := s.dz.dfc + 1 } } 0 []
  else .fault .dfcOverflow

/-- The frame that establishes alignment at offset `p` (R246): its tail is written, then the counts are reported unless a
`DZ.END` reported them before (R250, R33, D28: DEDUCED against R246's pseudocode, log entry 13). `DZ_DBC` is written in both
cases (DESIGN CHOICE, log entry 17). -/
def alignFrame (p : Nat) (s : State) : Result :=
  finish (reportOnce (writePkt (bufRead s.fb.cvcdu (pointerAddr p) (Config.dzLen - p)) { s with dz := s.dz.aligned p }))
    (Config.dzLen - p) []

/-- `DZ.INIT` (R245). -/
def execDzInit (s : State) : Result := finish { s with dz := emptyDepacketizer } 0 []

/-- `DZ.PUSH` (R246, R249): after alignment the whole data zone, the pointer unread; before it, by the pointer. -/
def execDzPush (s : State) : Result :=
  let p := s.fb.header.fhp.toNat
  if s.dz.seen then finish (writePkt s.fb.dataZone s) Config.dzLen []
  else if p = Config.fhpNone.toNat then discardFrame s
  else if Config.dzLen < p then raise .invalidPointer (diagnose (.decodeFailure .invalidPointer p) s)
  else alignFrame p s

/-- `DZ.END` (R251). -/
def execDzEnd (s : State) : Result :=
  finish (reportOnce s) s.dz.dfc []

end Sys2Proof.Machine
end

