-- ==== Sys2Proof/Machine/Format.lean ====
section
/-! DEFINITION. The rows of the opcode table that are no operation: an illegal command word (R115) and the four data
formats. -/

namespace Sys2Proof.Machine

/-- An item that is no operation (R115, R279, R281): `STATUS <- ILLEGAL_OP`, `RESULT <- 0`, `RDAT <-` empty, nothing else. -/
def illegalOp (s : State) : Result := raise .illegalOp s

/-- A command word that is no operation (R115). -/
def execFormatCmd (_op _sel : Byte) (s : State) : Result := illegalOp s
/-- The sync marker presented as a command: no operation of R111 (log entry 7). -/
def execFormatAsm (s : State) : Result := illegalOp s
/-- A VC_PDU header presented as a command: no operation of R111 (log entry 7). -/
def execFormatVcpduHeader (_h : VcHeader) (s : State) : Result := illegalOp s
/-- A packet header presented as a command: no operation of R111 (log entry 7). -/
def execFormatPacketHeader (_h : PktHeader) (s : State) : Result := illegalOp s
/-- A fill packet's header presented as a command: no operation of R111 (log entry 7). -/
def execFormatFillPacketHeader (_dataLen : BitVec 16) (s : State) : Result := illegalOp s

end Sys2Proof.Machine
end

