-- ==== Sys2Proof/Machine/Packetizer.lean ====
section
/-! DEFINITION. The PZ family (R216 to R226): `Emit`, `NextFhp`, `PackBytes`, `PadOne`, and the three operations. -/

namespace Sys2Proof.Machine

/-- `NextFhp(r)` (R220): the sentinel when more than a whole data zone remains, else the remainder. -/
def nextFhp (r : Nat) : BitVec 11 := if Config.dzLen < r then Config.fhpNone else BitVec.ofNat 11 r

/-- `Emit(next_fhp)` (R219): recompute the checksum, write the frame with the latched variant, advance the counter, and
open the next frame at offset 0 with the given pointer. The data zone is not cleared. -/
def emit (fhp : BitVec 11) (s : State) : State :=
  let f := s.pz.fb.recompute
  let s := writeFrm (wireFrame s.pz.rand s.par f) s
  { s with pz := { s.pz with
      nbo := 0
      ctr := s.pz.ctr + 1
      fb := f.setHeader { f.header with counter := s.pz.ctr + 1, fhp := fhp } } }

/-- One copy of R218 and R223: `v` goes into the data zone at the cursor, which advances by its length. -/
def putBytes (v : List Byte) (s : State) : State :=
  { s with pz := { s.pz with fb := s.pz.fb.writeZone s.pz.nbo v, nbo := s.pz.nbo + v.length } }

/-- How many of the remaining bytes `p` the next copy takes: `min(r, 884 − PZ_NBO)` (R218). -/
def chunk (p : List Byte) (s : State) : Nat := min p.length (Config.dzLen - s.pz.nbo)

/-- The packing loop of R218 with at most `fuel` turns, and the number of frames it emits. Every turn but one that starts
on a full data zone consumes a byte, so one turn more than the bytes is enough (log entry 16). -/
def packLoop : Nat → List Byte → State → State × Nat
  | 0, _, s => (s, 0)
  | fuel + 1, p, s =>
    if p = [] then (s, 0)
    else
      let t := putBytes (p.take (chunk p s)) s
      let rest := p.drop (chunk p s)
      if t.pz.nbo = Config.dzLen then
        let r := packLoop fuel rest (emit (nextFhp rest.length) t)
        (r.1, r.2 + 1)
      else packLoop fuel rest t

/-- `PackBytes(P)` (R218). -/
def packBytes (p : List Byte) (s : State) : State × Nat := packLoop (p.length + 1) p s

/-- The whole data zone written at once and the frame emitted (R223, R226). -/
def emitZone (z : List Byte) (fhp : BitVec 11) (s : State) : State :=
  emit fhp (putBytes z { s with pz := { s.pz with nbo := 0 } })

/-- `PadOne(P)` (R226): the packet alone or with a fill packet makes a whole data zone, or it is skipped. -/
def padOne (p : List Byte) (s : State) : Result :=
  if p.length = Config.dzLen then finish (emitZone p 0 s) 1 []
  else if p.length ≤ Config.dzLen - Config.minPacketLen then
    finish (emitZone (p ++ fillBytes (Config.dzLen - p.length)) 0 s) 1 []
  else raise .packetSkipped (diagnose (.packetSkipped p.length) s)

/-- The header of the first frame of a pass (R216). -/
def initHeader (c : Cfg) : VcHeader :=
  { version := c.version, scid := c.scid, vcid := c.vcid, counter := c.startCtr, spareA := 0, replay := c.replay,
    fhp := 0, spareB := 0 }

/-- `PZ.INIT` (R216): latch the configuration and open an empty frame. -/
def execPzInit (s : State) : Result :=
  finish { s with pz := {
      nbo := 0
      ctr := s.cfg.startCtr
      fb := emptyFrame.setHeader (initHeader s.cfg)
      mode := s.cfg.packMode
      rand := s.cfg.randomize } } 0 []

/-- `PZ.PUSH` (R217): pack the working packet, by the latched mode. -/
def execPzPush (s : State) : Result :=
  if s.pb.hasData then
    let t := { s with pb := s.pb.recalc }
    let p := t.pb.serialize
    if t.pz.mode = 0#1 then finish (packBytes p t).1 (packBytes p t).2 [] else padOne p t
  else raise .invalidPacket s

/-- The oversized fill packet of R223 and R225: `sp` bytes close the open frame, whose successor has the sentinel, and one
whole data zone follows. -/
def flushOversized (sp : Nat) (s : State) : State :=
  let f := fillBytes (sp + Config.dzLen)
  emitZone (f.drop sp) 0 (emit Config.fhpNone (putBytes (f.take sp) s))

/-- `PZ.FLUSH` (R223): close the open frame with a fill packet. -/
def execPzFlush (s : State) : Result :=
  if s.pz.nbo = 0 then finish s 0 []
  else
    let sp := Config.dzLen - s.pz.nbo
    if Config.minPacketLen ≤ sp then finish (packBytes (fillBytes sp) s).1 (packBytes (fillBytes sp) s).2 []
    else finish (flushOversized sp s) 2 []

end Sys2Proof.Machine
end

