-- ==== Sys2Proof/Machine/Packets.lean ====
section
/-! DEFINITION. The PKT family (R192 to R203), on the working packet `PB`. -/

namespace Sys2Proof.Machine

/-- `PKT.SET f, #v` for a field of `w` bits, `h` being the header with field `f` at `v` (R194). -/
def pktSet (w v : Nat) (h : PktHeader) (s : State) : Result :=
  if fits w v then finish { s with pb := s.pb.setHeader h } 0 [] else raise .fieldRange s

/-- `PKT.NEW` (R192). -/
def execPktNew (s : State) : Result := finish { s with pb := emptyPacket } 0 []

/-- `PKT.GET PVERSION` (R193). -/
def execPktGetPversion (s : State) : Result := finish s s.pb.header.pversion.toNat []
/-- `PKT.GET TYPE` (R193). -/
def execPktGetType (s : State) : Result := finish s s.pb.header.ptype.toNat []
/-- `PKT.GET SHF` (R193). -/
def execPktGetShf (s : State) : Result := finish s s.pb.header.shf.toNat []
/-- `PKT.GET APID` (R193). -/
def execPktGetApid (s : State) : Result := finish s s.pb.header.apid.toNat []
/-- `PKT.GET SEQFLAGS` (R193). -/
def execPktGetSeqflags (s : State) : Result := finish s s.pb.header.seqflags.toNat []
/-- `PKT.GET SEQCOUNT` (R193). -/
def execPktGetSeqcount (s : State) : Result := finish s s.pb.header.seqcount.toNat []
/-- `PKT.GET DATALEN` (R193): the stored bytes, stale or not. -/
def execPktGetDatalen (s : State) : Result := finish s s.pb.header.datalen.toNat []

/-- `PKT.SET PVERSION, #v` (R194). -/
def execPktSetPversion (v : Nat) (s : State) : Result := pktSet 3 v { s.pb.header with pversion := BitVec.ofNat 3 v } s
/-- `PKT.SET TYPE, #v` (R194). -/
def execPktSetType (v : Nat) (s : State) : Result := pktSet 1 v { s.pb.header with ptype := BitVec.ofNat 1 v } s
/-- `PKT.SET SHF, #v` (R194). -/
def execPktSetShf (v : Nat) (s : State) : Result := pktSet 1 v { s.pb.header with shf := BitVec.ofNat 1 v } s
/-- `PKT.SET APID, #v` (R194). -/
def execPktSetApid (v : Nat) (s : State) : Result := pktSet 11 v { s.pb.header with apid := BitVec.ofNat 11 v } s
/-- `PKT.SET SEQFLAGS, #v` (R194). -/
def execPktSetSeqflags (v : Nat) (s : State) : Result := pktSet 2 v { s.pb.header with seqflags := BitVec.ofNat 2 v } s
/-- `PKT.SET SEQCOUNT, #v` (R194). -/
def execPktSetSeqcount (v : Nat) (s : State) : Result := pktSet 14 v { s.pb.header with seqcount := BitVec.ofNat 14 v } s

/-- `PKT.GETDATA` (R198): the data field and its length. -/
def execPktGetdata (s : State) : Result :=
  if s.pb.hasData then finish s s.pb.data.length s.pb.data else raise .invalidPacket s

/-- `PKT.SETDATA <bytes>` (R195): 1 to 65536 bytes; the length field is recomputed later. -/
def execPktSetdata (dat : List Byte) (s : State) : Result :=
  if dat.length = 0 ∨ Config.pktDataMax < dat.length then raise .invalidPacket s
  else finish { s with pb := s.pb.withStaleData dat } 0 []

/-- `PKT.SETDATA_LEN #n, <bytes>` (R196): the declared length is the unbiased byte count. -/
def execPktSetdataLen (n : Nat) (dat : List Byte) (s : State) : Result :=
  if n = 0 ∨ Config.pktDataMax < n ∨ dat.length ≠ n then raise .invalidPacket s
  else finish { s with pb := freshPacket (bufWrite s.pb.hdr 4 (beBytes 2 (n - 1))) dat } 0 []

/-- The failing end of `PKT.READ` (R197, R273): the partial bytes are consumed, `PB` is unchanged, one record is written. -/
def truncatedPacket (st : InStream) (s : State) : Result :=
  raise .truncated (diagnose (.decodeFailure .truncated st.pos) { s with pktIn := st })

/-- The data field of `PKT.READ` after the header `h` was read: `DATALEN + 1` bytes (R197). -/
def readData (h : List Byte) (st : InStream) (s : State) : Result :=
  match streamRead st (beNat (h.drop 4) + 1) with
  | (.full d, st') =>
    finish { s with pktIn := st', pb := freshPacket (bufOfList _ h) d } (Config.pktHdrLen + (beNat (h.drop 4) + 1)) []
  | (.short _, st') => truncatedPacket st' s

/-- `PKT.READ` (R197): only zero bytes at a packet boundary is a clean end. -/
def execPktRead (s : State) : Result :=
  match streamRead s.pktIn Config.pktHdrLen with
  | (.full h, st) => readData h st s
  | (.short 0, st) => raise .endOfStream { s with pktIn := st }
  | (.short _, st) => truncatedPacket st s

/-- `PKT.WRITE` (R203). -/
def execPktWrite (s : State) : Result :=
  if s.pb.hasData then
    finish (writePkt s.pb.recalc.serialize { s with pb := s.pb.recalc }) (Config.pktHdrLen + s.pb.data.length) []
  else raise .invalidPacket s

/-- `PKT.FILL #n` (R201): `PB` becomes the fill packet of total length `n`. -/
def execPktFill (n : Nat) (s : State) : Result :=
  if n < Config.minPacketLen ∨ Config.maxPacketLen < n then raise .invalidPacket s
  else finish { s with pb := freshPacket (bufOfList _ (fillHeaderBytes n)) (zeros (n - Config.pktHdrLen)) } 0 []

end Sys2Proof.Machine
end

