-- ==== Sys2Proof/Machine/Randomizer.lean ====
section
/-! DEFINITION. The RAND family: `RAND.APPLY` (R143). -/

namespace Sys2Proof.Machine

/-- `RAND.APPLY` (R143): the transform in place on all 1020 bytes of `FB`; the Dirty flag stays as it was. -/
def execRandApply (s : State) : Result :=
  finish { s with fb := { s.fb with cvcdu := bufOfList _ (randomize s.par s.fb.cvcdu.bytes) } } 0 []

end Sys2Proof.Machine
end

