-- ==== Sys2Proof/Machine/Sync.lean ====
section
/-! DEFINITION. The SYNC family: `SYNC.SHIFT`, `SYNC.FIND` (R131, R132). -/

namespace Sys2Proof.Machine

/-- `SYNC.SHIFT` (R131): one byte into the register, and whether it now equals the marker. -/
def execSyncShift (s : State) : Result :=
  match streamRead s.frmIn 1 with
  | (.full [b], st) => finish { s with syncSr := shiftIn s.syncSr b, frmIn := st } (matchResult (shiftIn s.syncSr b)) []
  | (_, st) => raise .endOfStream { s with frmIn := st }

/-- `SYNC.FIND` (R132): scan forward to the next marker. -/
def execSyncFind (s : State) : Result :=
  match searchMarker s with
  | (t, true) => finish t (markerOffset t) []
  | (t, false) => raise .endOfStream t

end Sys2Proof.Machine
end

