-- ==== Sys2Proof/Machine/Dispatch.lean ====
section
/-! DEFINITION. The meaning of every instruction: one arm per row of spec/opcode_table.json. -/

namespace Sys2Proof.Machine
open Sys2Proof

def exec (i : Instr) (s : State) : Host.Outcome State Fault Refusal :=
  match i with
  | .reset => Sys2Proof.Machine.execReset s
  | .cfgSetVersion v => Sys2Proof.Machine.execCfgSetVersion v s
  | .cfgSetScid v => Sys2Proof.Machine.execCfgSetScid v s
  | .cfgSetVcid v => Sys2Proof.Machine.execCfgSetVcid v s
  | .cfgSetStartCtr v => Sys2Proof.Machine.execCfgSetStartCtr v s
  | .cfgSetReplay v => Sys2Proof.Machine.execCfgSetReplay v s
  | .cfgSetRandomize v => Sys2Proof.Machine.execCfgSetRandomize v s
  | .cfgSetPackMode v => Sys2Proof.Machine.execCfgSetPackMode v s
  | .cfgGetVersion => Sys2Proof.Machine.execCfgGetVersion s
  | .cfgGetScid => Sys2Proof.Machine.execCfgGetScid s
  | .cfgGetVcid => Sys2Proof.Machine.execCfgGetVcid s
  | .cfgGetStartCtr => Sys2Proof.Machine.execCfgGetStartCtr s
  | .cfgGetReplay => Sys2Proof.Machine.execCfgGetReplay s
  | .cfgGetRandomize => Sys2Proof.Machine.execCfgGetRandomize s
  | .cfgGetPackMode => Sys2Proof.Machine.execCfgGetPackMode s
  | .syncShift => Sys2Proof.Machine.execSyncShift s
  | .syncFind => Sys2Proof.Machine.execSyncFind s
  | .randApply => Sys2Proof.Machine.execRandApply s
  | .ckRecompute => Sys2Proof.Machine.execCkRecompute s
  | .ckValidate => Sys2Proof.Machine.execCkValidate s
  | .caduNew => Sys2Proof.Machine.execCaduNew s
  | .caduGetVersion => Sys2Proof.Machine.execCaduGetVersion s
  | .caduGetScid => Sys2Proof.Machine.execCaduGetScid s
  | .caduGetVcid => Sys2Proof.Machine.execCaduGetVcid s
  | .caduGetCounter => Sys2Proof.Machine.execCaduGetCounter s
  | .caduGetSpareA => Sys2Proof.Machine.execCaduGetSpareA s
  | .caduGetReplay => Sys2Proof.Machine.execCaduGetReplay s
  | .caduGetFhp => Sys2Proof.Machine.execCaduGetFhp s
  | .caduGetSpareB => Sys2Proof.Machine.execCaduGetSpareB s
  | .caduSetVersion v => Sys2Proof.Machine.execCaduSetVersion v s
  | .caduSetScid v => Sys2Proof.Machine.execCaduSetScid v s
  | .caduSetVcid v => Sys2Proof.Machine.execCaduSetVcid v s
  | .caduSetCounter v => Sys2Proof.Machine.execCaduSetCounter v s
  | .caduSetReplay v => Sys2Proof.Machine.execCaduSetReplay v s
  | .caduSetFhp v => Sys2Proof.Machine.execCaduSetFhp v s
  | .caduGetdata => Sys2Proof.Machine.execCaduGetdata s
  | .caduSetdata dat => Sys2Proof.Machine.execCaduSetdata dat s
  | .caduRead => Sys2Proof.Machine.execCaduRead s
  | .caduWrite => Sys2Proof.Machine.execCaduWrite s
  | .pktNew => Sys2Proof.Machine.execPktNew s
  | .pktGetPversion => Sys2Proof.Machine.execPktGetPversion s
  | .pktGetType => Sys2Proof.Machine.execPktGetType s
  | .pktGetShf => Sys2Proof.Machine.execPktGetShf s
  | .pktGetApid => Sys2Proof.Machine.execPktGetApid s
  | .pktGetSeqflags => Sys2Proof.Machine.execPktGetSeqflags s
  | .pktGetSeqcount => Sys2Proof.Machine.execPktGetSeqcount s
  | .pktGetDatalen => Sys2Proof.Machine.execPktGetDatalen s
  | .pktSetPversion v => Sys2Proof.Machine.execPktSetPversion v s
  | .pktSetType v => Sys2Proof.Machine.execPktSetType v s
  | .pktSetShf v => Sys2Proof.Machine.execPktSetShf v s
  | .pktSetApid v => Sys2Proof.Machine.execPktSetApid v s
  | .pktSetSeqflags v => Sys2Proof.Machine.execPktSetSeqflags v s
  | .pktSetSeqcount v => Sys2Proof.Machine.execPktSetSeqcount v s
  | .pktGetdata => Sys2Proof.Machine.execPktGetdata s
  | .pktSetdata dat => Sys2Proof.Machine.execPktSetdata dat s
  | .pktSetdataLen n dat => Sys2Proof.Machine.execPktSetdataLen n dat s
  | .pktRead => Sys2Proof.Machine.execPktRead s
  | .pktWrite => Sys2Proof.Machine.execPktWrite s
  | .pktFill n => Sys2Proof.Machine.execPktFill n s
  | .pzInit => Sys2Proof.Machine.execPzInit s
  | .pzPush => Sys2Proof.Machine.execPzPush s
  | .pzFlush => Sys2Proof.Machine.execPzFlush s
  | .dzInit => Sys2Proof.Machine.execDzInit s
  | .dzPush => Sys2Proof.Machine.execDzPush s
  | .dzEnd => Sys2Proof.Machine.execDzEnd s
  | .formatCmd op sel => Sys2Proof.Machine.execFormatCmd op sel s
  | .formatAsm => Sys2Proof.Machine.execFormatAsm s
  | .formatVcpduHeader h => Sys2Proof.Machine.execFormatVcpduHeader h s
  | .formatPacketHeader h => Sys2Proof.Machine.execFormatPacketHeader h s
  | .formatFillPacketHeader dataLen => Sys2Proof.Machine.execFormatFillPacketHeader dataLen s

end Sys2Proof.Machine
end

