-- ==== Sys2Proof/Machine/Control.lean ====
section
/-! DEFINITION. What a step does around an operation: the reset input (R48, R300), the idle block (R301), and the next
command of the host (R22). -/

namespace Sys2Proof.Machine

/-- The reset input taken: the state of R48, and the input released (log entry 10). -/
def takeReset (s : State) : State := { resetState s with resetIn := false }

/-- The next command of the host: decoded first (R281), then executed to completion with the later commands still to
come (R75). -/
def runCommand (c : Cmd) (later : List Cmd) (s : State) : Result :=
  match decode c with
  | .ok i => exec i { s with cmds := later }
  | .error .notACommandWord => .refused .notACommandWord

/-- One step: the reset input first; then the next command; with none, the block is idle and waits (R301, log entry 9). -/
def runStep (s : State) : Result :=
  if s.resetIn then .next (takeReset s)
  else
    match s.cmds with
    | [] => .next s
    | c :: later => runCommand c later s

/-- The host presents `c` as the next command. -/
def present (c : Cmd) (s : State) : State := { s with resetIn := false, cmds := c :: s.cmds }

end Sys2Proof.Machine
end

