-- ==== Sys2Proof/Machine/Step.lean ====
section
/-! DEFINITION. The step of the machine, and how the host's next command is put where the step takes it. -/

namespace Sys2Proof.Machine

/-- One step of the block (R22, R75, R301). -/
def step (s : State) : Host.Outcome State Fault Refusal := runStep s

/-- `s` with the item whose `nbits` bits are `w` (numbered as spec/opcode_table.json numbers them; `ARG` 0, `DAT` empty)
as the next command, and the reset input released so that the next step takes it. Log entry 4. -/
def State.withFetchWord (s : State) (nbits w : Nat) : State := present (tableCmd nbits w) s

end Sys2Proof.Machine
end

