-- ==== Sys2Proof/Safety.lean ====
section
/-! DEFINITION. The terms the statements use: the state invariants of R49 and R280, the table of R48, the registers and
header fields as the tables of R40, R93 and R100 list them, the marker in a stream, the checksum byte by byte, and what a
pass of many operations does (R229, R255). -/

namespace Sys2Proof.Machine

/-! ### Invariants -/

/-- R49 (a), (b), (c), (h) and the spare fields of R96, for the packetizer between operations. The pointer clause is the
inductive form of R49 (c): the sentinel, or at most the cursor. -/
def PacketizerInv (z : Packetizer) : Prop :=
  z.nbo ≤ 883 ∧ z.fb.header.counter = z.ctr ∧
  (z.fb.header.fhp = 2047#11 ∨ z.fb.header.fhp.toNat ≤ z.nbo) ∧
  (z.mode = 1#1 → z.nbo = 0) ∧ z.fb.header.spareA = 0 ∧ z.fb.header.spareB = 0 ∧ z.fb.dirty = true

/-- R49 (d), (e) and R36, for the working packet between operations. -/
def PacketInv (p : Packet) : Prop :=
  (p.hasData = true ↔ 1 ≤ p.data.length) ∧ p.data.length ≤ 65536 ∧
  (p.hasData = true → p.lenStale = false → beNat (bufRead p.hdr 4 2) = p.data.length - 1)

/-- R49 (f), its second half, (g) and R32, for the depacketizer between operations. -/
def DepacketizerInv (width : Option Nat) (d : Depacketizer) : Prop :=
  (d.seen = true → d.reported = true) ∧ d.dbc ≤ 884 ∧ (d.seen = false → d.dbc = 0) ∧ countFits width d.dfc = true

/-- R49 (f), its first half: a report was written only where alignment was seen or the pass has ended. `ended` is history and
no state of the block (R20): `DZ.END` was executed since the last `DZ.INIT` or reset (log entry 18). -/
def ReportInv (ended : Bool) (d : Depacketizer) : Prop := d.reported = true → d.seen = true ∨ ended = true

/-- Whether the pass has ended after an operation (R245, R251, R48; log entry 18). -/
def endedAfter (i : Instr) (ended : Bool) : Bool :=
  if i = .dzEnd then true else if i = .dzInit ∨ i = .reset then false else ended

/-- Whether the pass has ended after a step from `s`. -/
def endedAfterStep (s : State) (ended : Bool) : Bool :=
  if s.resetIn then false
  else
    match s.cmds with
    | [] => ended
    | c :: _ =>
      match decode c with
      | .ok i => endedAfter i ended
      | .error _ => ended

/-- The state invariants of R49, with R280 for the result registers. -/
def State.Inv (s : State) : Prop :=
  PacketizerInv s.pz ∧ PacketInv s.pb ∧ DepacketizerInv s.par.dfcWidth s.dz ∧
  (s.status ≠ .ok → s.result = 0 ∧ s.rdat = [])

/-! ### Ends of operations -/

/-- The state of an operation that ended `OK` with these results and changed nothing else of `s` (R27). -/
def okEnd (s : State) (r : Nat) (d : List Byte) : State := { s with status := .ok, result := r, rdat := d }

/-- The state of an operation that ended with a status other than `OK` and changed nothing else of `s` (R280, R282). -/
def statusEnd (s : State) (st : Status) : State := { s with status := st, result := 0, rdat := [] }

/-- The table of R48, row by row. -/
def ResetTable (s : State) : Prop :=
  s.syncSr.toNat = 0 ∧ s.status.code = 0 ∧ s.result = 0 ∧ s.rdat = [] ∧
  s.cfg = { version := 0, scid := 0, vcid := 0, startCtr := 0, replay := 0, randomize := 0, packMode := 0 } ∧
  s.fb.cvcdu.bytes = List.replicate 1020 0 ∧ s.fb.dirty = true ∧
  s.pb.hdr.bytes = List.replicate 6 0 ∧ s.pb.data = [] ∧ s.pb.hasData = false ∧ s.pb.lenStale = true ∧
  s.pz.nbo = 0 ∧ s.pz.ctr = 0 ∧ s.pz.mode = 0 ∧ s.pz.rand = 0 ∧
  s.pz.fb.cvcdu.bytes = List.replicate 1020 0 ∧ s.pz.fb.dirty = true ∧
  s.dz.seen = false ∧ s.dz.reported = false ∧ s.dz.dfc = 0 ∧ s.dz.dbc = 0 ∧
  s.frmIn.pos = 0 ∧ s.pktIn.pos = 0 ∧ s.frmOut = [] ∧ s.pktOut = [] ∧ s.diag = []

/-! ### Command words -/

/-- The 16-bit command word `w` selects the operation `i` of the operands presented with it (R110, R111). -/
def Selects (w : Nat) (i : Nat → List Byte → Instr) : Prop := ∀ arg dat, decode (opCmd w arg dat) = .ok (i arg dat)

/-- The command word with this code and selector is no operation, and raises `ILLEGAL_OP` (R115). -/
def IllegalWord (op sel : Byte) : Prop :=
  (∀ arg dat, decode ⟨[op, sel], arg, dat⟩ = .ok (.formatCmd op sel)) ∧
  ∀ s, exec (.formatCmd op sel) s = .next (statusEnd s .illegalOp)

/-! ### The configuration registers of R40 -/

/-- The seven configuration registers (R40). -/
inductive CfgReg where
  | version | scid | vcid | startCtr | replay | randomize | packMode
deriving DecidableEq, Repr

/-- The index column of R40, which is the selector of the register (R114). -/
def CfgReg.sel : CfgReg → Nat
  | .version => 0 | .scid => 1 | .vcid => 2 | .startCtr => 3 | .replay => 4 | .randomize => 5 | .packMode => 6

/-- The width column of R40. -/
def CfgReg.width : CfgReg → Nat
  | .version => 2 | .scid => 8 | .vcid => 6 | .startCtr => 24 | .replay => 1 | .randomize => 1 | .packMode => 1

/-- The value a register holds. -/
def CfgReg.value (c : Cfg) : CfgReg → Nat
  | .version => c.version.toNat | .scid => c.scid.toNat | .vcid => c.vcid.toNat | .startCtr => c.startCtr.toNat
  | .replay => c.replay.toNat | .randomize => c.randomize.toNat | .packMode => c.packMode.toNat

/-- `CFG.SET r, #v`. -/
def CfgReg.setInstr (v : Nat) : CfgReg → Instr
  | .version => .cfgSetVersion v | .scid => .cfgSetScid v | .vcid => .cfgSetVcid v | .startCtr => .cfgSetStartCtr v
  | .replay => .cfgSetReplay v | .randomize => .cfgSetRandomize v | .packMode => .cfgSetPackMode v

/-- `CFG.GET r`. -/
def CfgReg.getInstr : CfgReg → Instr
  | .version => .cfgGetVersion | .scid => .cfgGetScid | .vcid => .cfgGetVcid | .startCtr => .cfgGetStartCtr
  | .replay => .cfgGetReplay | .randomize => .cfgGetRandomize | .packMode => .cfgGetPackMode

/-! ### The header fields of R93 and R100 -/

/-- The eight fields of the VC_PDU header (R93). -/
inductive FrameField where
  | version | scid | vcid | counter | spareA | replay | fhp | spareB
deriving DecidableEq, Repr

/-- The selector of a field (R112). -/
def FrameField.sel : FrameField → Nat
  | .version => 0 | .scid => 1 | .vcid => 2 | .counter => 3 | .spareA => 4 | .replay => 5 | .fhp => 6 | .spareB => 7

/-- The lowest bit of a field in `H` (R93). -/
def FrameField.lo : FrameField → Nat
  | .version => 62 | .scid => 54 | .vcid => 48 | .counter => 24 | .spareA => 17 | .replay => 16 | .fhp => 5 | .spareB => 0

/-- The width of a field (R93). -/
def FrameField.width : FrameField → Nat
  | .version => 2 | .scid => 8 | .vcid => 6 | .counter => 24 | .spareA => 7 | .replay => 1 | .fhp => 11 | .spareB => 5

/-- The value of a field in a CVCDU: `H[hi:lo]` with `H = be_8(cvcdu[0..8))` (R15, R93). -/
def FrameField.value (b : Buf Config.cvcduLen) (f : FrameField) : Nat := beNat (b.bytes.take 8) / 2 ^ f.lo % 2 ^ f.width

/-- `CADU.GET f`. -/
def FrameField.getInstr : FrameField → Instr
  | .version => .caduGetVersion | .scid => .caduGetScid | .vcid => .caduGetVcid | .counter => .caduGetCounter
  | .spareA => .caduGetSpareA | .replay => .caduGetReplay | .fhp => .caduGetFhp | .spareB => .caduGetSpareB

/-- `CADU.SET f, #v`; the two spare fields have none (R112). -/
def FrameField.setInstr (v : Nat) : FrameField → Option Instr
  | .version => some (.caduSetVersion v) | .scid => some (.caduSetScid v) | .vcid => some (.caduSetVcid v)
  | .counter => some (.caduSetCounter v) | .replay => some (.caduSetReplay v) | .fhp => some (.caduSetFhp v)
  | .spareA => none | .spareB => none

/-- The seven fields of the packet header (R100). -/
inductive PacketField where
  | pversion | ptype | shf | apid | seqflags | seqcount | datalen
deriving DecidableEq, Repr

/-- The selector of a field (R113). -/
def PacketField.sel : PacketField → Nat
  | .pversion => 0 | .ptype => 1 | .shf => 2 | .apid => 3 | .seqflags => 4 | .seqcount => 5 | .datalen => 6

/-- The lowest bit of a field in `P` (R100). -/
def PacketField.lo : PacketField → Nat
  | .pversion => 45 | .ptype => 44 | .shf => 43 | .apid => 32 | .seqflags => 30 | .seqcount => 16 | .datalen => 0

/-- The width of a field (R100). -/
def PacketField.width : PacketField → Nat
  | .pversion => 3 | .ptype => 1 | .shf => 1 | .apid => 11 | .seqflags => 2 | .seqcount => 14 | .datalen => 16

/-- The value of a field in a packet header: `P[hi:lo]` with `P = be_6(hdr[0..6))` (R15, R100). -/
def PacketField.value (b : Buf Config.pktHdrLen) (f : PacketField) : Nat := beNat b.bytes / 2 ^ f.lo % 2 ^ f.width

/-- `PKT.GET f`. -/
def PacketField.getInstr : PacketField → Instr
  | .pversion => .pktGetPversion | .ptype => .pktGetType | .shf => .pktGetShf | .apid => .pktGetApid
  | .seqflags => .pktGetSeqflags | .seqcount => .pktGetSeqcount | .datalen => .pktGetDatalen

/-- `PKT.SET f, #v`; the length field has none (R113). -/
def PacketField.setInstr (v : Nat) : PacketField → Option Instr
  | .pversion => some (.pktSetPversion v) | .ptype => some (.pktSetType v) | .shf => some (.pktSetShf v)
  | .apid => some (.pktSetApid v) | .seqflags => some (.pktSetSeqflags v) | .seqcount => some (.pktSetSeqcount v)
  | .datalen => none

/-! ### Statuses -/

/-- `CFG.SET` (R260), the only operation that writes a configuration register (R40). -/
def writesCfg : Instr → Bool
  | .cfgSetVersion _ => true
  | .cfgSetScid _ => true
  | .cfgSetVcid _ => true
  | .cfgSetStartCtr _ => true
  | .cfgSetReplay _ => true
  | .cfgSetRandomize _ => true
  | .cfgSetPackMode _ => true
  | _ => false

/-- `CADU.SET` and `CADU.SETDATA` (R171, R173). -/
def setsFrame : Instr → Bool
  | .caduSetVersion _ => true
  | .caduSetScid _ => true
  | .caduSetVcid _ => true
  | .caduSetCounter _ => true
  | .caduSetReplay _ => true
  | .caduSetFhp _ => true
  | .caduSetdata _ => true
  | _ => false

/-- `PKT.SET` (R194). -/
def setsPacketField : Instr → Bool
  | .pktSetPversion _ => true
  | .pktSetType _ => true
  | .pktSetShf _ => true
  | .pktSetApid _ => true
  | .pktSetSeqflags _ => true
  | .pktSetSeqcount _ => true
  | _ => false

/-- The operations that raise `INVALID_PACKET` (R271, R275). -/
def needsPacket : Instr → Bool
  | .pktSetdata _ => true
  | .pktSetdataLen _ _ => true
  | .pktFill _ => true
  | .pktGetdata => true
  | .pktWrite => true
  | .pzPush => true
  | _ => false

/-- The families of operations, one file of spec/ each. -/
inductive Family where
  | cfg | sync | rand | ck | cadu | pkt | pz | dz
deriving DecidableEq, Repr

/-- The family of an operation; the rows of the opcode table that are no operation (R115) have none. -/
def family : Instr → Option Family
  | .reset => some .cfg
  | .cfgSetVersion _ => some .cfg
  | .cfgSetScid _ => some .cfg
  | .cfgSetVcid _ => some .cfg
  | .cfgSetStartCtr _ => some .cfg
  | .cfgSetReplay _ => some .cfg
  | .cfgSetRandomize _ => some .cfg
  | .cfgSetPackMode _ => some .cfg
  | .cfgGetVersion => some .cfg
  | .cfgGetScid => some .cfg
  | .cfgGetVcid => some .cfg
  | .cfgGetStartCtr => some .cfg
  | .cfgGetReplay => some .cfg
  | .cfgGetRandomize => some .cfg
  | .cfgGetPackMode => some .cfg
  | .syncShift => some .sync
  | .syncFind => some .sync
  | .randApply => some .rand
  | .ckRecompute => some .ck
  | .ckValidate => some .ck
  | .caduNew => some .cadu
  | .caduGetVersion => some .cadu
  | .caduGetScid => some .cadu
  | .caduGetVcid => some .cadu
  | .caduGetCounter => some .cadu
  | .caduGetSpareA => some .cadu
  | .caduGetReplay => some .cadu
  | .caduGetFhp => some .cadu
  | .caduGetSpareB => some .cadu
  | .caduSetVersion _ => some .cadu
  | .caduSetScid _ => some .cadu
  | .caduSetVcid _ => some .cadu
  | .caduSetCounter _ => some .cadu
  | .caduSetReplay _ => some .cadu
  | .caduSetFhp _ => some .cadu
  | .caduGetdata => some .cadu
  | .caduSetdata _ => some .cadu
  | .caduRead => some .cadu
  | .caduWrite => some .cadu
  | .pktNew => some .pkt
  | .pktGetPversion => some .pkt
  | .pktGetType => some .pkt
  | .pktGetShf => some .pkt
  | .pktGetApid => some .pkt
  | .pktGetSeqflags => some .pkt
  | .pktGetSeqcount => some .pkt
  | .pktGetDatalen => some .pkt
  | .pktSetPversion _ => some .pkt
  | .pktSetType _ => some .pkt
  | .pktSetShf _ => some .pkt
  | .pktSetApid _ => some .pkt
  | .pktSetSeqflags _ => some .pkt
  | .pktSetSeqcount _ => some .pkt
  | .pktGetdata => some .pkt
  | .pktSetdata _ => some .pkt
  | .pktSetdataLen _ _ => some .pkt
  | .pktRead => some .pkt
  | .pktWrite => some .pkt
  | .pktFill _ => some .pkt
  | .pzInit => some .pz
  | .pzPush => some .pz
  | .pzFlush => some .pz
  | .dzInit => some .dz
  | .dzPush => some .dz
  | .dzEnd => some .dz
  | .formatCmd _ _ => none
  | .formatAsm => none
  | .formatVcpduHeader _ => none
  | .formatPacketHeader _ => none
  | .formatFillPacketHeader _ => none

/-- The operation `i` can end with the status `st` (R271, the column "raised by"). -/
def mayRaise (i : Instr) (st : Status) : Bool :=
  match st with
  | .ok => family i != none
  | .endOfStream => i == .syncShift || i == .syncFind || i == .caduRead || i == .pktRead
  | .truncated => i == .caduRead || i == .pktRead
  | .checksumInvalid => i == .ckValidate
  | .invalidPacket => needsPacket i
  | .fieldRange => writesCfg i || setsFrame i || setsPacketField i
  | .packetSkipped => i == .pzPush
  | .invalidPointer => i == .dzPush
  | .illegalOp => family i == none

/-- The Clean/Dirty flag of `FB` after an operation that ends with the status `st`, by the transitions of R167. -/
def dirtyAfter (i : Instr) (before : Bool) (st : Status) : Bool :=
  if setsFrame i then before || st == .ok
  else
    match i with
    | .reset => true
    | .caduNew => true
    | .ckRecompute => false
    | .caduWrite => false
    | .caduRead => before && st != .ok
    | _ => before

/-- The operations that write `FB` (R33, R34, R143). -/
def writesFrame (i : Instr) : Bool :=
  setsFrame i || i == .randApply || i == .ckRecompute || i == .caduNew || i == .caduRead || i == .caduWrite

/-- The operations that write `PB` (R33, R194, R204). -/
def writesPacket (i : Instr) : Bool :=
  setsPacketField i || (needsPacket i && i != .pktGetdata) || i == .pktNew || i == .pktRead

/-! ### The marker in a stream -/

/-- The register after a list of bytes was shifted in, one at a time: `((SYNC_SR << 8) | b) mod 2^32` for each (R131). -/
def shiftAll (sr : BitVec 32) (l : List Byte) : BitVec 32 := l.foldl (fun r b => (r <<< 8) ||| b.setWidth 32) sr

/-- The `k`-th byte shifted in is the first that makes the register equal to the marker (R132). -/
def FirstMatch (sr : BitVec 32) (l : List Byte) (k : Nat) : Prop :=
  1 ≤ k ∧ k ≤ l.length ∧ shiftAll sr (l.take k) = 0x1ACFFC1D#32 ∧
  ∀ j, 1 ≤ j → j < k → shiftAll sr (l.take j) ≠ 0x1ACFFC1D#32

/-- No byte of the stream makes the register equal to the marker (R132). -/
def NoMatch (sr : BitVec 32) (l : List Byte) : Prop :=
  ∀ j, 1 ≤ j → j ≤ l.length → shiftAll sr (l.take j) ≠ 0x1ACFFC1D#32

/-- The marker stands at index `k` of `l` (R91). -/
def markerAt (l : List Byte) (k : Nat) : Prop := (l.drop k).take 4 = [0x1A, 0xCF, 0xFC, 0x1D]

/-- The input stream after `n` more bytes were consumed (R23, R66). -/
def eaten (st : InStream) (n : Nat) : InStream := { st with pending := st.pending.drop n, pos := st.pos + n }

/-- Byte `i` of a CVCDU in the form the variant bit selects on the line (R105, R141). -/
def lineByte (variant : BitVec 1) (p : Params) (i : Nat) (x : Byte) : Byte :=
  if variant = 1#1 then x ^^^ p.pnTable.bytes.getD (i % 255) 0 else x

/-! ### The checksum, byte by byte -/

/-- `Deint(V)_k` for the VC_PDU of a CVCDU: the bytes at positions `4·i + k` (R151). -/
def subBlock (b : Buf Config.cvcduLen) (k : Nat) : List Byte := (List.range 223).map fun i => bufByte b (4 * i + k)

/-- `Cksum(V)[j]` for the VC_PDU of a CVCDU: byte `j / 4` of the parity of sub-block `j mod 4` (R152, R153). -/
def parityByte (b : Buf Config.cvcduLen) (j : Nat) : Byte := Config.rsParity (subBlock b (j % 4)) (j / 4)

/-- The buffer with bit `k` of byte `i` flipped. -/
def flipBit {n : Nat} (b : Buf n) (i k : Nat) : Buf n := bufWrite b i [bufByte b i ^^^ (1#8 <<< k)]

/-- Two byte sequences of one length that differ in exactly one bit (R154). -/
def OneBitApart (x y : List Byte) : Prop :=
  x.length = y.length ∧ ∃ i k, i < x.length ∧ k < 8 ∧
    ∀ j, y.getD j 0 = if j = i then x.getD j 0 ^^^ (1#8 <<< k) else x.getD j 0

/-- The external encoder maps some two 223-byte blocks that differ in exactly one bit to the same parity: the failure of
`RS_DETECTS_SINGLE_BIT` of R154, which the model does not assume. -/
def RsMissesSingleBit : Prop := ∃ x y : List Byte, x.length = 223 ∧ OneBitApart x y ∧ rsEncode x = rsEncode y

/-! ### Frames and packing -/

/-- The CVCDU built from a header and a data zone, with the checksum of its VC_PDU (R92, R153). -/
def cvcduBytes (h : VcHeader) (zone : List Byte) : List Byte := h.toBytes ++ zone ++ cksum (h.toBytes ++ zone)

/-- The 1024 bytes of that frame on the wire, in the given variant (R90, R105). -/
def wireBytes (variant : BitVec 1) (p : Params) (h : VcHeader) (zone : List Byte) : List Byte :=
  [0x1A, 0xCF, 0xFC, 0x1D] ++ lineForm variant p (cvcduBytes h zone)

/-- The CVCDU of `PZ_FB` after an emission: the next frame's header, and the data zone and checksum of the frame just
emitted, whose header was `h` (R219). -/
def reopened (h : VcHeader) (zone : List Byte) (next : VcHeader) : List Byte :=
  next.toBytes ++ zone ++ cksum (h.toBytes ++ zone)

/-- The header of frame `j` of a packing operation that began with `h` open: the counter advances by one a frame (R219). -/
def frameHeader (h : VcHeader) (fhp : BitVec 11) (j : Nat) : VcHeader :=
  { h with counter := h.counter + BitVec.ofNat 24 j, fhp := fhp }

/-- The pointer of frame `j` when `q` is the open data zone followed by the packet: the open frame keeps its own, and a
later one has the remainder `len(q) − 884·j` when that is at most a data zone, else the sentinel (R220). -/
def framePointer (h : VcHeader) (q : List Byte) (j : Nat) : BitVec 11 :=
  if j = 0 then h.fhp else if 884 < q.length - 884 * j then 2047#11 else BitVec.ofNat 11 (q.length - 884 * j)

/-- `Q[884·j .. 884·(j+1))` (R229). -/
def zoneSlice (q : List Byte) (j : Nat) : List Byte := (q.drop (884 * j)).take 884

/-- The part of the open data zone already filled. -/
def openZone (z : Packetizer) : List Byte := z.fb.dataZone.take z.nbo

/-- The frames a packing operation emits when `q` is the open data zone followed by the bytes packed (R218 to R220). -/
def packedFrames (v : BitVec 1) (p : Params) (h : VcHeader) (q : List Byte) : List Byte :=
  (List.range (q.length / 884)).flatMap fun j => wireBytes v p (frameHeader h (framePointer h q j) j) (zoneSlice q j)

/-- The serialized packet: the header with its length recomputed where it is stale, then the data field (R199, R200). -/
def packetBytes (p : Packet) : List Byte :=
  (if p.lenStale then p.hdr.bytes.take 4 ++ beBytes 2 (p.data.length - 1) else p.hdr.bytes) ++ p.data

/-- `FillBytes(n)` (R202), written out. -/
def fillPacket (n : Nat) : List Byte := [0x07, 0xFF, 0xC0, 0x00] ++ beBytes 2 (n - 7) ++ List.replicate (n - 6) 0

/-! ### The discard report -/

/-- The record is a discard report (R284). -/
def isDiscardReport : DiagRecord → Bool
  | .discardReport _ _ => true
  | .packetSkipped _ => false
  | .decodeFailure _ _ => false

/-- How many discard reports stand among these records. -/
def discardReports (d : List DiagRecord) : Nat := d.countP isDiscardReport

/-! ### A pass of many operations -/

/-- The state after an operation, where it ends with `OK`. -/
def okNext (r : Result) : Option State :=
  match r with
  | .next t => if t.status = .ok then some t else none
  | .fault _ => none
  | .refused _ => none

/-- `PZ.PUSH` of these packets, one after the other, each ending with `OK`; `none` when one does not. -/
def pushPackets : List Packet → State → Option State
  | [], s => some s
  | p :: ps, s => (okNext (exec .pzPush { s with pb := p })).bind (pushPackets ps)

/-- `DZ.PUSH` of these frames, one after the other, each ending with `OK`; `none` when one does not. -/
def pushFrames : List Frame → State → Option State
  | [], s => some s
  | f :: fs, s => (okNext (exec .dzPush { s with fb := f })).bind (pushFrames fs)

/-- `n` times `CADU.READ` and then `DZ.PUSH`, each ending with `OK`; `none` when one does not. -/
def receiveFrames : Nat → State → Option State
  | 0, s => some s
  | n + 1, s => ((okNext (exec .caduRead s)).bind fun t => okNext (exec .dzPush t)).bind (receiveFrames n)

/-- `PKT.READ` once for each of these packets: each ends with `OK` and `PB` then serializes to it. -/
def readsPackets : List (List Byte) → State → Option State
  | [], s => some s
  | p :: ps, s => (okNext (exec .pktRead s)).bind fun t =>
      if t.pb.hdr.bytes ++ t.pb.data = p ∧ t.pb.lenStale = false then readsPackets ps t else none

/-- The fill packet that closes a pass of `n` packet bytes, none when they end on a frame boundary (R223, R229). -/
def closingFill (n : Nat) : List (List Byte) :=
  if n % 884 = 0 then []
  else if 7 ≤ 884 - n % 884 then [fillPacket (884 - n % 884)]
  else [fillPacket (884 - n % 884 + 884)]

/-- The start offsets of packets that stand one behind the other from offset `o` on. -/
def packetStarts : Nat → List (List Byte) → List Nat
  | _, [] => []
  | o, p :: ps => o :: packetStarts (o + p.length) ps

/-- The pointer of frame `j` of a pass over the packets `ps`, by R229: with `s` the least start offset that is at least
`884·j`, or the length of all of them, and `d = s - 884·j`, the pointer is `d` when `d ≤ 884` and the sentinel else. -/
def passPointer (ps : List (List Byte)) (j : Nat) : BitVec 11 :=
  let s := ((packetStarts 0 ps).find? fun o => decide (884 * j ≤ o)).getD ps.flatten.length
  if s - 884 * j ≤ 884 then BitVec.ofNat 11 (s - 884 * j) else 2047#11

/-- The header of frame `j` of a pass with the configuration `c` (R229): the last frame of an oversized flush has the
sentinel. `ps` are the pushed packets, and the closing fill packet follows them. -/
def passHeader (c : Cfg) (ps : List (List Byte)) (j : Nat) : VcHeader :=
  let n := ps.flatten.length
  let oversized : Bool := decide (n % 884 ≠ 0 ∧ 884 - n % 884 < 7)
  { version := c.version, scid := c.scid, vcid := c.vcid, counter := c.startCtr + BitVec.ofNat 24 j,
    spareA := 0, replay := c.replay,
    fhp := if oversized ∧ j = n / 884 + 1 then 2047#11 else passPointer (ps ++ closingFill n) j, spareB := 0 }

/-- `Q` of R229: the packets, then the closing fill packet. -/
def passBytes (ps : List (List Byte)) : List Byte := (ps ++ closingFill ps.flatten.length).flatten

/-- What a stream-mode pass puts on the wire (R229). -/
def passWire (c : Cfg) (p : Params) (ps : List (List Byte)) : List Byte :=
  (List.range ((passBytes ps).length / 884)).flatMap fun j =>
    wireBytes c.randomize p (passHeader c ps j) (zoneSlice (passBytes ps) j)

end Sys2Proof.Machine
end

