-- ==== Sys2Proof/Certificates/Slice0/Obligations.lean ====
section
/-! DEFINITION. The statements about this model. Each docstring names the rule of spec/ it formalises. -/

open Sys2Proof Sys2Proof.Machine

/-! ### Command words -/

/-- Encoder and decoder agree on every well-formed instruction, with every operand (R110 to R114; R91, R93, R100, R103 for
the data formats). -/
def Obligations.EncodedInstructionsDecodeBack : Prop :=
  ∀ i : Instr, i.wellFormed = true → decode (encode i) = .ok i

/-- Every 16-bit word is read as exactly one instruction, whose encoding has that word; it is the illegal word exactly when
R115 says so. -/
def Obligations.EveryCommandWordHasOneMeaning : Prop :=
  ∀ (op sel : Byte) (arg : Nat) (dat : List Byte), ∃ i, decode ⟨[op, sel], arg, dat⟩ = .ok i ∧
    i.wellFormed = true ∧ (encode i).word = [op, sel] ∧ (i = .formatCmd op sel ↔ legalWord op sel = false)

/-- R115: an illegal command word changes no state but `STATUS`, `RESULT` and `RDAT`; the command itself is used up. -/
def Obligations.IllegalCommandWordsOnlyRaiseIllegalOp : Prop :=
  ∀ (op sel : Byte) (arg : Nat) (dat : List Byte) (later : List Cmd) (s : State), legalWord op sel = false →
    s.resetIn = false → s.cmds = ⟨[op, sel], arg, dat⟩ :: later →
    step s = .next (statusEnd { s with cmds := later } .illegalOp)

/-- The five rows of the table that are no operation raise `ILLEGAL_OP` and change nothing else. The model's choice for the
four data formats (log entry 7), and for running illegal words at all (log entry 6). -/
def Obligations.FormatRowsRaiseIllegalOp : Prop :=
  ∀ (op sel : Byte) (h : VcHeader) (k : PktHeader) (n : BitVec 16) (s : State),
    exec (.formatCmd op sel) s = .next (statusEnd s .illegalOp) ∧
    exec .formatAsm s = .next (statusEnd s .illegalOp) ∧
    exec (.formatVcpduHeader h) s = .next (statusEnd s .illegalOp) ∧
    exec (.formatPacketHeader k) s = .next (statusEnd s .illegalOp) ∧
    exec (.formatFillPacketHeader n) s = .next (statusEnd s .illegalOp)

/-- Words written out from R111 to R114 and the examples of R116. -/
def Obligations.WrittenOutWordsDecode : Prop :=
  decode ⟨[0x02, 0x01], 154, []⟩ = .ok (.cfgSetScid 154) ∧
  decode ⟨[0x32, 0x06], 2047, []⟩ = .ok (.caduSetFhp 2047) ∧
  decode ⟨[0x44, 0x00], 0, [1, 2, 3]⟩ = .ok (.pktSetdata [1, 2, 3]) ∧
  decode ⟨[0x52, 0x00], 0, []⟩ = .ok .pzFlush ∧
  decode ⟨[0x11, 0x00], 0, []⟩ = .ok .syncFind ∧
  decode ⟨[0x18, 0x00], 0, []⟩ = .ok .randApply ∧
  decode ⟨[0x21, 0x00], 0, []⟩ = .ok .ckValidate ∧
  decode ⟨[0x61, 0x00], 0, []⟩ = .ok .dzPush ∧
  decode ⟨[0x00, 0x00], 0, []⟩ = .ok (.formatCmd 0x00 0x00) ∧
  decode ⟨[0x32, 0x04], 0, []⟩ = .ok (.formatCmd 0x32 0x04) ∧
  decode ⟨[0x42, 0x06], 0, []⟩ = .ok (.formatCmd 0x42 0x06)

/-- A step runs the decoded command, with the commands behind it still to come (R22, R75, R281). -/
def Obligations.StepRunsTheDecodedCommand : Prop :=
  ∀ (s : State) (c : Cmd) (later : List Cmd) (i : Instr), s.resetIn = false → s.cmds = c :: later →
    decode c = .ok i → step s = exec i { s with cmds := later }

/-- Without a command the block waits (R301; that the waiting is a step that changes nothing is log entry 9), and the reset
input takes effect between operations: it releases itself, keeps the host's commands and the parameters, and attaches the
next streams (log entries 10 and 12). -/
def Obligations.StepWithoutACommand : Prop :=
  (∀ s : State, s.resetIn = false → s.cmds = [] → step s = .next s) ∧
  ∀ s : State, s.resetIn = true →
    step s = .next { State.reset with
      frmIn := { pending := s.frmIn.later.headD [], pos := 0, later := s.frmIn.later.tail }
      pktIn := { pending := s.pktIn.later.headD [], pos := 0, later := s.pktIn.later.tail }
      par := s.par, resetIn := false, cmds := s.cmds }

/-! ### Reset and the state invariants -/

/-- R48: the state after reset, and what the reset input and `RESET` leave, is the table of R48, and there the packetizer and
the depacketizer are as `PZ.INIT` and `DZ.INIT` leave them: these change nothing any more. -/
def Obligations.ResetLeavesTheTableOfR48 : Prop :=
  Selects 0x0100 (fun _ _ => .reset) ∧
  (ResetTable State.reset ∧ exec .pzInit State.reset = .next State.reset ∧ exec .dzInit State.reset = .next State.reset) ∧
  (∀ s : State, ∃ t, exec .reset s = .next t ∧ ResetTable t ∧ exec .pzInit t = .next t ∧ exec .dzInit t = .next t) ∧
  ∀ s : State, s.resetIn = true →
    ∃ t, step s = .next t ∧ ResetTable t ∧ exec .pzInit t = .next t ∧ exec .dzInit t = .next t

/-- What `RESET` does not put back, by the model's choice: the parameters, the reset input and the host's commands stay (log
entry 10), and the environment's next input streams are attached (log entry 12). -/
def Obligations.WhatResetDoesNotPutBack : Prop :=
  ∀ s : State, exec .reset s = .next { State.reset with
    frmIn := { pending := s.frmIn.later.headD [], pos := 0, later := s.frmIn.later.tail }
    pktIn := { pending := s.pktIn.later.headD [], pos := 0, later := s.pktIn.later.tail }
    par := s.par, resetIn := s.resetIn, cmds := s.cmds }

/-- R49 (a) to (h), with R96's spare fields of emitted frames, R32 for a finite width and R280: every step keeps them, from
every state that has them. The first half of (f) is read with the history `ended` (log entry 18). -/
def Obligations.EveryStepKeepsTheInvariants : Prop :=
  (∀ s t : State, s.Inv → step s = .next t → t.Inv) ∧
  ∀ (ended : Bool) (s t : State), ReportInv ended s.dz → step s = .next t → ReportInv (endedAfterStep s ended) t.dz

/-- The invariants hold after reset. -/
def Obligations.ResetMeetsTheInvariants : Prop := State.reset.Inv ∧ ReportInv false State.reset.dz

/-! ### Configuration -/

/-- R260. -/
def Obligations.ConfigurationWrites : Prop :=
  ∀ (r : CfgReg) (v : Nat) (s : State),
    Selects (0x0200 + r.sel) (fun arg _ => r.setInstr arg) ∧
    (v < 2 ^ r.width → ∃ c, exec (r.setInstr v) s = .next (okEnd { s with cfg := c } 0 []) ∧
      CfgReg.value c r = v ∧ ∀ q, q ≠ r → CfgReg.value c q = CfgReg.value s.cfg q) ∧
    (2 ^ r.width ≤ v → exec (r.setInstr v) s = .next (statusEnd s .fieldRange)) ∧
    ∀ sel : Byte, 6 < sel.toNat → IllegalWord 0x02 sel

/-- R261. -/
def Obligations.ConfigurationReads : Prop :=
  ∀ (r : CfgReg) (s : State),
    Selects (0x0300 + r.sel) (fun _ _ => r.getInstr) ∧
    exec r.getInstr s = .next (okEnd s (CfgReg.value s.cfg r) []) ∧
    ∀ sel : Byte, 6 < sel.toNat → IllegalWord 0x03 sel

/-! ### The synchronizer -/

/-- R131. -/
def Obligations.ShiftingOneByteIn : Prop :=
  Selects 0x1000 (fun _ _ => .syncShift) ∧
  (∀ (s : State) (b : Byte) (rest : List Byte), s.frmIn.pending = b :: rest →
    exec .syncShift s = .next (okEnd { s with
      syncSr := BitVec.ofNat 32 (s.syncSr.toNat * 256 + b.toNat), frmIn := eaten s.frmIn 1 }
      (if (s.syncSr.toNat * 256 + b.toNat) % 2 ^ 32 = 0x1ACFFC1D then 1 else 0) [])) ∧
  ∀ s : State, s.frmIn.pending = [] → exec .syncShift s = .next (statusEnd s .endOfStream)

/-- R132, on finite streams. -/
def Obligations.SearchingForTheNextMarker : Prop :=
  Selects 0x1100 (fun _ _ => .syncFind) ∧
  ∀ s : State,
    (∀ k, FirstMatch s.syncSr s.frmIn.pending k → exec .syncFind s = .next (okEnd { s with
      syncSr := 0x1ACFFC1D#32, frmIn := eaten s.frmIn k } (s.frmIn.pos + k - 4) [])) ∧
    (NoMatch s.syncSr s.frmIn.pending → exec .syncFind s = .next (statusEnd { s with
      syncSr := shiftAll s.syncSr s.frmIn.pending, frmIn := eaten s.frmIn s.frmIn.pending.length } .endOfStream)) ∧
    (NoMatch s.syncSr s.frmIn.pending ∨ ∃ k, FirstMatch s.syncSr s.frmIn.pending k)

/-- R135: from the register of a reset or of a match, no match comes before four new bytes, and the search finds the first
place where the marker stands in the bytes still to come, as if the register had been cleared. -/
def Obligations.TheRegisterNeedsNoClearing : Prop :=
  ∀ s : State, s.syncSr = 0 ∨ s.syncSr = 0x1ACFFC1D#32 →
    (∀ j, 1 ≤ j → j ≤ 3 → j ≤ s.frmIn.pending.length → shiftAll s.syncSr (s.frmIn.pending.take j) ≠ 0x1ACFFC1D#32) ∧
    (∀ k, markerAt s.frmIn.pending k → (∀ j, j < k → ¬ markerAt s.frmIn.pending j) →
      exec .syncFind s = .next (okEnd { s with
        syncSr := 0x1ACFFC1D#32, frmIn := eaten s.frmIn (k + 4) } (s.frmIn.pos + k) [])) ∧
    ((∀ k, ¬ markerAt s.frmIn.pending k) →
      ∃ sr, exec .syncFind s = .next (statusEnd { s with
        syncSr := sr, frmIn := eaten s.frmIn s.frmIn.pending.length } .endOfStream))

/-! ### The randomizer -/

/-- R143, for every table (R142): all 1020 bytes, and the Dirty flag as it was. -/
def Obligations.RandomizingTheWorkingFrame : Prop :=
  Selects 0x1800 (fun _ _ => .randApply) ∧
  ∀ s : State, ∃ b, exec .randApply s = .next (okEnd { s with fb := { s.fb with cvcdu := b } } 0 []) ∧
    ∀ i, i < 1020 → bufByte b i = bufByte s.fb.cvcdu i ^^^ s.par.pnTable.bytes.getD (i % 255) 0

/-- R144: twice is the identity. -/
def Obligations.RandomizingTwiceIsTheIdentity : Prop :=
  ∀ s : State, ∃ t, exec .randApply s = .next t ∧ exec .randApply t = .next (okEnd s 0 [])

/-- R141, R105: the form a byte sequence has on the line, byte by byte, in either variant; the index is the byte's own. -/
def Obligations.TheLineFormByteByByte : Prop :=
  ∀ (v : BitVec 1) (p : Params) (b : List Byte) (i : Nat),
    (lineForm v p b).length = b.length ∧ (lineForm v p b)[i]? = b[i]?.map (lineByte v p i)

/-! ### The checksum -/

/-- R155, with R151 to R153 for every byte of the new checksum field. -/
def Obligations.RecomputingTheChecksum : Prop :=
  Selects 0x2000 (fun _ _ => .ckRecompute) ∧
  ∀ s : State, ∃ b, exec .ckRecompute s = .next (okEnd { s with fb := { cvcdu := b, dirty := false } } 0 []) ∧
    (∀ i, i < 892 → bufByte b i = bufByte s.fb.cvcdu i) ∧
    ∀ j, j < 128 → bufByte b (892 + j) = parityByte s.fb.cvcdu j

/-- R156: a Dirty frame is invalid, a Clean one exactly when a byte of its checksum field is not the recomputed one. -/
def Obligations.ValidatingTheChecksum : Prop :=
  Selects 0x2100 (fun _ _ => .ckValidate) ∧
  ∀ s : State,
    (s.fb.dirty = true → exec .ckValidate s = .next (statusEnd s .checksumInvalid)) ∧
    (s.fb.dirty = false → (∀ j, j < 128 → bufByte s.fb.cvcdu (892 + j) = parityByte s.fb.cvcdu j) →
      exec .ckValidate s = .next (okEnd s 1 [])) ∧
    (s.fb.dirty = false → ¬ (∀ j, j < 128 → bufByte s.fb.cvcdu (892 + j) = parityByte s.fb.cvcdu j) →
      exec .ckValidate s = .next (statusEnd s .checksumInvalid))

/-- R159 (a) and (c): valid after a recompute and after a write that recomputes; two validations in a row answer alike. -/
def Obligations.ValidAfterRecomputing : Prop :=
  (∀ s : State, ∃ t, exec .ckRecompute s = .next t ∧ exec .ckValidate t = .next (okEnd t 1 [])) ∧
  (∀ s : State, s.fb.dirty = true → ∃ t, exec .caduWrite s = .next t ∧ exec .ckValidate t = .next (okEnd t 1 [])) ∧
  ∀ s : State, ∃ t, exec .ckValidate s = .next t ∧ exec .ckValidate t = .next t

/-- R159 (b): flipping one bit of the VC_PDU of a Clean frame with a fresh checksum makes it invalid, unless the external
encoder misses a single-bit change. -/
def Obligations.AFlippedDataBitIsDetected : Prop :=
  ∀ (s : State) (i k : Nat), i < 892 → k < 8 → ∃ t, exec .ckRecompute s = .next t ∧
    (exec .ckValidate { t with fb := { t.fb with cvcdu := flipBit t.fb.cvcdu i k } } =
      .next (statusEnd { t with fb := { t.fb with cvcdu := flipBit t.fb.cvcdu i k } } .checksumInvalid) ∨
     RsMissesSingleBit)

/-- R160: flipping one bit of the checksum field of a valid Clean frame makes it invalid, whatever the encoder. -/
def Obligations.AFlippedChecksumBitIsDetected : Prop :=
  ∀ (s : State) (i k : Nat), 892 ≤ i → i < 1020 → k < 8 → exec .ckValidate s = .next (okEnd s 1 []) →
    exec .ckValidate { s with fb := { s.fb with cvcdu := flipBit s.fb.cvcdu i k } } =
      .next (statusEnd { s with fb := { s.fb with cvcdu := flipBit s.fb.cvcdu i k } } .checksumInvalid)

/-! ### The frame codec -/

/-- R166. -/
def Obligations.ANewFrameIsEmptyAndDirty : Prop :=
  Selects 0x3000 (fun _ _ => .caduNew) ∧
  ∀ s : State, ∃ b, exec .caduNew s = .next (okEnd { s with fb := { cvcdu := b, dirty := true } } 0 []) ∧
    b.bytes = List.replicate 1020 0

/-- R170, with the bit positions of R93. -/
def Obligations.FrameFieldReads : Prop :=
  ∀ (f : FrameField) (s : State),
    Selects (0x3100 + f.sel) (fun _ _ => f.getInstr) ∧
    exec f.getInstr s = .next (okEnd s (FrameField.value s.fb.cvcdu f) []) ∧
    ∀ sel : Byte, 7 < sel.toNat → IllegalWord 0x31 sel

/-- R171, with the bit positions of R93. -/
def Obligations.FrameFieldWrites : Prop :=
  (∀ (f : FrameField) (v : Nat) (dat : List Byte) (i : Instr) (s : State), f.setInstr v = some i →
    decode (opCmd (0x3200 + f.sel) v dat) = .ok i ∧
    (v < 2 ^ f.width → ∃ b, exec i s = .next (okEnd { s with fb := { cvcdu := b, dirty := true } } 0 []) ∧
      FrameField.value b f = v ∧ (∀ g, g ≠ f → FrameField.value b g = FrameField.value s.fb.cvcdu g) ∧
      b.bytes.drop 8 = s.fb.cvcdu.bytes.drop 8) ∧
    (2 ^ f.width ≤ v → exec i s = .next (statusEnd s .fieldRange))) ∧
  ∀ sel : Byte, sel.toNat = 4 ∨ 7 ≤ sel.toNat → IllegalWord 0x32 sel

/-- R172 and R173. -/
def Obligations.TheDataZoneAsAWhole : Prop :=
  Selects 0x3300 (fun _ _ => .caduGetdata) ∧ Selects 0x3400 (fun _ dat => .caduSetdata dat) ∧
  (∀ s : State, exec .caduGetdata s = .next (okEnd s 0 ((s.fb.cvcdu.bytes.drop 8).take 884))) ∧
  ∀ (dat : List Byte) (s : State),
    (dat.length = 884 → ∃ b, exec (.caduSetdata dat) s = .next (okEnd { s with fb := { cvcdu := b, dirty := true } } 0 []) ∧
      b.bytes = s.fb.cvcdu.bytes.take 8 ++ dat ++ s.fb.cvcdu.bytes.drop 892) ∧
    (dat.length ≠ 884 → exec (.caduSetdata dat) s = .next (statusEnd s .fieldRange))

/-- R175, on finite streams. -/
def Obligations.ReadingAFrame : Prop :=
  Selects 0x3500 (fun _ _ => .caduRead) ∧
  ∀ s : State,
    (∀ k, FirstMatch s.syncSr s.frmIn.pending k → k + 1020 ≤ s.frmIn.pending.length →
      ∃ b, exec .caduRead s = .next (okEnd { s with
          syncSr := 0x1ACFFC1D#32, frmIn := eaten s.frmIn (k + 1020), fb := { cvcdu := b, dirty := false } }
          (s.frmIn.pos + k - 4) []) ∧
        ∀ i, i < 1020 → bufByte b i = lineByte s.cfg.randomize s.par i (s.frmIn.pending.getD (k + i) 0)) ∧
    (∀ k, FirstMatch s.syncSr s.frmIn.pending k → s.frmIn.pending.length < k + 1020 →
      exec .caduRead s = .next (statusEnd { s with
        syncSr := 0x1ACFFC1D#32, frmIn := eaten s.frmIn s.frmIn.pending.length
        diag := s.diag ++ [.decodeFailure .truncated (s.frmIn.pos + s.frmIn.pending.length)] } .truncated)) ∧
    (NoMatch s.syncSr s.frmIn.pending → exec .caduRead s = .next (statusEnd { s with
      syncSr := shiftAll s.syncSr s.frmIn.pending, frmIn := eaten s.frmIn s.frmIn.pending.length } .endOfStream))

/-- R178: `FB` keeps the clean bytes, recomputed if it was Dirty, and the line form of them leaves behind the marker. -/
def Obligations.WritingAFrame : Prop :=
  Selects 0x3600 (fun _ _ => .caduWrite) ∧
  ∀ s : State, ∃ b body, exec .caduWrite s = .next (okEnd { s with
      fb := { cvcdu := b, dirty := false }
      frmOut := s.frmOut ++ [0x1A, 0xCF, 0xFC, 0x1D] ++ body } 0 []) ∧
    (s.fb.dirty = false → b = s.fb.cvcdu) ∧
    (s.fb.dirty = true → exec .ckRecompute s = .next (okEnd { s with fb := { cvcdu := b, dirty := false } } 0 [])) ∧
    body.length = 1020 ∧ ∀ i, i < 1020 → body.getD i 0 = lineByte s.cfg.randomize s.par i (bufByte b i)

/-- R180: what `CADU.WRITE` writes, a block with the same table reads back, at the offset where it begins, whatever stood in
its shift register: the writer's frame if it has the same variant, the transform of it if it has the other. -/
def Obligations.FramesComeBackFromTheWire : Prop :=
  ∀ s : State, ∃ t W, exec .caduWrite s = .next t ∧ t.frmOut = s.frmOut ++ W ∧ W.length = 1024 ∧ t.fb.dirty = false ∧
    (∀ (r : State) (rest : List Byte), r.cfg.randomize = s.cfg.randomize → r.par = s.par →
      r.frmIn.pending = W ++ rest →
      exec .caduRead r = .next (okEnd { r with syncSr := 0x1ACFFC1D#32, frmIn := eaten r.frmIn 1024, fb := t.fb }
        r.frmIn.pos [])) ∧
    ∀ (r : State) (rest : List Byte), r.cfg.randomize ≠ s.cfg.randomize → r.par = s.par →
      r.frmIn.pending = W ++ rest →
      ∃ b, exec .caduRead r = .next (okEnd { r with
          syncSr := 0x1ACFFC1D#32, frmIn := eaten r.frmIn 1024, fb := { cvcdu := b, dirty := false } } r.frmIn.pos []) ∧
        ∀ i, i < 1020 → bufByte b i = lineByte 1#1 s.par i (bufByte t.fb.cvcdu i)

/-- R167: the Clean/Dirty machine of `FB`, over all operations and the reset input. -/
def Obligations.TheCleanDirtyMachine : Prop :=
  (∀ (i : Instr) (s t : State), exec i s = .next t → t.fb.dirty = dirtyAfter i s.fb.dirty t.status) ∧
  ∀ s : State, s.resetIn = true → ∃ t, step s = .next t ∧ t.fb.dirty = true

/-! ### The packet codec -/

/-- R192. -/
def Obligations.ANewPacketHasNoData : Prop :=
  Selects 0x4000 (fun _ _ => .pktNew) ∧
  ∀ s : State, ∃ h, exec .pktNew s =
      .next (okEnd { s with pb := { hdr := h, data := [], hasData := false, lenStale := true } } 0 []) ∧
    h.bytes = List.replicate 6 0

/-- R193, with the bit positions of R100. -/
def Obligations.PacketFieldReads : Prop :=
  ∀ (f : PacketField) (s : State),
    Selects (0x4100 + f.sel) (fun _ _ => f.getInstr) ∧
    exec f.getInstr s = .next (okEnd s (PacketField.value s.pb.hdr f) []) ∧
    ∀ sel : Byte, 6 < sel.toNat → IllegalWord 0x41 sel

/-- R194, with the bit positions of R100. -/
def Obligations.PacketFieldWrites : Prop :=
  (∀ (f : PacketField) (v : Nat) (dat : List Byte) (i : Instr) (s : State), f.setInstr v = some i →
    decode (opCmd (0x4200 + f.sel) v dat) = .ok i ∧
    (v < 2 ^ f.width → ∃ h, exec i s = .next (okEnd { s with pb := { s.pb with hdr := h } } 0 []) ∧
      PacketField.value h f = v ∧ ∀ g, g ≠ f → PacketField.value h g = PacketField.value s.pb.hdr g) ∧
    (2 ^ f.width ≤ v → exec i s = .next (statusEnd s .fieldRange))) ∧
  ∀ sel : Byte, 6 ≤ sel.toNat → IllegalWord 0x42 sel

/-- R195. -/
def Obligations.SettingTheDataField : Prop :=
  Selects 0x4400 (fun _ dat => .pktSetdata dat) ∧
  ∀ (dat : List Byte) (s : State),
    (1 ≤ dat.length → dat.length ≤ 65536 → exec (.pktSetdata dat) s =
      .next (okEnd { s with pb := { s.pb with data := dat, hasData := true, lenStale := true } } 0 [])) ∧
    (dat.length = 0 ∨ 65536 < dat.length → exec (.pktSetdata dat) s = .next (statusEnd s .invalidPacket))

/-- R196. -/
def Obligations.SettingTheDataFieldWithItsLength : Prop :=
  Selects 0x4500 (fun n dat => .pktSetdataLen n dat) ∧
  ∀ (n : Nat) (dat : List Byte) (s : State),
    (1 ≤ n → n ≤ 65536 → dat.length = n → ∃ h, exec (.pktSetdataLen n dat) s =
        .next (okEnd { s with pb := { hdr := h, data := dat, hasData := true, lenStale := false } } 0 []) ∧
      h.bytes.take 4 = s.pb.hdr.bytes.take 4 ∧ beNat (h.bytes.drop 4) = n - 1) ∧
    (n = 0 ∨ 65536 < n ∨ dat.length ≠ n → exec (.pktSetdataLen n dat) s = .next (statusEnd s .invalidPacket))

/-- R198. -/
def Obligations.ReadingTheDataField : Prop :=
  Selects 0x4300 (fun _ _ => .pktGetdata) ∧
  ∀ s : State,
    (s.pb.hasData = true → exec .pktGetdata s = .next (okEnd s s.pb.data.length s.pb.data)) ∧
    (s.pb.hasData = false → exec .pktGetdata s = .next (statusEnd s .invalidPacket))

/-- R201. -/
def Obligations.MakingAFillPacket : Prop :=
  Selects 0x4800 (fun n _ => .pktFill n) ∧
  ∀ (n : Nat) (s : State),
    (7 ≤ n → n ≤ 65542 → ∃ h, exec (.pktFill n) s =
        .next (okEnd { s with pb := { hdr := h, data := List.replicate (n - 6) 0, hasData := true, lenStale := false } } 0 []) ∧
      h.bytes.take 4 = [0x07, 0xFF, 0xC0, 0x00] ∧ beNat (h.bytes.drop 4) = n - 7) ∧
    (n < 7 ∨ 65542 < n → exec (.pktFill n) s = .next (statusEnd s .invalidPacket))

/-- R197, on finite streams. -/
def Obligations.ReadingAPacket : Prop :=
  Selects 0x4600 (fun _ _ => .pktRead) ∧
  ∀ (s : State) (n : Nat), n = beNat ((s.pktIn.pending.drop 4).take 2) + 1 →
    (s.pktIn.pending = [] → exec .pktRead s = .next (statusEnd s .endOfStream)) ∧
    (1 ≤ s.pktIn.pending.length → s.pktIn.pending.length < 6 ∨ s.pktIn.pending.length < 6 + n → exec .pktRead s =
      .next (statusEnd { s with
        pktIn := eaten s.pktIn s.pktIn.pending.length
        diag := s.diag ++ [.decodeFailure .truncated (s.pktIn.pos + s.pktIn.pending.length)] } .truncated)) ∧
    (6 + n ≤ s.pktIn.pending.length → ∃ h, exec .pktRead s =
        .next (okEnd { s with
          pktIn := eaten s.pktIn (6 + n)
          pb := { hdr := h, data := (s.pktIn.pending.drop 6).take n, hasData := true, lenStale := false } } (6 + n) []) ∧
      h.bytes = s.pktIn.pending.take 6)

/-- R203, with R199 and R200. -/
def Obligations.WritingAPacket : Prop :=
  Selects 0x4700 (fun _ _ => .pktWrite) ∧
  ∀ s : State,
    (s.pb.hasData = true → ∃ h, exec .pktWrite s = .next (okEnd { s with
          pb := { s.pb with hdr := h, lenStale := false }, pktOut := s.pktOut ++ packetBytes s.pb }
          (6 + s.pb.data.length) []) ∧
        h.bytes ++ s.pb.data = packetBytes s.pb) ∧
    (s.pb.hasData = false → exec .pktWrite s = .next (statusEnd s .invalidPacket))

/-- R205: what `PKT.WRITE` writes, `PKT.READ` reads back, for every packet that meets the invariant of R36. -/
def Obligations.PacketsComeBackFromTheStream : Prop :=
  ∀ s : State, s.pb.hasData = true → PacketInv s.pb → ∃ t W, exec .pktWrite s = .next t ∧ t.pktOut = s.pktOut ++ W ∧
    ∀ (r : State) (rest : List Byte), r.pktIn.pending = W ++ rest →
      exec .pktRead r = .next (okEnd { r with pktIn := eaten r.pktIn W.length, pb := t.pb } W.length [])

/-! ### The packetizer -/

/-- R216. -/
def Obligations.StartingAPackingPass : Prop :=
  Selects 0x5000 (fun _ _ => .pzInit) ∧
  ∀ s : State, ∃ b, exec .pzInit s = .next (okEnd { s with pz := {
        nbo := 0, ctr := s.cfg.startCtr, fb := { cvcdu := b, dirty := true },
        mode := s.cfg.packMode, rand := s.cfg.randomize } } 0 []) ∧
    FrameField.value b .version = CfgReg.value s.cfg .version ∧ FrameField.value b .scid = CfgReg.value s.cfg .scid ∧
    FrameField.value b .vcid = CfgReg.value s.cfg .vcid ∧ FrameField.value b .counter = CfgReg.value s.cfg .startCtr ∧
    FrameField.value b .spareA = 0 ∧ FrameField.value b .replay = CfgReg.value s.cfg .replay ∧
    FrameField.value b .fhp = 0 ∧ FrameField.value b .spareB = 0 ∧ b.bytes.drop 8 = List.replicate 1012 0

/-- R217, its first test: without a data field nothing is packed. -/
def Obligations.PushingNeedsAPacket : Prop :=
  Selects 0x5100 (fun _ _ => .pzPush) ∧
  ∀ s : State, s.pb.hasData = false → exec .pzPush s = .next (statusEnd s .invalidPacket)

/-- R218 to R220, in every state whose packetizer meets R49 (a) and (b): with `q` the open data zone followed by the
serialized packet, one frame leaves for each whole data zone of `q`, with its counter and pointer, and the rest of `q` stands
in the open frame. The last four clauses say what `PZ_FB` holds behind the cursor and in its checksum field. -/
def Obligations.PackingAPacketIntoFrames : Prop :=
  ∀ (s : State) (q : List Byte) (n : Nat), s.pb.hasData = true → s.pz.mode = 0#1 → s.pz.nbo ≤ 883 →
    s.pz.fb.header.counter = s.pz.ctr → q = openZone s.pz ++ packetBytes s.pb → n = q.length / 884 →
    ∃ h f, exec .pzPush s = .next (okEnd { s with
          pb := { s.pb with hdr := h, lenStale := false }
          frmOut := s.frmOut ++ packedFrames s.pz.rand s.par s.pz.fb.header q
          pz := { s.pz with nbo := q.length % 884, ctr := s.pz.ctr + BitVec.ofNat 24 n, fb := f } } n []) ∧
      h.bytes ++ s.pb.data = packetBytes s.pb ∧ f.dirty = true ∧
      f.header = frameHeader s.pz.fb.header (framePointer s.pz.fb.header q n) n ∧
      f.dataZone.take (q.length % 884) = q.drop (884 * n) ∧
      (n = 0 → f.dataZone.drop q.length = s.pz.fb.dataZone.drop q.length ∧
        f.checksumField = s.pz.fb.checksumField) ∧
      (1 ≤ n → f.dataZone.drop (q.length % 884) = (zoneSlice q (n - 1)).drop (q.length % 884) ∧
        f.checksumField = cksum ((frameHeader s.pz.fb.header (framePointer s.pz.fb.header q (n - 1)) (n - 1)).toBytes ++
          zoneSlice q (n - 1)))

/-- R226: padded packing. -/
def Obligations.PaddingAPacketIntoOneFrame : Prop :=
  ∀ (s : State) (L : Nat) (zone : List Byte), s.pb.hasData = true → s.pz.mode = 1#1 → L = (packetBytes s.pb).length →
    zone = packetBytes s.pb ++ (if L = 884 then [] else fillPacket (884 - L)) →
    (L = 884 ∨ L ≤ 877 → ∃ h b, exec .pzPush s = .next (okEnd { s with
          pb := { s.pb with hdr := h, lenStale := false }
          frmOut := s.frmOut ++ wireBytes s.pz.rand s.par s.pz.fb.header zone
          pz := { s.pz with nbo := 0, ctr := s.pz.ctr + 1, fb := { cvcdu := b, dirty := true } } } 1 []) ∧
        h.bytes ++ s.pb.data = packetBytes s.pb ∧
        b.bytes = reopened s.pz.fb.header zone { s.pz.fb.header with counter := s.pz.ctr + 1, fhp := 0 }) ∧
    (L ≠ 884 → 877 < L → ∃ h, exec .pzPush s = .next (statusEnd { s with
          pb := { s.pb with hdr := h, lenStale := false }, diag := s.diag ++ [.packetSkipped L] } .packetSkipped) ∧
        h.bytes ++ s.pb.data = packetBytes s.pb)

/-- R223 with R225: nothing to close; a fill packet that closes the open frame; the oversized fill packet over two frames. -/
def Obligations.ClosingTheOpenFrame : Prop :=
  Selects 0x5200 (fun _ _ => .pzFlush) ∧
  ∀ (s : State) (sp : Nat) (z1 z2 : List Byte), s.pz.nbo ≤ 883 → s.pz.fb.header.counter = s.pz.ctr →
    sp = 884 - s.pz.nbo →
    z1 = openZone s.pz ++ (fillPacket (if 7 ≤ sp then sp else sp + 884)).take sp → z2 = (fillPacket (sp + 884)).drop sp →
    (s.pz.nbo = 0 → exec .pzFlush s = .next (okEnd s 0 [])) ∧
    (1 ≤ s.pz.nbo → 7 ≤ sp → ∃ b, exec .pzFlush s = .next (okEnd { s with
          frmOut := s.frmOut ++ wireBytes s.pz.rand s.par s.pz.fb.header z1
          pz := { s.pz with nbo := 0, ctr := s.pz.ctr + 1, fb := { cvcdu := b, dirty := true } } } 1 []) ∧
        b.bytes = reopened s.pz.fb.header z1 { s.pz.fb.header with counter := s.pz.ctr + 1, fhp := 0 }) ∧
    (1 ≤ s.pz.nbo → sp < 7 → ∃ b, exec .pzFlush s = .next (okEnd { s with
          frmOut := s.frmOut ++ wireBytes s.pz.rand s.par s.pz.fb.header z1 ++
            wireBytes s.pz.rand s.par { s.pz.fb.header with counter := s.pz.ctr + 1, fhp := 2047 } z2
          pz := { s.pz with nbo := 0, ctr := s.pz.ctr + 2, fb := { cvcdu := b, dirty := true } } } 2 []) ∧
        b.bytes = reopened { s.pz.fb.header with counter := s.pz.ctr + 1, fhp := 2047 } z2
          { s.pz.fb.header with counter := s.pz.ctr + 2, fhp := 0 })

/-- R222: a packet of exactly one data zone at an empty cursor makes one frame and no fill packet, and one of 890 bytes leaves
6 bytes behind, which the flush closes with a second frame. -/
def Obligations.APacketOfOneDataZone : Prop :=
  ∀ s : State, s.pb.hasData = true → s.pz.mode = 0#1 → s.pz.nbo = 0 → s.pz.fb.header.counter = s.pz.ctr →
    (s.pb.data.length = 878 → ∃ t u, exec .pzPush s = .next t ∧ t.status = .ok ∧ t.result = 1 ∧ t.pz.nbo = 0 ∧
      t.frmOut.length = s.frmOut.length + 1024 ∧ t.pz.fb.header.fhp = 0 ∧
      exec .pzFlush t = .next u ∧ u.result = 0 ∧ u.frmOut = t.frmOut) ∧
    (s.pb.data.length = 884 → ∃ t u, exec .pzPush s = .next t ∧ t.status = .ok ∧ t.result = 1 ∧ t.pz.nbo = 6 ∧
      t.frmOut.length = s.frmOut.length + 1024 ∧ t.pz.fb.header.fhp = 6 ∧
      exec .pzFlush t = .next u ∧ u.result = 1 ∧ u.frmOut.length = t.frmOut.length + 1024 ∧
      u.pz.fb.dataZone.drop 6 = fillPacket 878)

/-- R229: the frames of a whole stream-mode pass, with every header field, data zone and checksum. -/
def Obligations.WhatAPackingPassEmits : Prop :=
  ∀ (ps : List Packet) (s : State), (∀ p ∈ ps, p.hasData = true) → s.cfg.packMode = 0#1 →
    (passBytes (ps.map packetBytes)).length % 884 = 0 ∧
    ∃ a b c, exec .pzInit s = .next a ∧ pushPackets ps a = some b ∧ exec .pzFlush b = .next c ∧ c.status = .ok ∧
      c.frmOut = s.frmOut ++ passWire s.cfg s.par (ps.map packetBytes)

/-! ### The depacketizer -/

/-- R246, while the counts are not reported and `DZ_DFC` does not exceed its width: aligned, sentinel, meaningless pointer,
aligning. -/
def Obligations.UnpackingAFrame : Prop :=
  Selects 0x6100 (fun _ _ => .dzPush) ∧
  ∀ (s : State) (p : Nat) (zone : List Byte), p = FrameField.value s.fb.cvcdu .fhp →
    zone = (s.fb.cvcdu.bytes.drop 8).take 884 →
    (s.dz.seen = true → exec .dzPush s = .next (okEnd { s with pktOut := s.pktOut ++ zone } 884 [])) ∧
    (s.dz.seen = false → s.dz.reported = false → (∀ w, s.par.dfcWidth = some w → s.dz.dfc + 1 < 2 ^ w) → p = 2047 →
      exec .dzPush s = .next (okEnd { s with dz := { s.dz with dfc := s.dz.dfc + 1 } } 0 [])) ∧
    (s.dz.seen = false → 885 ≤ p → p ≤ 2046 → exec .dzPush s = .next (statusEnd { s with
      diag := s.diag ++ [.decodeFailure .invalidPointer p] } .invalidPointer)) ∧
    (s.dz.seen = false → s.dz.reported = false → p ≤ 884 → exec .dzPush s = .next (okEnd { s with
      pktOut := s.pktOut ++ zone.drop p
      dz := { s.dz with seen := true, reported := true, dbc := p }
      diag := s.diag ++ [.discardReport s.dz.dfc p] } (884 - p) []))

/-- What the model chose beside R246. A discard counter of a finite width that would overflow stops the machine (log entry 3,
U9). When `DZ.END` has reported the counts of a pass that never aligned, a frame that aligns writes no second report (log
entry 13), and a sentinel frame and an aligning one still write the counters (log entry 17). -/
def Obligations.UnpackingAtTheEdges : Prop :=
  (∀ (s : State) (w : Nat), s.dz.seen = false → s.par.dfcWidth = some w → FrameField.value s.fb.cvcdu .fhp = 2047 →
    2 ^ w ≤ s.dz.dfc + 1 → exec .dzPush s = .fault .dfcOverflow) ∧
  ∀ (s : State) (p : Nat), s.dz.seen = false → s.dz.reported = true → p = FrameField.value s.fb.cvcdu .fhp →
    ((∀ w, s.par.dfcWidth = some w → s.dz.dfc + 1 < 2 ^ w) → p = 2047 →
      exec .dzPush s = .next (okEnd { s with dz := { s.dz with dfc := s.dz.dfc + 1 } } 0 [])) ∧
    (p ≤ 884 → exec .dzPush s = .next (okEnd { s with
      pktOut := s.pktOut ++ ((s.fb.cvcdu.bytes.drop 8).take 884).drop p
      dz := { s.dz with seen := true, dbc := p } } (884 - p) []))

/-- R245 and R251. -/
def Obligations.OpeningAndClosingAnUnpackingPass : Prop :=
  Selects 0x6000 (fun _ _ => .dzInit) ∧ Selects 0x6200 (fun _ _ => .dzEnd) ∧
  (∀ s : State, exec .dzInit s =
    .next (okEnd { s with dz := { seen := false, reported := false, dfc := 0, dbc := 0 } } 0 [])) ∧
  ∀ s : State,
    (s.dz.reported = false → exec .dzEnd s = .next (okEnd { s with
      dz := { s.dz with reported := true }
      diag := s.diag ++ [.discardReport s.dz.dfc s.dz.dbc] } s.dz.dfc [])) ∧
    (s.dz.reported = true → exec .dzEnd s = .next (okEnd s s.dz.dfc []))

/-- R250 with R284, by the guard of log entry 13: the counts are reported exactly once. Any operation of a pass writes a report
exactly when it sets `DZ_REPORTED`, which stays set. Over a whole pass with an unbounded counter the report comes from the frame
that aligns, or from `DZ.END` when no frame does, and the packet bytes leave in frame order. -/
def Obligations.DiscardsAreReportedOnce : Prop :=
  (∀ (i : Instr) (s t : State), i ≠ .reset → i ≠ .dzInit → exec i s = .next t →
    (s.dz.reported = true → t.dz.reported = true) ∧
    discardReports t.diag =
      discardReports s.diag + (if s.dz.reported = false ∧ t.dz.reported = true then 1 else 0)) ∧
  ∀ (s : State) (skipped : List Frame), s.par.dfcWidth = none →
    s.dz = { seen := false, reported := false, dfc := 0, dbc := 0 } → (∀ g ∈ skipped, g.header.fhp = 2047) →
    (∀ (f : Frame) (rest : List Frame), f.header.fhp.toNat ≤ 884 → ∃ t, pushFrames (skipped ++ f :: rest) s = some t ∧
      t.pktOut = s.pktOut ++ f.dataZone.drop f.header.fhp.toNat ++ rest.flatMap Frame.dataZone ∧
      t.diag = s.diag ++ [.discardReport skipped.length f.header.fhp.toNat] ∧
      t.dz = { seen := true, reported := true, dfc := skipped.length, dbc := f.header.fhp.toNat } ∧
      exec .dzEnd t = .next (okEnd t skipped.length [])) ∧
    ∃ t, pushFrames skipped s = some t ∧ t.pktOut = s.pktOut ∧ t.diag = s.diag ∧
      exec .dzEnd t = .next (okEnd { t with
        dz := { t.dz with reported := true }
        diag := s.diag ++ [.discardReport skipped.length 0] } skipped.length [])

/-- R255: the frames of a packing pass, read and unpacked by a fresh depacketizer, give back the packets and the fill packet,
and reading them ends with a clean end of stream. -/
def Obligations.UnpackingInvertsPacking : Prop :=
  ∀ (ps : List Packet) (c : Cfg) (r : State), (∀ p ∈ ps, p.hasData = true ∧ PacketInv p) →
    r.cfg.randomize = c.randomize → r.dz = { seen := false, reported := false, dfc := 0, dbc := 0 } →
    r.frmIn.pending = passWire c r.par (ps.map packetBytes) →
    (∃ t, receiveFrames ((passBytes (ps.map packetBytes)).length / 884) r = some t ∧ t.frmIn.pending = [] ∧
      t.pktOut = r.pktOut ++ passBytes (ps.map packetBytes) ∧
      (ps ≠ [] → t.dz.dfc = 0 ∧ t.dz.dbc = 0 ∧ t.diag = r.diag ++ [.discardReport 0 0])) ∧
    ∀ v : State, v.pktIn.pending = passBytes (ps.map packetBytes) →
      ∃ u, readsPackets (ps.map packetBytes ++ closingFill (ps.map packetBytes).flatten.length) v = some u ∧
        exec .pktRead u = .next (statusEnd u .endOfStream)

/-! ### The whole machine -/

/-- Every operation completes in every state (R39, R270), but for the discard counter of a finite width (log entry 3). -/
def Obligations.EveryOperationCompletes : Prop :=
  ∀ (i : Instr) (s : State), (∃ t, exec i s = .next t) ∨
    (i = .dzPush ∧ exec i s = .fault .dfcOverflow ∧ ∃ w, s.par.dfcWidth = some w ∧ 2 ^ w ≤ s.dz.dfc + 1)

/-- R271: the codes of the statuses, and which operations raise which. -/
def Obligations.WhichOperationsRaiseWhichStatus : Prop :=
  [Status.ok, .endOfStream, .truncated, .checksumInvalid, .invalidPacket, .fieldRange, .packetSkipped, .invalidPointer,
    .illegalOp].map Status.code = [0, 1, 2, 3, 4, 5, 6, 7, 8] ∧
  ∀ (i : Instr) (s t : State), exec i s = .next t → mayRaise i t.status = true

/-- R280. -/
def Obligations.NoResultWithoutSuccess : Prop :=
  ∀ (i : Instr) (s t : State), exec i s = .next t → t.status ≠ .ok → t.result = 0 ∧ t.rdat = []

/-- R282: the two shapes of the state that a status other than `OK` leaves. -/
def Obligations.WhatAFailureLeaves : Prop :=
  ∀ (i : Instr) (s t : State), exec i s = .next t →
    (t.status ∈ [.illegalOp, .fieldRange, .invalidPacket, .checksumInvalid] → t = statusEnd s t.status) ∧
    (t.status = .invalidPointer → ∃ r, t = statusEnd { s with diag := s.diag ++ [r] } .invalidPointer) ∧
    (t.status = .packetSkipped → ∃ h r, t = statusEnd { s with
      pb := { s.pb with hdr := h, lenStale := false }
      diag := s.diag ++ [r] } .packetSkipped ∧ h.bytes.take 4 = s.pb.hdr.bytes.take 4) ∧
    (t.status = .endOfStream ∨ t.status = .truncated →
      (i = .pktRead ∧ t = statusEnd { s with pktIn := eaten s.pktIn s.pktIn.pending.length, diag := t.diag } t.status) ∨
      (i ≠ .pktRead ∧ ∃ k, t = statusEnd { s with
        syncSr := shiftAll s.syncSr (s.frmIn.pending.take k)
        frmIn := eaten s.frmIn s.frmIn.pending.length, diag := t.diag } t.status))

/-- The streams only move forward: an operation other than `RESET` consumes a number of pending bytes and appends to what was
written (R23, R30, R66, R67). -/
def Obligations.StreamsOnlyMoveForward : Prop :=
  ∀ (i : Instr) (s t : State), i ≠ .reset → exec i s = .next t →
    (∃ n, n ≤ s.frmIn.pending.length ∧ t.frmIn = eaten s.frmIn n) ∧
    (∃ n, n ≤ s.pktIn.pending.length ∧ t.pktIn = eaten s.pktIn n) ∧
    (∃ b, t.frmOut = s.frmOut ++ b) ∧ (∃ b, t.pktOut = s.pktOut ++ b) ∧ ∃ d, t.diag = s.diag ++ d

/-- Each unit keeps to its own state: the register of the synchronizer (R25), the two frames (R34, R35), the packet, the
configuration (R40), the packetizer and the depacketizer, and the five streams (R21) are written by their operations and
`RESET` alone; the parameters, the reset input and the host's commands by none. -/
def Obligations.UnitsKeepToTheirOwnState : Prop :=
  ∀ (i : Instr) (s t : State), exec i s = .next t →
    t.par = s.par ∧ t.resetIn = s.resetIn ∧ t.cmds = s.cmds ∧
    (i ≠ .reset →
      (i ∉ [.syncShift, .syncFind, .caduRead] → t.syncSr = s.syncSr ∧ t.frmIn = s.frmIn) ∧
      (writesCfg i = false → t.cfg = s.cfg) ∧ (writesFrame i = false → t.fb = s.fb) ∧
      (writesPacket i = false → t.pb = s.pb) ∧
      (i ∉ [.pzInit, .pzPush, .pzFlush] → t.pz = s.pz) ∧ (i ∉ [.dzInit, .dzPush, .dzEnd] → t.dz = s.dz) ∧
      (i ≠ .pktRead → t.pktIn = s.pktIn) ∧
      (i ∉ [.caduWrite, .pzPush, .pzFlush] → t.frmOut = s.frmOut) ∧
      (i ∉ [.pktWrite, .dzPush] → t.pktOut = s.pktOut) ∧
      (i ∉ [.dzPush, .dzEnd, .pzPush, .caduRead, .pktRead] → t.diag = s.diag))
end

