-- ==== Sys2Proof/Laws/Buffers.lean ====
section
/-! SUPPORT. Read after write, and what a write leaves alone, for the byte buffers. -/

namespace Sys2Proof.Machine

@[simp] theorem zeros_length (n : Nat) : (zeros n).length = n := by simp [zeros]

/-- A byte of an overlaid list: the new byte inside the written range, the old one outside it. -/
theorem overlay_getElem? : ∀ (l : List Byte) (a : Nat) (v : List Byte) (i : Nat),
    (overlay l a v)[i]? = if a ≤ i ∧ i < a + v.length ∧ i < l.length then v[i - a]? else l[i]?
  | [], a, v, i => by simp [overlay]
  | x :: l, 0, [], i => by simp [overlay]
  | x :: l, 0, v :: vs, 0 => by simp [overlay]
  | x :: l, 0, v :: vs, i + 1 => by
      simp only [overlay, List.getElem?_cons_succ, overlay_getElem? l 0 vs i, List.length_cons]
      simp
  | x :: l, a + 1, vs, 0 => by simp [overlay]
  | x :: l, a + 1, vs, i + 1 => by
      simp only [overlay, List.getElem?_cons_succ, overlay_getElem? l a vs i, List.length_cons]
      have : i + 1 - (a + 1) = i - a := by omega
      rw [this]
      split <;> split <;> first | rfl | omega

/-- Writing what fits splits the buffer in three: before, the bytes written, after. -/
theorem overlay_eq_append : ∀ (l : List Byte) (a : Nat) (v : List Byte), a + v.length ≤ l.length →
    overlay l a v = l.take a ++ v ++ l.drop (a + v.length)
  | [], a, v, h => by
      simp only [List.length_nil] at h
      have hv : v = [] := List.eq_nil_of_length_eq_zero (by omega)
      simp [overlay, hv]
  | x :: l, 0, [], _ => by simp [overlay]
  | x :: l, 0, v :: vs, h => by
      simp only [List.length_cons] at h
      simp [overlay, overlay_eq_append l 0 vs (by omega)]
  | x :: l, a + 1, vs, h => by
      simp only [List.length_cons] at h
      have : a + 1 + vs.length = (a + vs.length) + 1 := by omega
      simp [overlay, overlay_eq_append l a vs (by omega), this]

@[simp] theorem bufWrite_bytes {n : Nat} (b : Buf n) (a : Nat) (v : List Byte) :
    (bufWrite b a v).bytes = overlay b.bytes a v := rfl

@[simp] theorem bufRead_length {n : Nat} (b : Buf n) (a len : Nat) (h : a + len ≤ n) :
    (bufRead b a len).length = len := by
  have := b.size
  simp [bufRead]; omega

/-- A whole buffer filled from a list of its own length holds exactly that list. -/
theorem bufOfList_bytes {n : Nat} (l : List Byte) (h : l.length = n) : (bufOfList n l).bytes = l := by
  rw [bufOfList, bufWrite_bytes, overlay_eq_append _ _ _ (by simp [Buf.zero, h])]
  simp [Buf.zero, h, zeros]

/-- Filling a buffer with its own bytes changes nothing. -/
theorem bufOfList_self {n : Nat} (b : Buf n) : bufOfList n b.bytes = b := by
  cases b with
  | mk l h => simp only [bufOfList, bufWrite, Buf.mk.injEq]; exact bufOfList_bytes l h

/-- Reading back exactly what was written. -/
theorem bufRead_bufWrite_same {n : Nat} (b : Buf n) (a : Nat) (v : List Byte) (h : a + v.length ≤ n) :
    bufRead (bufWrite b a v) a v.length = v := by
  have hs := b.size
  rw [bufRead, bufWrite_bytes, overlay_eq_append _ _ _ (by omega), List.append_assoc, List.drop_append]
  simp [hs, show a ≤ n by omega]

/-- A write leaves every range before it alone. -/
theorem bufRead_bufWrite_before {n : Nat} (b : Buf n) (a c len : Nat) (v : List Byte) (h : c + len ≤ a) :
    bufRead (bufWrite b a v) c len = bufRead b c len := by
  apply List.ext_getElem?
  intro i
  simp only [bufRead, bufWrite_bytes, List.getElem?_take, List.getElem?_drop, overlay_getElem?]
  split <;> [skip; rfl]
  rw [if_neg (by omega)]

/-- A write leaves every range after it alone. -/
theorem bufRead_bufWrite_after {n : Nat} (b : Buf n) (a c len : Nat) (v : List Byte) (h : a + v.length ≤ c) :
    bufRead (bufWrite b a v) c len = bufRead b c len := by
  apply List.ext_getElem?
  intro i
  simp only [bufRead, bufWrite_bytes, List.getElem?_take, List.getElem?_drop, overlay_getElem?]
  split <;> [skip; rfl]
  rw [if_neg (by omega)]

/-- One byte after a write: the new byte inside the written range, the old one outside it. -/
theorem bufByte_bufWrite {n : Nat} (b : Buf n) (a i : Nat) (v : List Byte) :
    bufByte (bufWrite b a v) i = if a ≤ i ∧ i < a + v.length ∧ i < n then v.getD (i - a) 0 else bufByte b i := by
  simp only [bufByte, bufWrite_bytes, List.getD_eq_getElem?_getD, overlay_getElem?, b.size]
  split <;> rfl

/-- Two buffers of one size with the same bytes are the same buffer. -/
theorem buf_ext {n : Nat} {a b : Buf n} (h : a.bytes = b.bytes) : a = b := by
  cases a; cases b; simpa using h

/-- Two buffers of one size that agree on every byte are the same buffer. -/
theorem buf_ext_byte {n : Nat} {a b : Buf n} (h : ∀ i < n, bufByte a i = bufByte b i) : a = b := by
  apply buf_ext
  apply List.ext_getElem (by rw [a.size, b.size])
  intro i h1 h2
  have := h i (by rw [← a.size]; exact h1)
  simpa [bufByte, List.getD_eq_getElem?_getD, h1, h2] using this

/-- A buffer is its consecutive regions one after the other. -/
theorem buf_split {n : Nat} (b : Buf n) (a : Nat) :
    b.bytes = bufRead b 0 a ++ bufRead b a (n - a) := by
  have hs := b.size
  simp only [bufRead, List.drop_zero]
  rw [List.take_of_length_le (l := b.bytes.drop a) (by simp [hs]), List.take_append_drop]

end Sys2Proof.Machine
end

