-- ==== Sys2Proof/Laws/Codec.lean ====
section
/-! SUPPORT. Big-endian integers and the two headers: reading back what was assembled, and assembling what was read. -/

namespace Sys2Proof

@[simp] theorem beBytes_length : ∀ (n v : Nat), (beBytes n v).length = n
  | 0, _ => rfl
  | n + 1, v => by simp [beBytes, beBytes_length n v]

theorem beNat_lt : ∀ b : List Byte, beNat b < 256 ^ b.length
  | [] => by simp [beNat]
  | b :: bs => by
      have h1 := beNat_lt bs
      have h2 := b.isLt
      simp only [beNat, List.length_cons, pow_succ]
      have h3 : b.toNat * 256 ^ bs.length ≤ 255 * 256 ^ bs.length := Nat.mul_le_mul_right _ (by omega)
      omega

/-- `be_n(bytes_n(v)) = v mod 2^(8n)` (R15). -/
theorem beNat_beBytes : ∀ (n v : Nat), beNat (beBytes n v) = v % 256 ^ n
  | 0, v => by simp [beNat, beBytes, Nat.mod_one]
  | n + 1, v => by
      simp only [beBytes, beNat, beNat_beBytes n v, beBytes_length, BitVec.toNat_ofNat]
      have h := Nat.mod_mul (x := v) (a := 256 ^ n) (b := 256)
      rw [Nat.pow_succ 256 n, h]
      norm_num
      ring

/-- `bytes_n(be_n(B)) = B` (R15). -/
theorem beBytes_beNat : ∀ b : List Byte, beBytes b.length (beNat b) = b
  | [] => rfl
  | b :: bs => by
      have h1 := beNat_lt bs
      have h2 := b.isLt
      have hp : 0 < 256 ^ bs.length := Nat.pow_pos (by omega)
      simp only [List.length_cons, beBytes, beNat, List.cons.injEq]
      constructor
      · apply BitVec.eq_of_toNat_eq
        rw [BitVec.toNat_ofNat, Nat.mul_comm, Nat.mul_add_div hp, Nat.div_eq_of_lt h1]
        omega
      · have : ∀ (n k v : Nat), beBytes n (k * 256 ^ n + v) = beBytes n v := by
          intro n
          induction n with
          | zero => intros; rfl
          | succ n ih =>
            intro k v
            simp only [beBytes, List.cons.injEq]
            have hn : 0 < 256 ^ n := Nat.pow_pos (by omega)
            constructor
            · apply BitVec.eq_of_toNat_eq
              rw [BitVec.toNat_ofNat, BitVec.toNat_ofNat, pow_succ,
                show k * (256 ^ n * 256) + v = 256 ^ n * (k * 256) + v by ring, Nat.mul_add_div hn]
              omega
            · rw [pow_succ, show k * (256 ^ n * 256) + v = (k * 256) * 256 ^ n + v by ring]
              exact ih (k * 256) v
        rw [this, beBytes_beNat bs]

/-- Taking one field more off the bottom of an integer: the sum over all fields telescopes. -/
theorem field_step (v lo w : Nat) :
    v / 2 ^ (lo + w) * 2 ^ (lo + w) + v / 2 ^ lo % 2 ^ w * 2 ^ lo = v / 2 ^ lo * 2 ^ lo := by
  have h := Nat.div_add_mod (v / 2 ^ lo) (2 ^ w)
  rw [Nat.div_div_eq_div_mul, ← pow_add] at h
  have h2 : (2 ^ w * (v / 2 ^ (lo + w)) + v / 2 ^ lo % 2 ^ w) * 2 ^ lo = v / 2 ^ lo * 2 ^ lo := by rw [h]
  rw [← h2, pow_add]
  ring

/-- A field of an integer, as a number: `v[hi:lo] = (v >> lo) mod 2^w` (R15). -/
@[simp] theorem bitField_toNat (v lo w : Nat) : (bitField v lo w).toNat = v / 2 ^ lo % 2 ^ w := by
  simp [bitField]

@[simp] theorem VcHeader.toBytes_length (h : VcHeader) : h.toBytes.length = 8 := by simp [VcHeader.toBytes]

@[simp] theorem PktHeader.toBytes_length (h : PktHeader) : h.toBytes.length = 6 := by simp [PktHeader.toBytes]

/-- Reading a VC_PDU header that was assembled gives its fields back (R94). -/
@[simp] theorem VcHeader.ofBytes_toBytes (h : VcHeader) : VcHeader.ofBytes h.toBytes = h := by
  obtain ⟨a, b, c, d, e, f, g, k⟩ := h
  have := a.isLt; have := b.isLt; have := c.isLt; have := d.isLt
  have := e.isLt; have := f.isLt; have := g.isLt; have := k.isLt
  simp only [VcHeader.ofBytes, VcHeader.toBytes, beNat_beBytes, VcHeader.mk.injEq]
  refine ⟨?_, ?_, ?_, ?_, ?_, ?_, ?_, ?_⟩ <;>
    (apply BitVec.eq_of_toNat_eq; rw [bitField_toNat]; omega)

/-- Reading a packet header that was assembled gives its fields back (R101). -/
@[simp] theorem PktHeader.ofBytes_toBytes (h : PktHeader) : PktHeader.ofBytes h.toBytes = h := by
  obtain ⟨a, b, c, d, e, f, g⟩ := h
  have := a.isLt; have := b.isLt; have := c.isLt; have := d.isLt
  have := e.isLt; have := f.isLt; have := g.isLt
  simp only [PktHeader.ofBytes, PktHeader.toBytes, beNat_beBytes, PktHeader.mk.injEq]
  refine ⟨?_, ?_, ?_, ?_, ?_, ?_, ?_⟩ <;>
    (apply BitVec.eq_of_toNat_eq; rw [bitField_toNat]; omega)

/-- Assembling the fields read from 8 bytes gives the bytes back: the fields are all of the header (R93). -/
theorem VcHeader.toBytes_ofBytes (b : List Byte) (hb : b.length = 8) : (VcHeader.ofBytes b).toBytes = b := by
  have h := beNat_lt b
  rw [hb] at h
  have key := beBytes_beNat b
  rw [hb] at key
  simp only [VcHeader.toBytes, VcHeader.ofBytes, bitField_toNat]
  generalize beNat b = v at *
  rw [← key]
  refine congrArg (beBytes 8) ?_
  have f0 := field_step v 0 5
  have f1 := field_step v 5 11
  have f2 := field_step v 16 1
  have f3 := field_step v 17 7
  have f4 := field_step v 24 24
  have f5 := field_step v 48 6
  have f6 := field_step v 54 8
  have f7 := field_step v 62 2
  have e : v / 2 ^ (62 + 2) = 0 := Nat.div_eq_of_lt (by norm_num at h ⊢; exact h)
  simp only [Nat.reduceAdd] at f0 f1 f2 f3 f4 f5 f6 f7 e
  simp only [e, Nat.pow_zero, Nat.div_one, Nat.mul_one, Nat.zero_mul, Nat.zero_add] at f0 f7 ⊢
  linarith

/-- Assembling the fields read from 6 bytes gives the bytes back (R100). -/
theorem PktHeader.toBytes_ofBytes (b : List Byte) (hb : b.length = 6) : (PktHeader.ofBytes b).toBytes = b := by
  have h := beNat_lt b
  rw [hb] at h
  have key := beBytes_beNat b
  rw [hb] at key
  simp only [PktHeader.toBytes, PktHeader.ofBytes, bitField_toNat]
  generalize beNat b = v at *
  rw [← key]
  refine congrArg (beBytes 6) ?_
  have f0 := field_step v 0 16
  have f1 := field_step v 16 14
  have f2 := field_step v 30 2
  have f3 := field_step v 32 11
  have f4 := field_step v 43 1
  have f5 := field_step v 44 1
  have f6 := field_step v 45 3
  have e : v / 2 ^ (45 + 3) = 0 := Nat.div_eq_of_lt (by norm_num at h ⊢; exact h)
  simp only [Nat.reduceAdd] at f0 f1 f2 f3 f4 f5 f6 e
  simp only [e, Nat.pow_zero, Nat.div_one, Nat.mul_one, Nat.zero_mul, Nat.zero_add] at f0 f6 ⊢
  linarith

end Sys2Proof
end

