-- ==== Sys2Proof/Laws/State.lean ====
section
/-! SUPPORT. One lemma per field for every state update the operations share, so that no proof unfolds an update. -/

namespace Sys2Proof.Machine

@[simp] theorem diagnose_syncSr (r : DiagRecord) (s : State) : (diagnose r s).syncSr = s.syncSr := rfl
@[simp] theorem diagnose_status (r : DiagRecord) (s : State) : (diagnose r s).status = s.status := rfl
@[simp] theorem diagnose_result (r : DiagRecord) (s : State) : (diagnose r s).result = s.result := rfl
@[simp] theorem diagnose_rdat (r : DiagRecord) (s : State) : (diagnose r s).rdat = s.rdat := rfl
@[simp] theorem diagnose_cfg (r : DiagRecord) (s : State) : (diagnose r s).cfg = s.cfg := rfl
@[simp] theorem diagnose_fb (r : DiagRecord) (s : State) : (diagnose r s).fb = s.fb := rfl
@[simp] theorem diagnose_pb (r : DiagRecord) (s : State) : (diagnose r s).pb = s.pb := rfl
@[simp] theorem diagnose_pz (r : DiagRecord) (s : State) : (diagnose r s).pz = s.pz := rfl
@[simp] theorem diagnose_dz (r : DiagRecord) (s : State) : (diagnose r s).dz = s.dz := rfl
@[simp] theorem diagnose_frmIn (r : DiagRecord) (s : State) : (diagnose r s).frmIn = s.frmIn := rfl
@[simp] theorem diagnose_pktIn (r : DiagRecord) (s : State) : (diagnose r s).pktIn = s.pktIn := rfl
@[simp] theorem diagnose_frmOut (r : DiagRecord) (s : State) : (diagnose r s).frmOut = s.frmOut := rfl
@[simp] theorem diagnose_pktOut (r : DiagRecord) (s : State) : (diagnose r s).pktOut = s.pktOut := rfl
@[simp] theorem diagnose_diag (r : DiagRecord) (s : State) : (diagnose r s).diag = s.diag ++ [r] := rfl
@[simp] theorem diagnose_par (r : DiagRecord) (s : State) : (diagnose r s).par = s.par := rfl
@[simp] theorem diagnose_resetIn (r : DiagRecord) (s : State) : (diagnose r s).resetIn = s.resetIn := rfl
@[simp] theorem diagnose_cmds (r : DiagRecord) (s : State) : (diagnose r s).cmds = s.cmds := rfl

@[simp] theorem writeFrm_syncSr (b : List Byte) (s : State) : (writeFrm b s).syncSr = s.syncSr := rfl
@[simp] theorem writeFrm_status (b : List Byte) (s : State) : (writeFrm b s).status = s.status := rfl
@[simp] theorem writeFrm_result (b : List Byte) (s : State) : (writeFrm b s).result = s.result := rfl
@[simp] theorem writeFrm_rdat (b : List Byte) (s : State) : (writeFrm b s).rdat = s.rdat := rfl
@[simp] theorem writeFrm_cfg (b : List Byte) (s : State) : (writeFrm b s).cfg = s.cfg := rfl
@[simp] theorem writeFrm_fb (b : List Byte) (s : State) : (writeFrm b s).fb = s.fb := rfl
@[simp] theorem writeFrm_pb (b : List Byte) (s : State) : (writeFrm b s).pb = s.pb := rfl
@[simp] theorem writeFrm_pz (b : List Byte) (s : State) : (writeFrm b s).pz = s.pz := rfl
@[simp] theorem writeFrm_dz (b : List Byte) (s : State) : (writeFrm b s).dz = s.dz := rfl
@[simp] theorem writeFrm_frmIn (b : List Byte) (s : State) : (writeFrm b s).frmIn = s.frmIn := rfl
@[simp] theorem writeFrm_pktIn (b : List Byte) (s : State) : (writeFrm b s).pktIn = s.pktIn := rfl
@[simp] theorem writeFrm_frmOut (b : List Byte) (s : State) : (writeFrm b s).frmOut = s.frmOut ++ b := rfl
@[simp] theorem writeFrm_pktOut (b : List Byte) (s : State) : (writeFrm b s).pktOut = s.pktOut := rfl
@[simp] theorem writeFrm_diag (b : List Byte) (s : State) : (writeFrm b s).diag = s.diag := rfl
@[simp] theorem writeFrm_par (b : List Byte) (s : State) : (writeFrm b s).par = s.par := rfl
@[simp] theorem writeFrm_resetIn (b : List Byte) (s : State) : (writeFrm b s).resetIn = s.resetIn := rfl
@[simp] theorem writeFrm_cmds (b : List Byte) (s : State) : (writeFrm b s).cmds = s.cmds := rfl

@[simp] theorem writePkt_syncSr (b : List Byte) (s : State) : (writePkt b s).syncSr = s.syncSr := rfl
@[simp] theorem writePkt_status (b : List Byte) (s : State) : (writePkt b s).status = s.status := rfl
@[simp] theorem writePkt_result (b : List Byte) (s : State) : (writePkt b s).result = s.result := rfl
@[simp] theorem writePkt_rdat (b : List Byte) (s : State) : (writePkt b s).rdat = s.rdat := rfl
@[simp] theorem writePkt_cfg (b : List Byte) (s : State) : (writePkt b s).cfg = s.cfg := rfl
@[simp] theorem writePkt_fb (b : List Byte) (s : State) : (writePkt b s).fb = s.fb := rfl
@[simp] theorem writePkt_pb (b : List Byte) (s : State) : (writePkt b s).pb = s.pb := rfl
@[simp] theorem writePkt_pz (b : List Byte) (s : State) : (writePkt b s).pz = s.pz := rfl
@[simp] theorem writePkt_dz (b : List Byte) (s : State) : (writePkt b s).dz = s.dz := rfl
@[simp] theorem writePkt_frmIn (b : List Byte) (s : State) : (writePkt b s).frmIn = s.frmIn := rfl
@[simp] theorem writePkt_pktIn (b : List Byte) (s : State) : (writePkt b s).pktIn = s.pktIn := rfl
@[simp] theorem writePkt_frmOut (b : List Byte) (s : State) : (writePkt b s).frmOut = s.frmOut := rfl
@[simp] theorem writePkt_pktOut (b : List Byte) (s : State) : (writePkt b s).pktOut = s.pktOut ++ b := rfl
@[simp] theorem writePkt_diag (b : List Byte) (s : State) : (writePkt b s).diag = s.diag := rfl
@[simp] theorem writePkt_par (b : List Byte) (s : State) : (writePkt b s).par = s.par := rfl
@[simp] theorem writePkt_resetIn (b : List Byte) (s : State) : (writePkt b s).resetIn = s.resetIn := rfl
@[simp] theorem writePkt_cmds (b : List Byte) (s : State) : (writePkt b s).cmds = s.cmds := rfl

@[simp] theorem reportDiscards_syncSr (s : State) : (reportDiscards s).syncSr = s.syncSr := rfl
@[simp] theorem reportDiscards_status (s : State) : (reportDiscards s).status = s.status := rfl
@[simp] theorem reportDiscards_result (s : State) : (reportDiscards s).result = s.result := rfl
@[simp] theorem reportDiscards_rdat (s : State) : (reportDiscards s).rdat = s.rdat := rfl
@[simp] theorem reportDiscards_cfg (s : State) : (reportDiscards s).cfg = s.cfg := rfl
@[simp] theorem reportDiscards_fb (s : State) : (reportDiscards s).fb = s.fb := rfl
@[simp] theorem reportDiscards_pb (s : State) : (reportDiscards s).pb = s.pb := rfl
@[simp] theorem reportDiscards_pz (s : State) : (reportDiscards s).pz = s.pz := rfl
@[simp] theorem reportDiscards_dz (s : State) : (reportDiscards s).dz = s.dz.afterReport := rfl
@[simp] theorem reportDiscards_frmIn (s : State) : (reportDiscards s).frmIn = s.frmIn := rfl
@[simp] theorem reportDiscards_pktIn (s : State) : (reportDiscards s).pktIn = s.pktIn := rfl
@[simp] theorem reportDiscards_frmOut (s : State) : (reportDiscards s).frmOut = s.frmOut := rfl
@[simp] theorem reportDiscards_pktOut (s : State) : (reportDiscards s).pktOut = s.pktOut := rfl
@[simp] theorem reportDiscards_diag (s : State) : (reportDiscards s).diag = s.diag ++ [.discardReport s.dz.dfc s.dz.dbc] := rfl
@[simp] theorem reportDiscards_par (s : State) : (reportDiscards s).par = s.par := rfl
@[simp] theorem reportDiscards_resetIn (s : State) : (reportDiscards s).resetIn = s.resetIn := rfl
@[simp] theorem reportDiscards_cmds (s : State) : (reportDiscards s).cmds = s.cmds := rfl

/-- The guarded report: the flag is set, and the record is written where it was not set before (R250). -/
theorem reportOnce_eq (s : State) : reportOnce s = { s with
    dz := s.dz.afterReport
    diag := s.diag ++ (if s.dz.reported then [] else [.discardReport s.dz.dfc s.dz.dbc]) } := by
  cases h : s.dz.reported
  · simp [reportOnce, reportDiscards, diagnose, h]
  · have e : s.dz.afterReport = s.dz := by
      cases hd : s.dz
      rw [hd] at h
      simp only at h
      simp [Depacketizer.afterReport, h]
    simp [reportOnce, h, e]

@[simp] theorem reportOnce_syncSr (s : State) : (reportOnce s).syncSr = s.syncSr := by simp [reportOnce_eq]
@[simp] theorem reportOnce_status (s : State) : (reportOnce s).status = s.status := by simp [reportOnce_eq]
@[simp] theorem reportOnce_result (s : State) : (reportOnce s).result = s.result := by simp [reportOnce_eq]
@[simp] theorem reportOnce_rdat (s : State) : (reportOnce s).rdat = s.rdat := by simp [reportOnce_eq]
@[simp] theorem reportOnce_cfg (s : State) : (reportOnce s).cfg = s.cfg := by simp [reportOnce_eq]
@[simp] theorem reportOnce_fb (s : State) : (reportOnce s).fb = s.fb := by simp [reportOnce_eq]
@[simp] theorem reportOnce_pb (s : State) : (reportOnce s).pb = s.pb := by simp [reportOnce_eq]
@[simp] theorem reportOnce_pz (s : State) : (reportOnce s).pz = s.pz := by simp [reportOnce_eq]
@[simp] theorem reportOnce_frmIn (s : State) : (reportOnce s).frmIn = s.frmIn := by simp [reportOnce_eq]
@[simp] theorem reportOnce_pktIn (s : State) : (reportOnce s).pktIn = s.pktIn := by simp [reportOnce_eq]
@[simp] theorem reportOnce_frmOut (s : State) : (reportOnce s).frmOut = s.frmOut := by simp [reportOnce_eq]
@[simp] theorem reportOnce_pktOut (s : State) : (reportOnce s).pktOut = s.pktOut := by simp [reportOnce_eq]
@[simp] theorem reportOnce_par (s : State) : (reportOnce s).par = s.par := by simp [reportOnce_eq]
@[simp] theorem reportOnce_resetIn (s : State) : (reportOnce s).resetIn = s.resetIn := by simp [reportOnce_eq]
@[simp] theorem reportOnce_cmds (s : State) : (reportOnce s).cmds = s.cmds := by simp [reportOnce_eq]
@[simp] theorem reportOnce_dz (s : State) : (reportOnce s).dz = s.dz.afterReport := by simp [reportOnce_eq]
@[simp] theorem reportOnce_diag (s : State) :
    (reportOnce s).diag = s.diag ++ (if s.dz.reported then [] else [.discardReport s.dz.dfc s.dz.dbc]) := by simp [reportOnce_eq]

@[simp] theorem putBytes_syncSr (v : List Byte) (s : State) : (putBytes v s).syncSr = s.syncSr := rfl
@[simp] theorem putBytes_status (v : List Byte) (s : State) : (putBytes v s).status = s.status := rfl
@[simp] theorem putBytes_result (v : List Byte) (s : State) : (putBytes v s).result = s.result := rfl
@[simp] theorem putBytes_rdat (v : List Byte) (s : State) : (putBytes v s).rdat = s.rdat := rfl
@[simp] theorem putBytes_cfg (v : List Byte) (s : State) : (putBytes v s).cfg = s.cfg := rfl
@[simp] theorem putBytes_fb (v : List Byte) (s : State) : (putBytes v s).fb = s.fb := rfl
@[simp] theorem putBytes_pb (v : List Byte) (s : State) : (putBytes v s).pb = s.pb := rfl
@[simp] theorem putBytes_dz (v : List Byte) (s : State) : (putBytes v s).dz = s.dz := rfl
@[simp] theorem putBytes_frmIn (v : List Byte) (s : State) : (putBytes v s).frmIn = s.frmIn := rfl
@[simp] theorem putBytes_pktIn (v : List Byte) (s : State) : (putBytes v s).pktIn = s.pktIn := rfl
@[simp] theorem putBytes_frmOut (v : List Byte) (s : State) : (putBytes v s).frmOut = s.frmOut := rfl
@[simp] theorem putBytes_pktOut (v : List Byte) (s : State) : (putBytes v s).pktOut = s.pktOut := rfl
@[simp] theorem putBytes_diag (v : List Byte) (s : State) : (putBytes v s).diag = s.diag := rfl
@[simp] theorem putBytes_par (v : List Byte) (s : State) : (putBytes v s).par = s.par := rfl
@[simp] theorem putBytes_resetIn (v : List Byte) (s : State) : (putBytes v s).resetIn = s.resetIn := rfl
@[simp] theorem putBytes_cmds (v : List Byte) (s : State) : (putBytes v s).cmds = s.cmds := rfl

@[simp] theorem emit_syncSr (p : BitVec 11) (s : State) : (emit p s).syncSr = s.syncSr := rfl
@[simp] theorem emit_status (p : BitVec 11) (s : State) : (emit p s).status = s.status := rfl
@[simp] theorem emit_result (p : BitVec 11) (s : State) : (emit p s).result = s.result := rfl
@[simp] theorem emit_rdat (p : BitVec 11) (s : State) : (emit p s).rdat = s.rdat := rfl
@[simp] theorem emit_cfg (p : BitVec 11) (s : State) : (emit p s).cfg = s.cfg := rfl
@[simp] theorem emit_fb (p : BitVec 11) (s : State) : (emit p s).fb = s.fb := rfl
@[simp] theorem emit_pb (p : BitVec 11) (s : State) : (emit p s).pb = s.pb := rfl
@[simp] theorem emit_dz (p : BitVec 11) (s : State) : (emit p s).dz = s.dz := rfl
@[simp] theorem emit_frmIn (p : BitVec 11) (s : State) : (emit p s).frmIn = s.frmIn := rfl
@[simp] theorem emit_pktIn (p : BitVec 11) (s : State) : (emit p s).pktIn = s.pktIn := rfl
@[simp] theorem emit_frmOut (p : BitVec 11) (s : State) : (emit p s).frmOut = s.frmOut ++ wireFrame s.pz.rand s.par s.pz.fb.recompute := rfl
@[simp] theorem emit_pktOut (p : BitVec 11) (s : State) : (emit p s).pktOut = s.pktOut := rfl
@[simp] theorem emit_diag (p : BitVec 11) (s : State) : (emit p s).diag = s.diag := rfl
@[simp] theorem emit_par (p : BitVec 11) (s : State) : (emit p s).par = s.par := rfl
@[simp] theorem emit_resetIn (p : BitVec 11) (s : State) : (emit p s).resetIn = s.resetIn := rfl
@[simp] theorem emit_cmds (p : BitVec 11) (s : State) : (emit p s).cmds = s.cmds := rfl

@[simp] theorem resetState_syncSr (s : State) : (resetState s).syncSr = State.reset.syncSr := rfl
@[simp] theorem resetState_status (s : State) : (resetState s).status = State.reset.status := rfl
@[simp] theorem resetState_result (s : State) : (resetState s).result = State.reset.result := rfl
@[simp] theorem resetState_rdat (s : State) : (resetState s).rdat = State.reset.rdat := rfl
@[simp] theorem resetState_cfg (s : State) : (resetState s).cfg = State.reset.cfg := rfl
@[simp] theorem resetState_fb (s : State) : (resetState s).fb = State.reset.fb := rfl
@[simp] theorem resetState_pb (s : State) : (resetState s).pb = State.reset.pb := rfl
@[simp] theorem resetState_pz (s : State) : (resetState s).pz = State.reset.pz := rfl
@[simp] theorem resetState_dz (s : State) : (resetState s).dz = State.reset.dz := rfl
@[simp] theorem resetState_frmIn (s : State) : (resetState s).frmIn = s.frmIn.nextPass := rfl
@[simp] theorem resetState_pktIn (s : State) : (resetState s).pktIn = s.pktIn.nextPass := rfl
@[simp] theorem resetState_frmOut (s : State) : (resetState s).frmOut = State.reset.frmOut := rfl
@[simp] theorem resetState_pktOut (s : State) : (resetState s).pktOut = State.reset.pktOut := rfl
@[simp] theorem resetState_diag (s : State) : (resetState s).diag = State.reset.diag := rfl
@[simp] theorem resetState_par (s : State) : (resetState s).par = s.par := rfl
@[simp] theorem resetState_resetIn (s : State) : (resetState s).resetIn = s.resetIn := rfl
@[simp] theorem resetState_cmds (s : State) : (resetState s).cmds = s.cmds := rfl

@[simp] theorem searchMarker_syncSr (s : State) : (searchMarker s).1.syncSr = (scan s.syncSr s.frmIn.pending).sr := rfl
@[simp] theorem searchMarker_status (s : State) : (searchMarker s).1.status = s.status := rfl
@[simp] theorem searchMarker_result (s : State) : (searchMarker s).1.result = s.result := rfl
@[simp] theorem searchMarker_rdat (s : State) : (searchMarker s).1.rdat = s.rdat := rfl
@[simp] theorem searchMarker_cfg (s : State) : (searchMarker s).1.cfg = s.cfg := rfl
@[simp] theorem searchMarker_fb (s : State) : (searchMarker s).1.fb = s.fb := rfl
@[simp] theorem searchMarker_pb (s : State) : (searchMarker s).1.pb = s.pb := rfl
@[simp] theorem searchMarker_pz (s : State) : (searchMarker s).1.pz = s.pz := rfl
@[simp] theorem searchMarker_dz (s : State) : (searchMarker s).1.dz = s.dz := rfl
@[simp] theorem searchMarker_frmIn (s : State) : (searchMarker s).1.frmIn = s.frmIn.consume (scan s.syncSr s.frmIn.pending).used := rfl
@[simp] theorem searchMarker_pktIn (s : State) : (searchMarker s).1.pktIn = s.pktIn := rfl
@[simp] theorem searchMarker_frmOut (s : State) : (searchMarker s).1.frmOut = s.frmOut := rfl
@[simp] theorem searchMarker_pktOut (s : State) : (searchMarker s).1.pktOut = s.pktOut := rfl
@[simp] theorem searchMarker_diag (s : State) : (searchMarker s).1.diag = s.diag := rfl
@[simp] theorem searchMarker_par (s : State) : (searchMarker s).1.par = s.par := rfl
@[simp] theorem searchMarker_resetIn (s : State) : (searchMarker s).1.resetIn = s.resetIn := rfl
@[simp] theorem searchMarker_cmds (s : State) : (searchMarker s).1.cmds = s.cmds := rfl

@[simp] theorem putBytes_pz_nbo (v : List Byte) (s : State) : (putBytes v s).pz.nbo = s.pz.nbo + v.length := rfl
@[simp] theorem putBytes_pz_ctr (v : List Byte) (s : State) : (putBytes v s).pz.ctr = s.pz.ctr := rfl
@[simp] theorem putBytes_pz_fb (v : List Byte) (s : State) : (putBytes v s).pz.fb = s.pz.fb.writeZone s.pz.nbo v := rfl
@[simp] theorem putBytes_pz_mode (v : List Byte) (s : State) : (putBytes v s).pz.mode = s.pz.mode := rfl
@[simp] theorem putBytes_pz_rand (v : List Byte) (s : State) : (putBytes v s).pz.rand = s.pz.rand := rfl

@[simp] theorem emit_pz_nbo (p : BitVec 11) (s : State) : (emit p s).pz.nbo = 0 := rfl
@[simp] theorem emit_pz_ctr (p : BitVec 11) (s : State) : (emit p s).pz.ctr = s.pz.ctr + 1 := rfl
@[simp] theorem emit_pz_fb (p : BitVec 11) (s : State) : (emit p s).pz.fb = s.pz.fb.recompute.setHeader { s.pz.fb.recompute.header with counter := s.pz.ctr + 1, fhp := p } :=
  rfl
@[simp] theorem emit_pz_mode (p : BitVec 11) (s : State) : (emit p s).pz.mode = s.pz.mode := rfl
@[simp] theorem emit_pz_rand (p : BitVec 11) (s : State) : (emit p s).pz.rand = s.pz.rand := rfl

@[simp] theorem consume_pending (st : InStream) (n : Nat) : (st.consume n).pending = st.pending.drop n := rfl
@[simp] theorem consume_pos (st : InStream) (n : Nat) : (st.consume n).pos = st.pos + n := rfl
@[simp] theorem consume_later (st : InStream) (n : Nat) : (st.consume n).later = st.later := rfl
@[simp] theorem nextPass_pos (st : InStream) : st.nextPass.pos = 0 := rfl
@[simp] theorem dirtyFrame_cvcdu (b : Buf Config.cvcduLen) : (dirtyFrame b).cvcdu = b := rfl
@[simp] theorem dirtyFrame_dirty (b : Buf Config.cvcduLen) : (dirtyFrame b).dirty = true := rfl
@[simp] theorem cleanFrame_cvcdu (b : Buf Config.cvcduLen) : (cleanFrame b).cvcdu = b := rfl
@[simp] theorem cleanFrame_dirty (b : Buf Config.cvcduLen) : (cleanFrame b).dirty = false := rfl
@[simp] theorem setHeader_dirty (f : Frame) (h : VcHeader) : (f.setHeader h).dirty = true := rfl
@[simp] theorem writeZone_dirty (f : Frame) (o : Nat) (v : List Byte) : (f.writeZone o v).dirty = true := rfl
@[simp] theorem recompute_dirty (f : Frame) : f.recompute.dirty = false := rfl

/-- An operation that ends well answers exactly this state. -/
@[simp] theorem finish_eq_next (s t : State) (r : Nat) (d : List Byte) :
    finish s r d = .next t ↔ { s with status := .ok, result := r, rdat := d } = t := by
  simp [finish]

/-- An operation that raises a status answers exactly this state. -/
@[simp] theorem raise_eq_next (st : Status) (s t : State) :
    raise st s = .next t ↔ { s with status := st, result := 0, rdat := [] } = t := by
  simp [raise]

end Sys2Proof.Machine
end

