-- ==== Sys2Proof/Laws/Frames.lean ====
section
/-! SUPPORT. What each write into a frame does to its header, data zone, VC_PDU and checksum field; the randomizer, the
checksum and the wire form of a frame. -/

namespace Sys2Proof.Machine

/-! ### Regions -/

@[simp] theorem vcPdu_length (f : Frame) : f.vcPdu.length = 892 := bufRead_length _ _ _ (by decide)
@[simp] theorem dataZone_length (f : Frame) : f.dataZone.length = 884 := bufRead_length _ _ _ (by decide)
@[simp] theorem checksumField_length (f : Frame) : f.checksumField.length = 128 := bufRead_length _ _ _ (by decide)

/-- The VC_PDU is the 8 header bytes and the data zone (R61, R92). -/
theorem vcPdu_eq (f : Frame) : f.vcPdu = bufRead f.cvcdu 0 8 ++ f.dataZone := by
  have hs := f.cvcdu.size
  simp only [Frame.vcPdu, Frame.dataZone, bufRead, dzAddr, List.drop_zero]
  have := List.take_add (l := f.cvcdu.bytes) (i := 8) (j := 884)
  simpa using this

/-- A CVCDU is its VC_PDU and its checksum field (R61, R92). -/
theorem cvcdu_eq (f : Frame) : f.cvcdu.bytes = f.vcPdu ++ f.checksumField := by
  simpa [Frame.vcPdu, Frame.checksumField, ckAddr] using buf_split f.cvcdu 892

/-- The 8 header bytes are the header's fields, assembled. -/
theorem headerBytes_eq (f : Frame) : bufRead f.cvcdu 0 8 = f.header.toBytes := by
  rw [Frame.header, VcHeader.toBytes_ofBytes _ (bufRead_length _ _ _ (by decide))]

/-- A frame's bytes are its header, its data zone and its checksum field. -/
theorem cvcdu_eq_parts (f : Frame) : f.cvcdu.bytes = f.header.toBytes ++ f.dataZone ++ f.checksumField := by
  rw [cvcdu_eq, vcPdu_eq, headerBytes_eq]

/-- Two frames with the same header, data zone, checksum field and flag are the same frame. -/
theorem frame_ext {f g : Frame} (h1 : f.header = g.header) (h2 : f.dataZone = g.dataZone)
    (h3 : f.checksumField = g.checksumField) (h4 : f.dirty = g.dirty) : f = g := by
  have : f.cvcdu = g.cvcdu := buf_ext (by rw [cvcdu_eq_parts, cvcdu_eq_parts, h1, h2, h3])
  cases f; cases g; simp_all

/-! ### Writing the header -/

@[simp] theorem setHeader_header (f : Frame) (h : VcHeader) : (f.setHeader h).header = h := by
  have := bufRead_bufWrite_same f.cvcdu 0 h.toBytes (by simp)
  simp only [VcHeader.toBytes_length] at this
  simp only [Frame.header, Frame.setHeader, dirtyFrame_cvcdu]
  rw [this, VcHeader.ofBytes_toBytes]

@[simp] theorem setHeader_dataZone (f : Frame) (h : VcHeader) : (f.setHeader h).dataZone = f.dataZone :=
  bufRead_bufWrite_after _ _ _ _ _ (by simp [dzAddr])

@[simp] theorem setHeader_checksumField (f : Frame) (h : VcHeader) :
    (f.setHeader h).checksumField = f.checksumField :=
  bufRead_bufWrite_after _ _ _ _ _ (by simp [ckAddr])

/-! ### Writing the data zone -/

theorem writeZone_header (f : Frame) (o : Nat) (v : List Byte) : (f.writeZone o v).header = f.header := by
  simp only [Frame.header, Frame.writeZone, dirtyFrame_cvcdu]
  rw [bufRead_bufWrite_before _ _ _ _ _ (by simp [cursorAddr, dzAddr])]

theorem writeZone_checksumField (f : Frame) (o : Nat) (v : List Byte) (h : o + v.length ≤ 884) :
    (f.writeZone o v).checksumField = f.checksumField :=
  bufRead_bufWrite_after _ _ _ _ _ (by simp [cursorAddr, dzAddr, ckAddr]; omega)

/-- Writing at offset `o`: the zone keeps what stands before, then holds what was written, then keeps the rest (R218). -/
theorem writeZone_dataZone (f : Frame) (o : Nat) (v : List Byte) (h : o + v.length ≤ 884) :
    (f.writeZone o v).dataZone = f.dataZone.take o ++ v ++ f.dataZone.drop (o + v.length) := by
  have hl : (f.dataZone).length = 884 := dataZone_length f
  rw [← overlay_eq_append _ _ _ (by omega)]
  apply List.ext_getElem?
  intro i
  have hs := f.cvcdu.size
  simp only [Frame.dataZone, Frame.writeZone, dirtyFrame_cvcdu, bufRead, bufWrite_bytes, overlay_getElem?,
    List.getElem?_take, List.getElem?_drop, List.length_take, List.length_drop, hs, cursorAddr, dzAddr,
    Config.cvcduLen, Config.dzLen]
  by_cases hi : i < 884
  · simp only [hi, if_true]
    by_cases hr : o ≤ i ∧ i < o + v.length
    · rw [if_pos (by omega), if_pos (by omega)]
      congr 1; omega
    · rw [if_neg (by omega), if_neg (by omega)]
  · simp only [hi, if_false]
    rw [if_neg (by omega)]

/-! ### The checksum -/

@[simp] theorem interleave_length (p : List (List Byte)) : (interleave p).length = 128 := by simp [interleave]
@[simp] theorem cksum_length (v : List Byte) : (cksum v).length = 128 := by simp [cksum, cksumWith]
@[simp] theorem deint_length (v : List Byte) (k : Nat) : (deint v k).length = 223 := by simp [deint]
@[simp] theorem rsEncode_length (x : List Byte) : (rsEncode x).length = 32 := by simp [rsEncode]

/-- Byte `4·i + k` of the checksum is byte `i` of the parity of sub-block `k` (R152, R153). -/
theorem cksum_byte (v : List Byte) (j : Nat) (h : j < 128) :
    (cksum v)[j]? = some (Config.rsParity (deint v (j % 4)) (j / 4)) := by
  have h1 : j % 4 < 4 := by omega
  have h2 : j / 4 < 32 := by omega
  simp [cksum, cksumWith, interleave, rsEncode, List.getElem?_map, h, h1, h2]

@[simp] theorem recompute_vcPdu (f : Frame) : f.recompute.vcPdu = f.vcPdu :=
  bufRead_bufWrite_before _ _ _ _ _ (by simp [ckAddr])

@[simp] theorem recompute_header (f : Frame) : f.recompute.header = f.header := by
  simp only [Frame.header, Frame.recompute, cleanFrame_cvcdu]
  rw [bufRead_bufWrite_before _ _ _ _ _ (by simp [ckAddr])]

@[simp] theorem recompute_dataZone (f : Frame) : f.recompute.dataZone = f.dataZone :=
  bufRead_bufWrite_before _ _ _ _ _ (by simp [ckAddr, dzAddr])

@[simp] theorem recompute_checksumField (f : Frame) : f.recompute.checksumField = cksum f.vcPdu := by
  have := bufRead_bufWrite_same f.cvcdu ckAddr (cksum f.vcPdu) (by simp [ckAddr])
  rw [cksum_length] at this
  exact this

/-! ### The randomizer -/

@[simp] theorem randFrom_length (t : List Byte) : ∀ (i : Nat) (b : List Byte), (randFrom t i b).length = b.length
  | _, [] => rfl
  | i, _ :: bs => by simp [randFrom, randFrom_length t (i + 1) bs]

/-- Byte `j` of a transformed sequence (R141). -/
theorem randFrom_getElem? (t : List Byte) : ∀ (i : Nat) (b : List Byte) (j : Nat),
    (randFrom t i b)[j]? = b[j]?.map (· ^^^ t.getD (pnIndex (i + j)) 0)
  | _, [], j => by simp [randFrom]
  | i, b :: bs, 0 => by simp [randFrom]
  | i, b :: bs, j + 1 => by
      simp only [randFrom, List.getElem?_cons_succ, randFrom_getElem? t (i + 1) bs j]
      rw [show i + 1 + j = i + (j + 1) by omega]

/-- The transform applied twice is the identity, for every table (R144). -/
@[simp] theorem randFrom_randFrom (t : List Byte) : ∀ (i : Nat) (b : List Byte),
    randFrom t i (randFrom t i b) = b
  | _, [] => rfl
  | i, b :: bs => by
      simp [randFrom, randFrom_randFrom t (i + 1) bs]

@[simp] theorem randomize_length (p : Params) (b : List Byte) : (randomize p b).length = b.length :=
  randFrom_length _ _ _

@[simp] theorem lineForm_length (v : BitVec 1) (p : Params) (b : List Byte) : (lineForm v p b).length = b.length := by
  unfold lineForm; split <;> simp

/-- Each variant undoes itself (R144, R145). -/
@[simp] theorem lineForm_lineForm (v : BitVec 1) (p : Params) (b : List Byte) :
    lineForm v p (lineForm v p b) = b := by
  unfold lineForm; split <;> simp [randomize]

/-! ### The frame on the wire -/

@[simp] theorem asmBytes_length : asmBytes.length = 4 := rfl

/-- A serialized frame has 1024 bytes (R90). -/
@[simp] theorem wireFrame_length (v : BitVec 1) (p : Params) (f : Frame) : (wireFrame v p f).length = 1024 := by
  simp [wireFrame, f.cvcdu.size]

@[simp] theorem settle_dirty (f : Frame) : f.settle.dirty = false := by
  unfold Frame.settle; split <;> simp_all

@[simp] theorem settle_vcPdu (f : Frame) : f.settle.vcPdu = f.vcPdu := by
  unfold Frame.settle; split <;> simp

end Sys2Proof.Machine
end

