-- ==== Sys2Proof/Laws/Streams.lean ====
section
/-! SUPPORT. What a stream read and a marker search can do. -/

namespace Sys2Proof.Machine

/-- A read delivers all it was asked for, or everything that is left (R66). -/
theorem streamRead_cases (st : InStream) (n : Nat) :
    (n ≤ st.pending.length ∧ streamRead st n = (.full (st.pending.take n), st.consume n)) ∨
    (st.pending.length < n ∧ streamRead st n = (.short st.pending.length, st.consume st.pending.length)) := by
  unfold streamRead
  split
  · exact .inl ⟨‹_›, rfl⟩
  · exact .inr ⟨by omega, rfl⟩

theorem streamRead_full (st : InStream) (n : Nat) (h : n ≤ st.pending.length) :
    streamRead st n = (.full (st.pending.take n), st.consume n) := by simp [streamRead, h]

theorem streamRead_short (st : InStream) (n : Nat) (h : st.pending.length < n) :
    streamRead st n = (.short st.pending.length, st.consume st.pending.length) := by
  simp [streamRead, Nat.not_le.mpr h]

/-- The shift register as a number (R131). -/
theorem shiftIn_toNat (sr : BitVec 32) (b : Byte) : (shiftIn sr b).toNat = (sr.toNat * 256 + b.toNat) % 2 ^ 32 := by
  have hb := b.isLt
  have h0 : (b.setWidth 32).toNat = b.toNat := by simp; omega
  have h1 : (sr <<< 8).toNat = (sr.toNat * 256) % 2 ^ 32 := by simp [Nat.shiftLeft_eq]
  have h2 : (sr.toNat * 256) % 2 ^ 32 = (sr.toNat % 2 ^ 24) <<< 8 := by rw [Nat.shiftLeft_eq]; omega
  rw [shiftIn, BitVec.toNat_or, h0, h1, h2, ← Nat.shiftLeft_add_eq_or_of_lt (by omega), Nat.shiftLeft_eq]
  omega

/-- Four bytes fill the register: it holds them in wire order, whatever stood in it before (R70). -/
theorem shift_four (sr : BitVec 32) (a b c d : Byte) :
    (shiftIn (shiftIn (shiftIn (shiftIn sr a) b) c) d).toNat = beNat [a, b, c, d] := by
  have := a.isLt; have := b.isLt; have := c.isLt; have := d.isLt
  simp only [shiftIn_toNat, beNat, List.length_cons, List.length_nil]
  omega

@[simp] theorem shiftAll_nil (sr : BitVec 32) : shiftAll sr [] = sr := rfl
@[simp] theorem shiftAll_cons (sr : BitVec 32) (b : Byte) (l : List Byte) :
    shiftAll sr (b :: l) = shiftAll (shiftIn sr b) l := rfl

/-- What a search can do: it stops at the first byte that completes a marker, or it shifts every byte in without one
(R132). -/
theorem scan_cases : ∀ (sr : BitVec 32) (l : List Byte),
    (scan sr l).used ≤ l.length ∧ (scan sr l).sr = shiftAll sr (l.take (scan sr l).used) ∧
    (∀ j, 1 ≤ j → j < (scan sr l).used → isMarker (shiftAll sr (l.take j)) = false) ∧
    ((scan sr l).found = true → 1 ≤ (scan sr l).used ∧ isMarker (scan sr l).sr = true) ∧
    ((scan sr l).found = false → (scan sr l).used = l.length ∧
      ∀ j, 1 ≤ j → j ≤ l.length → isMarker (shiftAll sr (l.take j)) = false)
  | sr, [] => by simp [scan]; omega
  | sr, b :: l => by
      obtain ⟨h1, h2, h3, h4, h5⟩ := scan_cases (shiftIn sr b) l
      by_cases hm : isMarker (shiftIn sr b) = true
      · simp only [scan, hm, if_true]
        simp
        omega
      · have hm' : isMarker (shiftIn sr b) = false := by simpa using hm
        simp only [scan, hm', if_false, Bool.false_eq_true]
        refine ⟨by simp; omega, by simp [h2], ?_, ?_, ?_⟩
        · intro j hj hlt
          cases j with
          | zero => omega
          | succ j =>
            simp only [List.take_succ_cons, shiftAll_cons]
            rcases Nat.eq_zero_or_pos j with rfl | hp
            · simpa using hm'
            · exact h3 j hp (by omega)
        · intro hf
          exact ⟨by omega, (h4 hf).2⟩
        · intro hf
          obtain ⟨ha, hb⟩ := h5 hf
          refine ⟨by simp [ha], ?_⟩
          intro j hj hle
          cases j with
          | zero => omega
          | succ j =>
            simp only [List.take_succ_cons, shiftAll_cons]
            rcases Nat.eq_zero_or_pos j with rfl | hp
            · simpa using hm'
            · exact hb j hp (by simpa using hle)

theorem shiftAll_append (sr : BitVec 32) (l m : List Byte) : shiftAll sr (l ++ m) = shiftAll (shiftAll sr l) m := by
  simp [shiftAll]

end Sys2Proof.Machine
end

