-- ==== Sys2Proof/Laws/Search.lean ====
section
/-! SUPPORT. Where the marker search ends (R132, R135). -/

namespace Sys2Proof.Machine

theorem isMarker_iff (x : BitVec 32) : isMarker x = true ↔ x = 0x1ACFFC1D#32 := by simp [isMarker, Config.asm]

theorem isMarker_not (x : BitVec 32) : isMarker x = false ↔ x ≠ 0x1ACFFC1D#32 := by simp [isMarker, Config.asm]

/-- A search that has a first match ends there. -/
theorem scan_first (sr : BitVec 32) (l : List Byte) (k : Nat) (h : FirstMatch sr l k) :
    scan sr l = { sr := 0x1ACFFC1D#32, used := k, found := true } := by
  obtain ⟨h1, h2, h3, h4⟩ := h
  obtain ⟨c1, c2, c3, c4, c5⟩ := scan_cases sr l
  have hf : (scan sr l).found = true := by
    by_contra hn
    have := (c5 (by simpa using hn)).2 k h1 h2
    rw [isMarker_not] at this
    exact this h3
  obtain ⟨d1, d2⟩ := c4 hf
  rw [isMarker_iff] at d2
  have hk : (scan sr l).used = k := by
    rcases Nat.lt_trichotomy (scan sr l).used k with hlt | he | hgt
    · exact absurd (c2 ▸ d2) (h4 _ d1 hlt)
    · exact he
    · have := c3 k h1 hgt
      rw [isMarker_not] at this
      exact absurd h3 this
  cases hs : scan sr l
  simp_all

/-- A search without a match shifts every byte in. -/
theorem scan_none (sr : BitVec 32) (l : List Byte) (h : NoMatch sr l) :
    scan sr l = { sr := shiftAll sr l, used := l.length, found := false } := by
  obtain ⟨c1, c2, c3, c4, c5⟩ := scan_cases sr l
  have hf : (scan sr l).found = false := by
    by_contra hn
    obtain ⟨d1, d2⟩ := c4 (by simpa using hn)
    rw [isMarker_iff, c2] at d2
    exact h _ d1 c1 d2
  have := (c5 hf).1
  cases hs : scan sr l
  simp_all

/-- Every finite stream has a first match or none. -/
theorem match_or_none (sr : BitVec 32) (l : List Byte) : NoMatch sr l ∨ ∃ k, FirstMatch sr l k := by
  obtain ⟨c1, c2, c3, c4, c5⟩ := scan_cases sr l
  cases hf : (scan sr l).found
  · left
    intro j h1 h2
    have := (c5 hf).2 j h1 h2
    rwa [isMarker_not] at this
  · right
    obtain ⟨d1, d2⟩ := c4 hf
    rw [isMarker_iff, c2] at d2
    refine ⟨_, d1, c1, d2, fun j a b => ?_⟩
    have := c3 j a b
    rwa [isMarker_not] at this

/-- Four bytes make the register the marker exactly when they are the marker (R70). -/
theorem shiftAll_four (sr : BitVec 32) (l : List Byte) (h : l.length = 4) :
    shiftAll sr l = 0x1ACFFC1D#32 ↔ l = [0x1A, 0xCF, 0xFC, 0x1D] := by
  match l, h with
  | [a, b, c, d], _ =>
    have hs : (shiftAll sr [a, b, c, d]).toNat = beNat [a, b, c, d] := shift_four sr a b c d
    have e : beNat [0x1A, 0xCF, 0xFC, 0x1D] = 0x1ACFFC1D := by decide
    constructor
    · intro h
      have h3 : beNat [a, b, c, d] = 0x1ACFFC1D := by rw [← hs, h]; rfl
      have h2 : beBytes 4 (beNat [a, b, c, d]) = [a, b, c, d] := beBytes_beNat [a, b, c, d]
      rw [h3] at h2
      rw [← h2]; rfl
    · intro h
      rw [h] at hs
      rw [h]
      apply BitVec.eq_of_toNat_eq
      rw [hs, e]; rfl

/-- Behind four bytes or more, a match says that the marker stands right before. -/
theorem shiftAll_take (sr : BitVec 32) (l : List Byte) (j : Nat) (h : 4 ≤ j) (hl : j ≤ l.length) :
    shiftAll sr (l.take j) = 0x1ACFFC1D#32 ↔ markerAt l (j - 4) := by
  have : l.take j = l.take (j - 4) ++ (l.drop (j - 4)).take 4 := by
    rw [← List.take_add]; congr 1; omega
  rw [this, shiftAll_append, shiftAll_four _ _ (by simp; omega)]
  rfl

/-- The marker has no proper self-overlap, nor with zeros: no match before four new bytes (R135). -/
theorem no_early_match (sr : BitVec 32) (hsr : sr = 0 ∨ sr = 0x1ACFFC1D#32) (l : List Byte) (j : Nat) (h1 : 1 ≤ j)
    (h3 : j ≤ 3) (hl : j ≤ l.length) : shiftAll sr (l.take j) ≠ 0x1ACFFC1D#32 := by
  intro h
  have h' := congrArg BitVec.toNat h
  have e : (0x1ACFFC1D#32).toNat = 0x1ACFFC1D := rfl
  have hz : sr.toNat = 0 ∨ sr.toNat = 0x1ACFFC1D := by rcases hsr with rfl | rfl <;> simp
  rw [e] at h'
  match l, j, h1, h3, hl with
  | [], j, _, _, hl => simp at hl; omega
  | a :: _, 1, _, _, _ =>
    have h2 : (shiftIn sr a).toNat = 0x1ACFFC1D := h'
    have := a.isLt
    rw [shiftIn_toNat] at h2
    omega
  | a :: b :: _, 2, _, _, _ =>
    have h2 : (shiftIn (shiftIn sr a) b).toNat = 0x1ACFFC1D := h'
    have := a.isLt
    have := b.isLt
    rw [shiftIn_toNat, shiftIn_toNat] at h2
    omega
  | a :: b :: c :: _, 3, _, _, _ =>
    have h2 : (shiftIn (shiftIn (shiftIn sr a) b) c).toNat = 0x1ACFFC1D := h'
    have := a.isLt
    have := b.isLt
    have := c.isLt
    rw [shiftIn_toNat, shiftIn_toNat, shiftIn_toNat] at h2
    omega

theorem markerAt_length (l : List Byte) (k : Nat) (h : markerAt l k) : k + 4 ≤ l.length := by
  have := congrArg List.length h
  simp at this
  omega

/-- Where a whole marker comes next, it is the first match, whatever stands in the register. -/
theorem firstMatch_marker (sr : BitVec 32) (l : List Byte) : FirstMatch sr ([0x1A, 0xCF, 0xFC, 0x1D] ++ l) 4 := by
  refine ⟨by omega, by simp, ?_, ?_⟩
  · show shiftAll sr [0x1A, 0xCF, 0xFC, 0x1D] = _
    rw [shiftAll_four _ _ rfl]
  · intro j h1 h2 h
    have h' := congrArg BitVec.toNat h
    have e : (0x1ACFFC1D#32).toNat = 0x1ACFFC1D := rfl
    have e1 : (0x1A : Byte).toNat = 0x1A := rfl
    have e2 : (0xCF : Byte).toNat = 0xCF := rfl
    have e3 : (0xFC : Byte).toNat = 0xFC := rfl
    rw [e] at h'
    have := sr.isLt
    match j, h1, h2 with
    | 1, _, _ =>
      have h2 : (shiftIn sr 0x1A).toNat = 0x1ACFFC1D := h'
      rw [shiftIn_toNat, e1] at h2
      omega
    | 2, _, _ =>
      have h2 : (shiftIn (shiftIn sr 0x1A) 0xCF).toNat = 0x1ACFFC1D := h'
      rw [shiftIn_toNat, shiftIn_toNat, e1, e2] at h2
      omega
    | 3, _, _ =>
      have h2 : (shiftIn (shiftIn (shiftIn sr 0x1A) 0xCF) 0xFC).toNat = 0x1ACFFC1D := h'
      rw [shiftIn_toNat, shiftIn_toNat, shiftIn_toNat, e1, e2, e3] at h2
      omega

/-- Consuming twice is consuming once. -/
theorem eaten_eaten (st : InStream) (a b : Nat) : eaten (eaten st a) b = eaten st (a + b) := by
  simp [eaten, List.drop_drop, Nat.add_assoc]

theorem eaten_zero (st : InStream) : eaten st 0 = st := rfl

end Sys2Proof.Machine
end

