-- ==== Sys2Proof/Laws/Cases.lean ====
section
/-! SUPPORT. One lemma per operation that can end in more than one way: everything it can answer, in the terms of the
statements (`okEnd`, `statusEnd`), so that no proof about all operations unfolds a meaning. -/

namespace Sys2Proof.Machine

theorem finish_eq (s : State) (r : Nat) (d : List Byte) : finish s r d = .next (okEnd s r d) := rfl
theorem raise_eq (st : Status) (s : State) : raise st s = .next (statusEnd s st) := rfl

/-! ### Writing a field or a register (R171, R194, R260) -/

theorem cfgSet_ok (w v : Nat) (c : Cfg) (s : State) (h : v < 2 ^ w) :
    cfgSet w v c s = .next (okEnd { s with cfg := c } 0 []) := by simp [cfgSet, fits, h, finish_eq]
theorem cfgSet_range (w v : Nat) (c : Cfg) (s : State) (h : 2 ^ w ≤ v) :
    cfgSet w v c s = .next (statusEnd s .fieldRange) := by simp [cfgSet, fits, Nat.not_lt.mpr h, raise_eq]
theorem caduSet_ok (w v : Nat) (h : VcHeader) (s : State) (hv : v < 2 ^ w) :
    caduSet w v h s = .next (okEnd { s with fb := s.fb.setHeader h } 0 []) := by simp [caduSet, fits, hv, finish_eq]
theorem caduSet_range (w v : Nat) (h : VcHeader) (s : State) (hv : 2 ^ w ≤ v) :
    caduSet w v h s = .next (statusEnd s .fieldRange) := by simp [caduSet, fits, Nat.not_lt.mpr hv, raise_eq]
theorem pktSet_ok (w v : Nat) (h : PktHeader) (s : State) (hv : v < 2 ^ w) :
    pktSet w v h s = .next (okEnd { s with pb := s.pb.setHeader h } 0 []) := by simp [pktSet, fits, hv, finish_eq]
theorem pktSet_range (w v : Nat) (h : PktHeader) (s : State) (hv : 2 ^ w ≤ v) :
    pktSet w v h s = .next (statusEnd s .fieldRange) := by simp [pktSet, fits, Nat.not_lt.mpr hv, raise_eq]

theorem cfgSet_cases (w v : Nat) (c : Cfg) (s : State) :
    cfgSet w v c s = .next (okEnd { s with cfg := c } 0 []) ∨ cfgSet w v c s = .next (statusEnd s .fieldRange) := by
  rcases Nat.lt_or_ge v (2 ^ w) with h | h
  · exact .inl (cfgSet_ok _ _ _ _ h)
  · exact .inr (cfgSet_range _ _ _ _ h)
theorem caduSet_cases (w v : Nat) (h : VcHeader) (s : State) :
    caduSet w v h s = .next (okEnd { s with fb := s.fb.setHeader h } 0 []) ∨
    caduSet w v h s = .next (statusEnd s .fieldRange) := by
  rcases Nat.lt_or_ge v (2 ^ w) with hv | hv
  · exact .inl (caduSet_ok _ _ _ _ hv)
  · exact .inr (caduSet_range _ _ _ _ hv)
theorem pktSet_cases (w v : Nat) (h : PktHeader) (s : State) :
    pktSet w v h s = .next (okEnd { s with pb := s.pb.setHeader h } 0 []) ∨
    pktSet w v h s = .next (statusEnd s .fieldRange) := by
  rcases Nat.lt_or_ge v (2 ^ w) with hv | hv
  · exact .inl (pktSet_ok _ _ _ _ hv)
  · exact .inr (pktSet_range _ _ _ _ hv)

/-! ### The synchronizer and the frame codec -/

theorem execSyncShift_cons (s : State) (b : Byte) (rest : List Byte) (h : s.frmIn.pending = b :: rest) :
    execSyncShift s = .next (okEnd { s with syncSr := shiftIn s.syncSr b, frmIn := eaten s.frmIn 1 }
      (matchResult (shiftIn s.syncSr b)) []) := by
  have hr : streamRead s.frmIn 1 = (.full [b], s.frmIn.consume 1) := by
    rw [streamRead_full _ _ (by simp [h])]; simp [h]
  simp only [execSyncShift, hr]
  rfl

theorem execSyncShift_nil (s : State) (h : s.frmIn.pending = []) :
    execSyncShift s = .next (statusEnd s .endOfStream) := by
  have hr : streamRead s.frmIn 1 = (.short 0, s.frmIn) := by
    rw [streamRead_short _ _ (by simp [h])]
    simp [h, InStream.consume]
    have : ([] : List Byte) = s.frmIn.pending := h.symm
    rw [this]
  simp only [execSyncShift, hr]
  rfl

theorem execSyncFind_first (s : State) (k : Nat) (h : FirstMatch s.syncSr s.frmIn.pending k) :
    execSyncFind s = .next (okEnd { s with syncSr := 0x1ACFFC1D#32, frmIn := eaten s.frmIn k } (s.frmIn.pos + k - 4) []) := by
  simp only [execSyncFind, searchMarker, scan_first _ _ _ h]
  rfl

theorem execSyncFind_none (s : State) (h : NoMatch s.syncSr s.frmIn.pending) :
    execSyncFind s = .next (statusEnd { s with
      syncSr := shiftAll s.syncSr s.frmIn.pending, frmIn := eaten s.frmIn s.frmIn.pending.length } .endOfStream) := by
  simp only [execSyncFind, searchMarker, scan_none _ _ h]
  rfl

theorem readBody_full (s : State) (off : Nat) (h : 1020 ≤ s.frmIn.pending.length) :
    readBody s off = .next (okEnd { s with
      frmIn := eaten s.frmIn 1020
      fb := { cvcdu := bufOfList _ (lineForm s.cfg.randomize s.par (s.frmIn.pending.take 1020)), dirty := false } }
      off []) := by
  simp only [readBody, streamRead_full _ _ h]
  rfl

theorem readBody_short (s : State) (off : Nat) (h : s.frmIn.pending.length < 1020) :
    readBody s off = .next (statusEnd { s with
      frmIn := eaten s.frmIn s.frmIn.pending.length
      diag := s.diag ++ [.decodeFailure .truncated (s.frmIn.pos + s.frmIn.pending.length)] } .truncated) := by
  simp only [readBody, streamRead_short _ _ h]
  rfl

/-- `CADU.READ` after the first match reads the body from there (R175). -/
theorem execCaduRead_first (s : State) (k : Nat) (h : FirstMatch s.syncSr s.frmIn.pending k) :
    execCaduRead s =
      readBody { s with syncSr := 0x1ACFFC1D#32, frmIn := eaten s.frmIn k } (s.frmIn.pos + k - 4) := by
  simp only [execCaduRead, searchMarker, scan_first _ _ _ h]
  rfl

theorem execCaduRead_none (s : State) (h : NoMatch s.syncSr s.frmIn.pending) :
    execCaduRead s = .next (statusEnd { s with
      syncSr := shiftAll s.syncSr s.frmIn.pending, frmIn := eaten s.frmIn s.frmIn.pending.length } .endOfStream) := by
  simp only [execCaduRead, searchMarker, scan_none _ _ h]
  rfl

theorem execCaduRead_full (s : State) (k : Nat) (h : FirstMatch s.syncSr s.frmIn.pending k)
    (hl : k + 1020 ≤ s.frmIn.pending.length) :
    execCaduRead s = .next (okEnd { s with
      syncSr := 0x1ACFFC1D#32
      frmIn := eaten s.frmIn (k + 1020)
      fb := { cvcdu := bufOfList _ (lineForm s.cfg.randomize s.par ((s.frmIn.pending.drop k).take 1020)), dirty := false } }
      (s.frmIn.pos + k - 4) []) := by
  have hl2 : 1020 ≤ (eaten s.frmIn k).pending.length := by simp [eaten]; omega
  rw [execCaduRead_first s k h, readBody_full _ _ hl2]
  simp only [eaten_eaten]
  rfl

theorem execCaduRead_short (s : State) (k : Nat) (h : FirstMatch s.syncSr s.frmIn.pending k)
    (hl : s.frmIn.pending.length < k + 1020) :
    execCaduRead s = .next (statusEnd { s with
      syncSr := 0x1ACFFC1D#32
      frmIn := eaten s.frmIn s.frmIn.pending.length
      diag := s.diag ++ [.decodeFailure .truncated (s.frmIn.pos + s.frmIn.pending.length)] } .truncated) := by
  have hl2 : (eaten s.frmIn k).pending.length < 1020 := by simp [eaten]; omega
  rw [execCaduRead_first s k h, readBody_short _ _ hl2]
  simp only [eaten_eaten]
  have e : (eaten s.frmIn k).pending.length = s.frmIn.pending.length - k := by simp [eaten]
  have hk := h.2.1
  have e2 : (eaten s.frmIn k).pos = s.frmIn.pos + k := rfl
  rw [e, e2, show k + (s.frmIn.pending.length - k) = s.frmIn.pending.length by omega,
    show s.frmIn.pos + k + (s.frmIn.pending.length - k) = s.frmIn.pos + s.frmIn.pending.length by omega]

theorem execCaduSetdata_ok (dat : List Byte) (s : State) (h : dat.length = 884) :
    execCaduSetdata dat s = .next (okEnd { s with fb := s.fb.writeZone 0 dat } 0 []) := by
  simp [execCaduSetdata, h, finish_eq]
theorem execCaduSetdata_range (dat : List Byte) (s : State) (h : dat.length ≠ 884) :
    execCaduSetdata dat s = .next (statusEnd s .fieldRange) := by simp [execCaduSetdata, h, raise_eq]

theorem execCkValidate_eq (s : State) : execCkValidate s =
    if s.fb.dirty then .next (statusEnd s .checksumInvalid)
    else if s.fb.checksumMatches then .next (okEnd s 1 []) else .next (statusEnd s .checksumInvalid) := rfl

/-! ### The packet codec -/

/-- The recomputed length bytes make the packet that R199 and R200 describe. -/
theorem recalc_eq (p : Packet) : p.recalc = { p with hdr := p.recalc.hdr, lenStale := false } := by
  unfold Packet.recalc
  split
  · rfl
  · rename_i h
    cases p
    simp_all

theorem recalc_serialize (p : Packet) : p.recalc.serialize = packetBytes p := by
  unfold Packet.recalc packetBytes
  have hs := p.hdr.size
  split
  · simp only [Packet.serialize, bufWrite_bytes]
    rw [overlay_eq_append _ _ _ (by simp [hs])]
    simp [hs]
  · rfl

theorem execPktWrite_ok (s : State) (h : s.pb.hasData = true) :
    execPktWrite s = .next (okEnd { s with pb := s.pb.recalc, pktOut := s.pktOut ++ packetBytes s.pb }
      (6 + s.pb.data.length) []) := by
  simp only [execPktWrite, h, if_true, recalc_serialize]
  rfl

theorem execPktWrite_none (s : State) (h : s.pb.hasData = false) :
    execPktWrite s = .next (statusEnd s .invalidPacket) := by simp [execPktWrite, h, raise_eq]

theorem execPktRead_nil (s : State) (h : s.pktIn.pending = []) :
    execPktRead s = .next (statusEnd s .endOfStream) := by
  have hr : streamRead s.pktIn 6 = (.short 0, s.pktIn) := by
    rw [streamRead_short _ _ (by simp [h])]
    simp [h, InStream.consume]
    have : ([] : List Byte) = s.pktIn.pending := h.symm
    rw [this]
  simp only [execPktRead, Config.pktHdrLen, hr]
  rfl

/-- The length field of the header about to be read. -/
theorem drop_four_take (l : List Byte) : (l.take 6).drop 4 = (l.drop 4).take 2 := by
  rw [List.drop_take]

theorem execPktRead_short (s : State) (h1 : 1 ≤ s.pktIn.pending.length)
    (h2 : s.pktIn.pending.length < 6 + (beNat ((s.pktIn.pending.drop 4).take 2) + 1)) :
    execPktRead s = .next (statusEnd { s with
      pktIn := eaten s.pktIn s.pktIn.pending.length
      diag := s.diag ++ [.decodeFailure .truncated (s.pktIn.pos + s.pktIn.pending.length)] } .truncated) := by
  rcases Nat.lt_or_ge s.pktIn.pending.length 6 with h6 | h6
  · simp only [execPktRead, Config.pktHdrLen, streamRead_short _ _ h6]
    obtain ⟨m, hm⟩ : ∃ m, s.pktIn.pending.length = m + 1 := ⟨_, (Nat.sub_add_cancel h1).symm⟩
    rw [hm]
    rfl
  · have e1 : (s.pktIn.consume 6).pending.length = s.pktIn.pending.length - 6 := by simp [InStream.consume]
    simp only [execPktRead, Config.pktHdrLen, streamRead_full _ _ h6, readData, drop_four_take]
    rw [streamRead_short _ _ (by rw [e1]; omega), e1]
    have e2 : (s.pktIn.consume 6).consume (s.pktIn.pending.length - 6) = eaten s.pktIn s.pktIn.pending.length := by
      show eaten (eaten s.pktIn 6) _ = _
      rw [eaten_eaten, show 6 + (s.pktIn.pending.length - 6) = s.pktIn.pending.length by omega]
    rw [e2]
    rfl

theorem execPktRead_full (s : State) (n : Nat) (hn : n = beNat ((s.pktIn.pending.drop 4).take 2) + 1)
    (h : 6 + n ≤ s.pktIn.pending.length) :
    execPktRead s = .next (okEnd { s with
      pktIn := eaten s.pktIn (6 + n)
      pb := freshPacket (bufOfList _ (s.pktIn.pending.take 6)) ((s.pktIn.pending.drop 6).take n) } (6 + n) []) := by
  have e1 : (s.pktIn.consume 6).pending.length = s.pktIn.pending.length - 6 := by simp [InStream.consume]
  simp only [execPktRead, Config.pktHdrLen, streamRead_full _ _ (show 6 ≤ s.pktIn.pending.length by omega), readData,
    drop_four_take, ← hn]
  rw [streamRead_full _ _ (by rw [e1]; omega)]
  have e2 : (s.pktIn.consume 6).consume n = eaten s.pktIn (6 + n) := by
    show eaten (eaten s.pktIn 6) _ = _
    rw [eaten_eaten]
  simp only [e2]
  rfl

/-! ### The depacketizer -/

/-- The pointer of a frame, as a number. -/
theorem fhp_value (f : Frame) : FrameField.value f.cvcdu .fhp = f.header.fhp.toNat := by
  simp [FrameField.value, Frame.header, VcHeader.ofBytes, FrameField.lo, FrameField.width, bufRead]

theorem execDzPush_seen (s : State) (h : s.dz.seen = true) :
    execDzPush s = .next (okEnd { s with pktOut := s.pktOut ++ s.fb.dataZone } 884 []) := by
  simp only [execDzPush, h, if_true]
  rfl

theorem execDzPush_none (s : State) (h : s.dz.seen = false) (hp : s.fb.header.fhp.toNat = 2047)
    (hc : countFits s.par.dfcWidth (s.dz.dfc + 1) = true) :
    execDzPush s = .next (okEnd { s with dz := { s.dz with dfc := s.dz.dfc + 1 } } 0 []) := by
  have e : Config.fhpNone.toNat = 2047 := rfl
  simp only [execDzPush, h, hp, e, discardFrame, hc, if_true]
  rfl

theorem execDzPush_overflow (s : State) (h : s.dz.seen = false) (hp : s.fb.header.fhp.toNat = 2047)
    (hc : countFits s.par.dfcWidth (s.dz.dfc + 1) = false) : execDzPush s = .fault .dfcOverflow := by
  have e : Config.fhpNone.toNat = 2047 := rfl
  simp only [execDzPush, h, hp, e, discardFrame, hc, if_true]
  rfl

theorem execDzPush_invalid (s : State) (h : s.dz.seen = false) (h1 : 885 ≤ s.fb.header.fhp.toNat)
    (h2 : s.fb.header.fhp.toNat ≤ 2046) :
    execDzPush s = .next (statusEnd { s with
      diag := s.diag ++ [.decodeFailure .invalidPointer s.fb.header.fhp.toNat] } .invalidPointer) := by
  have e : Config.fhpNone.toNat = 2047 := rfl
  simp only [execDzPush, h, e]
  rw [if_neg (by simp), if_neg (by omega), if_pos (by simp only [Config.dzLen]; omega)]
  rfl

theorem execDzPush_align (s : State) (h : s.dz.seen = false) (hp : s.fb.header.fhp.toNat ≤ 884) :
    execDzPush s = .next (okEnd { s with
      pktOut := s.pktOut ++ s.fb.dataZone.drop s.fb.header.fhp.toNat
      dz := { s.dz with seen := true, reported := true, dbc := s.fb.header.fhp.toNat }
      diag := s.diag ++ (if s.dz.reported then [] else [.discardReport s.dz.dfc s.fb.header.fhp.toNat]) }
      (884 - s.fb.header.fhp.toNat) []) := by
  have e : Config.fhpNone.toNat = 2047 := rfl
  have ez : s.fb.dataZone.drop s.fb.header.fhp.toNat =
      bufRead s.fb.cvcdu (pointerAddr s.fb.header.fhp.toNat) (Config.dzLen - s.fb.header.fhp.toNat) := by
    simp [Frame.dataZone, bufRead, pointerAddr, dzAddr, List.drop_take, List.drop_drop]
  simp only [execDzPush, h, e]
  rw [if_neg (by simp), if_neg (by omega), if_neg (by simp only [Config.dzLen]; omega), ez]
  simp only [alignFrame, reportOnce_eq, Config.dzLen]
  rfl

/-! ### Everything an operation can answer -/

theorem execCaduRead_cases (s : State) :
   (∃ k b, FirstMatch s.syncSr s.frmIn.pending k ∧ k + 1020 ≤ s.frmIn.pending.length ∧ execCaduRead s = .next (okEnd { s with
      syncSr := shiftAll s.syncSr (s.frmIn.pending.take k)
      frmIn := eaten s.frmIn (k + 1020)
      fb := { cvcdu := b, dirty := false } } (s.frmIn.pos + k - 4) [])) ∨
   (∃ k, execCaduRead s = .next (statusEnd { s with
      syncSr := shiftAll s.syncSr (s.frmIn.pending.take k)
      frmIn := eaten s.frmIn s.frmIn.pending.length
      diag := s.diag ++ [.decodeFailure .truncated (s.frmIn.pos + s.frmIn.pending.length)] } .truncated)) ∨
   execCaduRead s = .next (statusEnd { s with
      syncSr := shiftAll s.syncSr (s.frmIn.pending.take s.frmIn.pending.length), frmIn := eaten s.frmIn s.frmIn.pending.length } .endOfStream) := by
  rcases match_or_none s.syncSr s.frmIn.pending with h | ⟨k, h⟩
  · right; right
    rw [List.take_length]; exact execCaduRead_none s h
  · by_cases hl : k + 1020 ≤ s.frmIn.pending.length
    · left; exact ⟨k, _, h, hl, by rw [h.2.2.1]; exact execCaduRead_full s k h hl⟩
    · right; left; exact ⟨k, by rw [h.2.2.1]; exact execCaduRead_short s k h (by omega)⟩

theorem execPktRead_cases (s : State) :
   (∃ n b, n ≤ s.pktIn.pending.length ∧ execPktRead s = .next (okEnd { s with
      pktIn := eaten s.pktIn n
      pb := b } n []) ∧ b.hasData = true ∧ b.lenStale = false ∧ beNat (bufRead b.hdr 4 2) + 1 = b.data.length) ∨
   execPktRead s = .next (statusEnd s .endOfStream) ∧ s.pktIn.pending = [] ∨
   execPktRead s = .next (statusEnd { s with
      pktIn := eaten s.pktIn s.pktIn.pending.length
      diag := s.diag ++ [.decodeFailure .truncated (s.pktIn.pos + s.pktIn.pending.length)] } .truncated) := by
  rcases Nat.eq_zero_or_pos s.pktIn.pending.length with h | h
  · right; left
    have := List.eq_nil_of_length_eq_zero h
    exact ⟨execPktRead_nil s this, this⟩
  · by_cases hl : 6 + (beNat ((s.pktIn.pending.drop 4).take 2) + 1) ≤ s.pktIn.pending.length
    · left
      refine ⟨_, _, hl, execPktRead_full s _ rfl hl, rfl, rfl, ?_⟩
      have e : (bufOfList Config.pktHdrLen (s.pktIn.pending.take 6)).bytes = s.pktIn.pending.take 6 := bufOfList_bytes _ (by simp; omega)
      simp only [freshPacket, bufRead, e]
      rw [drop_four_take, List.take_take]
      simp
      omega
    · right; right
      exact execPktRead_short s h (by omega)

theorem execSyncShift_cases (s : State) :
  (∃ r, 1 ≤ s.frmIn.pending.length ∧ execSyncShift s = .next (okEnd {s with syncSr := shiftAll s.syncSr (s.frmIn.pending.take 1), frmIn := eaten s.frmIn 1} r []))
  ∨
    execSyncShift s = .next (statusEnd s .endOfStream) ∧ s.frmIn.pending = [] := by
  cases h : s.frmIn.pending with
  | nil => exact .inr ⟨execSyncShift_nil s h, rfl⟩
  | cons b l => exact .inl ⟨_, by simp, execSyncShift_cons s b l h⟩

theorem execSyncFind_cases (s : State) :
  (∃ k r, k ≤ s.frmIn.pending.length ∧ execSyncFind s = .next (okEnd {s with syncSr := shiftAll s.syncSr (s.frmIn.pending.take k), frmIn := eaten s.frmIn k} r []))
  ∨
    execSyncFind s = .next (statusEnd {s with syncSr := shiftAll s.syncSr (s.frmIn.pending.take s.frmIn.pending.length), frmIn := eaten s.frmIn s.frmIn.pending.length} .endOfStream) := by
  rcases match_or_none s.syncSr s.frmIn.pending with h | ⟨k, h⟩
  · right; rw [List.take_length]; exact execSyncFind_none s h
  · left; exact ⟨k, _, h.2.1, by rw [h.2.2.1]; exact execSyncFind_first s k h⟩

theorem execDzPush_cases (s : State) :
  execDzPush s = .next (okEnd { s with pktOut := s.pktOut ++ s.fb.dataZone } 884 []) ∧ s.dz.seen = true ∨
  (execDzPush s = .next (okEnd { s with dz := { s.dz with dfc := s.dz.dfc + 1 } } 0 []) ∧ s.dz.seen = false ∧ countFits s.par.dfcWidth (s.dz.dfc + 1) = true) ∨
  (execDzPush s = .fault .dfcOverflow ∧ countFits s.par.dfcWidth (s.dz.dfc + 1) = false) ∨
  execDzPush s = .next (statusEnd { s with
      diag := s.diag ++ [.decodeFailure .invalidPointer s.fb.header.fhp.toNat] } .invalidPointer) ∨
  (s.fb.header.fhp.toNat ≤ 884 ∧ execDzPush s = .next (okEnd { s with
      pktOut := s.pktOut ++ s.fb.dataZone.drop s.fb.header.fhp.toNat
      dz := { s.dz with seen := true, reported := true, dbc := s.fb.header.fhp.toNat }
      diag := s.diag ++ (if s.dz.reported then [] else [.discardReport s.dz.dfc s.fb.header.fhp.toNat]) }
      (884 - s.fb.header.fhp.toNat) [])) := by
  cases h : s.dz.seen
  · right
    have := s.fb.header.fhp.isLt
    rcases Nat.lt_or_ge 884 s.fb.header.fhp.toNat with h1 | h1
    · by_cases h2 : s.fb.header.fhp.toNat = 2047
      · cases hc : countFits s.par.dfcWidth (s.dz.dfc + 1)
        · right; left; exact ⟨execDzPush_overflow s h h2 hc, rfl⟩
        · left; exact ⟨execDzPush_none s h h2 hc, rfl, rfl⟩
      · right; right; left; exact execDzPush_invalid s h (by omega) (by omega)
    · right; right; right; exact ⟨h1, execDzPush_align s h h1⟩
  · exact .inl ⟨execDzPush_seen s h, rfl⟩

theorem execCkValidate_cases (s : State) : execCkValidate s = .next (okEnd s 1 []) ∨
    execCkValidate s = .next (statusEnd s .checksumInvalid) := by
  rw [execCkValidate_eq]; split
  · exact .inr rfl
  · split
    · exact .inl rfl
    · exact .inr rfl

theorem execCaduSetdata_cases (d : List Byte) (s : State) :
    execCaduSetdata d s = .next (okEnd { s with fb := s.fb.writeZone 0 d } 0 []) ∨
    execCaduSetdata d s = .next (statusEnd s .fieldRange) := by
  by_cases h : d.length = 884
  · exact .inl (execCaduSetdata_ok _ _ h)
  · exact .inr (execCaduSetdata_range _ _ h)

theorem execPktGetdata_cases (s : State) : execPktGetdata s = .next (okEnd s s.pb.data.length s.pb.data) ∨
    execPktGetdata s = .next (statusEnd s .invalidPacket) := by
  unfold execPktGetdata; split
  · exact .inl rfl
  · exact .inr rfl

theorem execPktSetdata_cases (d : List Byte) (s : State) :
    (1 ≤ d.length ∧ d.length ≤ 65536 ∧ execPktSetdata d s = .next (okEnd {s with pb := s.pb.withStaleData d} 0 [])) ∨
    execPktSetdata d s = .next (statusEnd s .invalidPacket) := by
  unfold execPktSetdata; split
  · exact .inr rfl
  · rename_i h; simp only [Config.pktDataMax] at h; exact .inl ⟨by omega, by omega, rfl⟩

theorem execPktSetdataLen_cases (n : Nat) (d : List Byte) (s : State) :
    (1 ≤ n ∧ n ≤ 65536 ∧ d.length = n ∧ execPktSetdataLen n d s = .next (okEnd {s with pb := freshPacket (bufWrite s.pb.hdr 4 (beBytes 2 (n - 1))) d} 0 [])) ∨
    execPktSetdataLen n d s = .next (statusEnd s .invalidPacket) := by
  unfold execPktSetdataLen; split
  · exact .inr rfl
  · rename_i h; simp only [Config.pktDataMax] at h; exact .inl ⟨by omega, by omega, by omega, rfl⟩

theorem execPktFill_cases (n : Nat) (s : State) :
    (7 ≤ n ∧ n ≤ 65542 ∧ execPktFill n s = .next (okEnd {s with pb := freshPacket (bufOfList _ (fillHeaderBytes n)) (zeros (n - Config.pktHdrLen))} 0 [])) ∨
    execPktFill n s = .next (statusEnd s .invalidPacket) := by
  unfold execPktFill; split
  · exact .inr rfl
  · rename_i h; simp only [Config.minPacketLen, Config.maxPacketLen] at h; exact .inl ⟨by omega, by omega, rfl⟩

theorem execPktWrite_cases (s : State) : (s.pb.hasData = true ∧ execPktWrite s = .next (okEnd { s with pb := s.pb.recalc, pktOut := s.pktOut ++ packetBytes s.pb }
      (6 + s.pb.data.length) [])) ∨
    execPktWrite s = .next (statusEnd s .invalidPacket) := by
  cases h : s.pb.hasData
  · exact .inr (execPktWrite_none s h)
  · exact .inl ⟨rfl, execPktWrite_ok s h⟩

theorem execDzEnd_cases (s : State) : execDzEnd s = .next (okEnd s s.dz.dfc []) ∨
    (execDzEnd s = .next (okEnd { s with
      dz := { s.dz with reported := true }
      diag := s.diag ++ [.discardReport s.dz.dfc s.dz.dbc] } s.dz.dfc [])) := by
  unfold execDzEnd reportOnce; split
  · exact .inl rfl
  · exact .inr rfl

end Sys2Proof.Machine
end

