-- ==== Sys2Proof/Laws/Checksum.lean ====
section
/-! SUPPORT. The transform and the checksum byte by byte (R141, R151 to R156), and flipped bits (R159, R160). -/

namespace Sys2Proof.Machine

theorem bufByte_getD {n : Nat} (b : Buf n) (i : Nat) : bufByte b i = b.bytes.getD i 0 := rfl

/-- A transformed byte (R141). -/
theorem getD_randomize (p : Params) (b : List Byte) (i : Nat) (h : i < b.length) :
    (randomize p b).getD i 0 = b.getD i 0 ^^^ p.pnTable.bytes.getD (i % 255) 0 := by
  rw [List.getD_eq_getElem?_getD, randomize, randFrom_getElem?, List.getD_eq_getElem?_getD, List.getElem?_eq_getElem h]
  simp [pnIndex, h]

/-- A byte of the line form (R105, R141). -/
theorem lineForm_getD (v : BitVec 1) (p : Params) (b : List Byte) (i : Nat) (h : i < b.length) :
    (lineForm v p b).getD i 0 = lineByte v p i (b.getD i 0) := by
  unfold lineForm lineByte
  split
  · exact getD_randomize p b i h
  · rfl

theorem vcPdu_getD (f : Frame) (i : Nat) (h : i < 892) : f.vcPdu.getD i 0 = bufByte f.cvcdu i := by
  simp [Frame.vcPdu, bufRead, bufByte, List.getD_eq_getElem?_getD, h]

/-- The sub-blocks of a frame (R151). -/
theorem deint_vcPdu (f : Frame) (k : Nat) (hk : k < 4) : deint f.vcPdu k = subBlock f.cvcdu k := by
  unfold deint subBlock
  apply List.map_congr_left
  intro i hi
  simp at hi
  rw [strideAddr]; exact vcPdu_getD _ _ (by simp; omega)

/-- The checksum of a frame, byte by byte (R153). -/
theorem cksum_getD (f : Frame) (j : Nat) (hj : j < 128) : (cksum f.vcPdu).getD j 0 = parityByte f.cvcdu j := by
  rw [List.getD_eq_getElem?_getD, cksum_byte _ _ hj, parityByte, deint_vcPdu _ _ (Nat.mod_lt _ (by decide))]; rfl

theorem checksumField_getD (f : Frame) (j : Nat) (hj : j < 128) : f.checksumField.getD j 0 = bufByte f.cvcdu (892 + j) := by
  simp [Frame.checksumField, bufRead, bufByte, List.getD_eq_getElem?_getD, hj, ckAddr]

theorem recompute_byte_lo (f : Frame) (i : Nat) (h : i < 892) : bufByte f.recompute.cvcdu i = bufByte f.cvcdu i := by
  simp only [Frame.recompute, cleanFrame_cvcdu]
  rw [bufByte_bufWrite, if_neg]; simp [ckAddr]; omega

/-- The checksum matches byte by byte (R156). -/
theorem checksumMatches_iff (f : Frame) : f.checksumMatches = true ↔
    ∀ j, j < 128 → bufByte f.cvcdu (892 + j) = parityByte f.cvcdu j := by
  simp only [Frame.checksumMatches, decide_eq_true_eq]
  constructor
  · intro h j hj
    rw [← checksumField_getD _ _ hj, ← h, cksum_getD _ _ hj]
  · intro h
    apply List.ext_getElem (by simp)
    intro i h1 h2
    have hi : i < 128 := by simpa using h1
    have := h i hi
    rw [← checksumField_getD _ _ hi, ← cksum_getD _ _ hi] at this
    rw [List.getD_eq_getElem?_getD, List.getD_eq_getElem?_getD, List.getElem?_eq_getElem h1, List.getElem?_eq_getElem h2] at this
    exact this.symm

/-- A recomputed frame matches (R155). -/
theorem recompute_checksumMatches (f : Frame) : f.recompute.checksumMatches = true := by
  simp only [Frame.checksumMatches, recompute_vcPdu, recompute_checksumField, decide_true]

/-- A flipped bit changes its byte and no other. -/
theorem flip_byte {n : Nat} (b : Buf n) (i k j : Nat) (h : i < n) :
    bufByte (flipBit b i k) j = if j = i then bufByte b i ^^^ (1#8 <<< k) else bufByte b j := by
  rw [flipBit, bufByte_bufWrite]
  by_cases hj : j = i
  · subst hj; simp [h]
  · rw [if_neg, if_neg hj]; simp; omega

theorem flip_ne (x : Byte) (k : Nat) (h : k < 8) : x ^^^ (1#8 <<< k) ≠ x := by
  intro e
  have : (1#8 <<< k) = 0 := by
    have := congrArg (x ^^^ ·) e
    simpa [← BitVec.xor_assoc] using this
  revert this
  match k, h with
  | 0, _ | 1, _ | 2, _ | 3, _ | 4, _ | 5, _ | 6, _ | 7, _ => decide

end Sys2Proof.Machine
end

