-- ==== Sys2Proof/Laws/Packing.lean ====
section
/-! SUPPORT. What the frame emission (R219), one copy and the whole packing loop (R218) can do. -/

namespace Sys2Proof.Machine

/-- A recomputed frame on the wire, from its header and data zone alone (R90, R178). -/
theorem wireFrame_recompute (v : BitVec 1) (p : Params) (f : Frame) :
    wireFrame v p f.recompute = wireBytes v p f.header f.dataZone := by
  have h : asmBytes = [0x1A, 0xCF, 0xFC, 0x1D] := rfl
  rw [wireFrame, wireBytes, cvcduBytes, cvcdu_eq_parts, recompute_header, recompute_dataZone,
    recompute_checksumField, vcPdu_eq, headerBytes_eq, h]

/-- `NextFhp` below and above the data zone's length (R220). -/
theorem nextFhp_of_le {r : Nat} (h : r ≤ 884) : nextFhp r = BitVec.ofNat 11 r := by
  simp [nextFhp, Nat.not_lt.mpr h]

theorem nextFhp_of_lt {r : Nat} (h : 884 < r) : nextFhp r = 2047#11 := by simp [nextFhp, h]

/-- The header of the frame an emission opens (R219). -/
@[simp] theorem emit_header (p : BitVec 11) (s : State) :
    (emit p s).pz.fb.header = { s.pz.fb.header with counter := s.pz.ctr + 1, fhp := p } := by simp

@[simp] theorem emit_dataZone (p : BitVec 11) (s : State) : (emit p s).pz.fb.dataZone = s.pz.fb.dataZone := by simp

@[simp] theorem emit_dirty (p : BitVec 11) (s : State) : (emit p s).pz.fb.dirty = true := rfl

/-- What an emission appends to `FRM_OUT`: the open frame, with the counter of before the increment (R219). -/
theorem emit_out (p : BitVec 11) (s : State) :
    (emit p s).frmOut = s.frmOut ++ wireBytes s.pz.rand s.par s.pz.fb.header s.pz.fb.dataZone := by
  rw [emit_frmOut, wireFrame_recompute]

@[simp] theorem putBytes_header (v : List Byte) (s : State) : (putBytes v s).pz.fb.header = s.pz.fb.header := by
  simp [writeZone_header]

@[simp] theorem putBytes_dirty (v : List Byte) (s : State) : (putBytes v s).pz.fb.dirty = true := rfl

/-- The filled part of the open data zone after a copy: what it held, then the bytes copied (R218). -/
theorem openZone_putBytes (v : List Byte) (s : State) (h : s.pz.nbo + v.length ≤ 884) :
    openZone (putBytes v s).pz = openZone s.pz ++ v := by
  have hl := dataZone_length s.pz.fb
  simp only [openZone, putBytes_pz_nbo, putBytes_pz_fb]
  rw [writeZone_dataZone _ _ _ h, List.append_assoc, ← List.append_assoc]
  have hk : (s.pz.fb.dataZone.take s.pz.nbo ++ v).length = s.pz.nbo + v.length := by
    rw [List.length_append, List.length_take, hl]; omega
  rw [List.take_append_of_le_length (by omega), List.take_of_length_le (by omega)]

/-- The emission leaves the rest of the state alone: only the packetizer and `FRM_OUT` change. -/
theorem emit_frame (p : BitVec 11) (s : State) :
    emit p s = { s with frmOut := (emit p s).frmOut, pz := (emit p s).pz } := rfl

theorem putBytes_frame (v : List Byte) (s : State) : putBytes v s = { s with pz := (putBytes v s).pz } := rfl

@[simp] theorem zoneSlice_length (q : List Byte) (j : Nat) (h : 884 * (j + 1) ≤ q.length) :
    (zoneSlice q j).length = 884 := by
  simp [zoneSlice]; omega

@[simp] theorem openZone_length (z : Packetizer) (h : z.nbo ≤ 884) : (openZone z).length = z.nbo := by
  have := dataZone_length z.fb
  simp [openZone]; omega

theorem packedFrames_short (v : BitVec 1) (p : Params) (h : VcHeader) (q : List Byte) (hq : q.length < 884) :
    packedFrames v p h q = [] := by
  simp [packedFrames, Nat.div_eq_of_lt hq]

/-- The header of frame `j + 1` is that of frame `j` behind the first. -/
theorem frameHeader_succ (h : VcHeader) (q : List Byte) (j : Nat) (_hq : 884 ≤ q.length) :
    frameHeader h (framePointer h q (j + 1)) (j + 1) =
      frameHeader { h with counter := h.counter + 1, fhp := nextFhp (q.length - 884) }
        (framePointer { h with counter := h.counter + 1, fhp := nextFhp (q.length - 884) } (q.drop 884) j) j := by
  have e1 : q.length - 884 * (j + 1) = q.length - 884 - 884 * j := by omega
  have e2 : h.counter + BitVec.ofNat 24 (j + 1) = h.counter + 1 + BitVec.ofNat 24 j := by
    rw [BitVec.ofNat_add, BitVec.add_assoc, BitVec.add_comm (BitVec.ofNat 24 j)]
    rfl
  simp only [frameHeader, framePointer, List.length_drop, e1, e2]
  cases j with
  | zero => simp [nextFhp]
  | succ j => simp

/-- Frame after frame: the first emitted frame, then those of the bytes behind it. -/
theorem packedFrames_step (v : BitVec 1) (p : Params) (h : VcHeader) (q : List Byte) (hq : 884 ≤ q.length) :
    packedFrames v p h q = wireBytes v p h (q.take 884) ++
      packedFrames v p { h with counter := h.counter + 1, fhp := nextFhp (q.length - 884) } (q.drop 884) := by
  have hn : q.length / 884 = (q.drop 884).length / 884 + 1 := by simp; omega
  have h0 : wireBytes v p (frameHeader h (framePointer h q 0) 0) (zoneSlice q 0) = wireBytes v p h (q.take 884) := by
    simp [frameHeader, framePointer, zoneSlice]
  have hj : ∀ j, wireBytes v p (frameHeader h (framePointer h q (j + 1)) (j + 1)) (zoneSlice q (j + 1)) =
      wireBytes v p (frameHeader { h with counter := h.counter + 1, fhp := nextFhp (q.length - 884) }
        (framePointer { h with counter := h.counter + 1, fhp := nextFhp (q.length - 884) } (q.drop 884) j) j)
        (zoneSlice (q.drop 884) j) := by
    intro j
    rw [frameHeader_succ]
    · simp only [zoneSlice, List.drop_drop]
      rw [show 884 * (j + 1) = 884 + 884 * j by omega]
    · omega
  rw [packedFrames, hn, List.range_succ_eq_map, List.flatMap_cons, packedFrames, List.flatMap_map, h0]
  simp only [Nat.succ_eq_add_one, hj]

/-- Everything the packing loop can do, from a cursor inside the data zone: it emits one frame for each full data zone of
`q`, the open zone followed by the packed bytes, and leaves the rest of `q` in the open frame (R218). -/
theorem packLoop_cases : ∀ (fuel : Nat) (p : List Byte) (s : State), s.pz.nbo ≤ 883 → p.length ≤ fuel →
    s.pz.fb.header.counter = s.pz.ctr →
    let q := openZone s.pz ++ p
    let t := (packLoop fuel p s).1
    (packLoop fuel p s).2 = q.length / 884 ∧
    t = { s with frmOut := s.frmOut ++ packedFrames s.pz.rand s.par s.pz.fb.header q, pz := t.pz } ∧
    t.pz.nbo = q.length % 884 ∧ t.pz.ctr = s.pz.ctr + BitVec.ofNat 24 (q.length / 884) ∧
    t.pz.mode = s.pz.mode ∧ t.pz.rand = s.pz.rand ∧
    t.pz.fb.header =
      frameHeader s.pz.fb.header (framePointer s.pz.fb.header q (q.length / 884)) (q.length / 884) ∧
    openZone t.pz = q.drop (884 * (q.length / 884)) ∧ (p = [] ∨ t.pz.fb.dirty = true)
  | fuel, [], s => by
      intro h _ _
      have hz : (openZone s.pz).length = s.pz.nbo := openZone_length _ (by omega)
      have hd : s.pz.nbo / 884 = 0 := by omega
      have e : packLoop fuel [] s = (s, 0) := by cases fuel <;> simp [packLoop]
      intro q t
      simp only [q, t, e, List.append_nil, hz, hd]
      refine ⟨trivial, ?_, by omega, by simp, trivial, trivial, by simp [frameHeader, framePointer], by simp, by simp⟩
      rw [packedFrames_short _ _ _ _ (by omega), List.append_nil]
  | 0, b :: p, s => by intro _ h; simp at h
  | fuel + 1, b :: p, s => by
      intro h hf hc
      have hz : (openZone s.pz).length = s.pz.nbo := openZone_length _ (by omega)
      by_cases hs : (b :: p).length < 884 - s.pz.nbo
      · have hch : chunk (b :: p) s = (b :: p).length := by simp only [chunk, Config.dzLen]; omega
        have hq : (openZone s.pz ++ b :: p).length / 884 = 0 := by rw [List.length_append, hz]; omega
        have e : packLoop (fuel + 1) (b :: p) s = (putBytes (b :: p) s, 0) := by
          have e0 : ∀ t, packLoop fuel [] t = (t, 0) := by intro t; cases fuel <;> simp [packLoop]
          simp only [packLoop, hch, List.take_length, List.drop_length, e0]
          rw [if_neg (by simp), if_neg (by simp only [putBytes_pz_nbo, Config.dzLen]; omega)]
        intro q t
        simp only [q, t, e, hq]
        refine ⟨trivial, ?_, ?_, by simp, by simp, by simp, by simp [writeZone_header, frameHeader, framePointer], ?_, by simp⟩
        · rw [packedFrames_short _ _ _ _ (by rw [List.length_append, hz]; omega), List.append_nil, ← putBytes_frame]
        · rw [putBytes_pz_nbo, List.length_append, hz]; omega
        · rw [openZone_putBytes _ _ (by omega)]; simp
      · have hch : chunk (b :: p) s = 884 - s.pz.nbo := by simp only [chunk, Config.dzLen]; omega
        generalize hv : (b :: p).take (884 - s.pz.nbo) = v
        generalize hr : (b :: p).drop (884 - s.pz.nbo) = rest
        have hvl : v.length = 884 - s.pz.nbo := by rw [← hv, List.length_take]; omega
        have hrl : rest.length = (b :: p).length - (884 - s.pz.nbo) := by rw [← hr, List.length_drop]
        have hbp : b :: p = v ++ rest := by rw [← hv, ← hr, List.take_append_drop]
        generalize hs' : emit (nextFhp rest.length) (putBytes v s) = s'
        have e : packLoop (fuel + 1) (b :: p) s = ((packLoop fuel rest s').1, (packLoop fuel rest s').2 + 1) := by
          simp only [packLoop, hch, hv, hr]
          rw [if_neg (by simp), if_pos (by simp only [putBytes_pz_nbo, hvl, Config.dzLen]; omega), hs']
        have i1 : s'.pz.nbo = 0 := by rw [← hs']; rfl
        have i2 : s'.pz.fb.header = { s.pz.fb.header with counter := s.pz.ctr + 1, fhp := nextFhp rest.length } := by
          rw [← hs', emit_header, putBytes_header, putBytes_pz_ctr]
        have i3 : s'.pz.ctr = s.pz.ctr + 1 := by rw [← hs']; rfl
        have i4 : openZone s'.pz = [] := by simp [openZone, i1]
        have i5 : s'.frmOut = s.frmOut ++ wireBytes s.pz.rand s.par s.pz.fb.header (openZone s.pz ++ v) := by
          have hfull : (putBytes v s).pz.fb.dataZone = openZone s.pz ++ v := by
            rw [← openZone_putBytes v s (by omega), openZone, List.take_of_length_le]
            simp [hvl]; omega
          rw [← hs', emit_out, putBytes_header, hfull]; rfl
        have i6 : s' = { s with frmOut := s'.frmOut, pz := s'.pz } := by
          rw [← hs']; rfl
        have i7 : s'.pz.mode = s.pz.mode ∧ s'.pz.rand = s.pz.rand ∧ s'.pz.fb.dirty = true ∧ s'.par = s.par := by
          rw [← hs']; exact ⟨rfl, rfl, rfl, rfl⟩
        have ih := packLoop_cases fuel rest s' (by omega) (by simp at hf; rw [hrl]; simp; omega) (by rw [i2, i3])
        simp only [i4, List.nil_append] at ih
        have hqd : (openZone s.pz ++ b :: p).drop 884 = rest := by
          rw [hbp, ← List.append_assoc, List.drop_append_of_le_length (by simp [hz, hvl]; omega),
            List.drop_of_length_le (by simp [hz, hvl]; omega), List.nil_append]
        have hqt : (openZone s.pz ++ b :: p).take 884 = openZone s.pz ++ v := by
          rw [hbp, ← List.append_assoc, List.take_append_of_le_length (by simp [hz, hvl]; omega),
            List.take_of_length_le (by simp [hz, hvl]; omega)]
        have hql : (openZone s.pz ++ b :: p).length = 884 + rest.length := by
          rw [List.length_append, hz, hrl]; omega
        generalize hq : openZone s.pz ++ b :: p = q at *
        have hn : q.length / 884 = rest.length / 884 + 1 := by omega
        obtain ⟨j1, j2, j3, j4, j5, j6, j7, j8, j9⟩ := ih
        simp only [e]
        refine ⟨by rw [j1, hn], ?_, by rw [j3]; omega, ?_, by rw [j5, i7.1], by rw [j6, i7.2.1], ?_, ?_, ?_⟩
        · rw [packedFrames_step _ _ _ _ (by omega), hqt, hqd, hc, show q.length - 884 = rest.length by omega,
            ← List.append_assoc, ← i5, ← i2, ← i7.2.1, ← i7.2.2.2]
          rw [j2, i6]
        · rw [j4, i3, hn, BitVec.ofNat_add]
          rw [BitVec.add_assoc, BitVec.add_comm (BitVec.ofNat 24 _)]
          rfl
        · rw [j7, hn]
          generalize rest.length / 884 = m
          have := frameHeader_succ s.pz.fb.header q m (by omega)
          rw [this, hqd, i2, hc, show q.length - 884 = rest.length by omega]
        · rw [j8, hn, ← hqd, List.drop_drop, hqd, show 884 * (rest.length / 884 + 1) = 884 + 884 * (rest.length / 884) by omega]
        · right
          rcases j9 with rfl | j9
          · have : packLoop fuel [] s' = (s', 0) := by cases fuel <;> simp [packLoop]
            rw [this]; exact i7.2.2.1
          · exact j9

theorem zoneSlice_drop (q : List Byte) (j : Nat) : zoneSlice (q.drop 884) j = zoneSlice q (j + 1) := by
  simp only [zoneSlice, List.drop_drop]
  rw [show 884 + 884 * j = 884 * (j + 1) by omega]

/-- What the packing loop leaves in `PZ_FB` behind the cursor and in its checksum field (R218, R219, R228). -/
theorem packLoop_rest : ∀ (fuel : Nat) (p : List Byte) (s : State), s.pz.nbo ≤ 883 → p.length ≤ fuel →
    s.pz.fb.header.counter = s.pz.ctr →
    let q := openZone s.pz ++ p
    let n := q.length / 884
    let f := (packLoop fuel p s).1.pz.fb
    (n = 0 → f.dataZone.drop q.length = s.pz.fb.dataZone.drop q.length ∧ f.checksumField = s.pz.fb.checksumField) ∧
    (1 ≤ n → f.dataZone.drop (q.length % 884) = (zoneSlice q (n - 1)).drop (q.length % 884) ∧
      f.checksumField = cksum ((frameHeader s.pz.fb.header (framePointer s.pz.fb.header q (n - 1)) (n - 1)).toBytes ++
        zoneSlice q (n - 1)))
  | fuel, [], s => by
      intro h _ _
      have hz : (openZone s.pz).length = s.pz.nbo := openZone_length _ (by omega)
      have e : packLoop fuel [] s = (s, 0) := by cases fuel <;> simp [packLoop]
      simp only [e, List.append_nil, hz]
      exact ⟨fun _ => by simp, fun hn => by omega⟩
  | 0, b :: p, s => by intro _ h; simp at h
  | fuel + 1, b :: p, s => by
      intro h hf hc
      have hz : (openZone s.pz).length = s.pz.nbo := openZone_length _ (by omega)
      by_cases hs : (b :: p).length < 884 - s.pz.nbo
      · have hch : chunk (b :: p) s = (b :: p).length := by simp only [chunk, Config.dzLen]; omega
        have hq : (openZone s.pz ++ b :: p).length / 884 = 0 := by rw [List.length_append, hz]; omega
        have e : packLoop (fuel + 1) (b :: p) s = (putBytes (b :: p) s, 0) := by
          have e0 : ∀ t, packLoop fuel [] t = (t, 0) := by intro t; cases fuel <;> simp [packLoop]
          simp only [packLoop, hch, List.take_length, List.drop_length, e0]
          rw [if_neg (by simp), if_neg (by simp only [putBytes_pz_nbo, Config.dzLen]; omega)]
        intro q n f
        have hn : n = 0 := hq
        refine ⟨fun _ => ?_, fun hn1 => by omega⟩
        simp only [f, e, putBytes_pz_fb]
        have hql : q.length = s.pz.nbo + (b :: p).length := by simp only [q, List.length_append, hz]
        refine ⟨?_, writeZone_checksumField _ _ _ (by omega)⟩
        rw [writeZone_dataZone _ _ _ (by omega), hql]
        have hd := dataZone_length s.pz.fb
        rw [List.drop_append]
        rw [List.drop_of_length_le (by rw [List.length_append, List.length_take]; omega), List.nil_append]
        have : s.pz.nbo + (b :: p).length - (s.pz.fb.dataZone.take s.pz.nbo ++ b :: p).length = 0 := by
          rw [List.length_append, List.length_take]; omega
        rw [this, List.drop_zero]
      · have hch : chunk (b :: p) s = 884 - s.pz.nbo := by simp only [chunk, Config.dzLen]; omega
        generalize hv : (b :: p).take (884 - s.pz.nbo) = v
        generalize hr : (b :: p).drop (884 - s.pz.nbo) = rest
        have hvl : v.length = 884 - s.pz.nbo := by rw [← hv, List.length_take]; omega
        have hrl : rest.length = (b :: p).length - (884 - s.pz.nbo) := by rw [← hr, List.length_drop]
        have hbp : b :: p = v ++ rest := by rw [← hv, ← hr, List.take_append_drop]
        generalize hs' : emit (nextFhp rest.length) (putBytes v s) = s'
        have e : packLoop (fuel + 1) (b :: p) s = ((packLoop fuel rest s').1, (packLoop fuel rest s').2 + 1) := by
          simp only [packLoop, hch, hv, hr]
          rw [if_neg (by simp), if_pos (by simp only [putBytes_pz_nbo, hvl, Config.dzLen]; omega), hs']
        have i1 : s'.pz.nbo = 0 := by rw [← hs']; rfl
        have i2 : s'.pz.fb.header = { s.pz.fb.header with counter := s.pz.ctr + 1, fhp := nextFhp rest.length } := by
          rw [← hs', emit_header, putBytes_header, putBytes_pz_ctr]
        have i3 : s'.pz.ctr = s.pz.ctr + 1 := by rw [← hs']; rfl
        have i4 : openZone s'.pz = [] := by simp [openZone, i1]
        have hfull : (putBytes v s).pz.fb.dataZone = openZone s.pz ++ v := by
          rw [← openZone_putBytes v s (by omega), openZone, List.take_of_length_le]
          simp [hvl]; omega
        have i5 : s'.pz.fb.dataZone = openZone s.pz ++ v := by rw [← hs', emit_dataZone, hfull]
        have i6 : s'.pz.fb.checksumField = cksum (s.pz.fb.header.toBytes ++ (openZone s.pz ++ v)) := by
          rw [← hs', emit_pz_fb, setHeader_checksumField, recompute_checksumField, vcPdu_eq, headerBytes_eq, putBytes_header,
            hfull]
        have ih := packLoop_rest fuel rest s' (by omega) (by simp at hf; rw [hrl]; simp; omega) (by rw [i2, i3])
        simp only [i4, List.nil_append] at ih
        have hqd : (openZone s.pz ++ b :: p).drop 884 = rest := by
          rw [hbp, ← List.append_assoc, List.drop_append_of_le_length (by simp [hz, hvl]; omega),
            List.drop_of_length_le (by simp [hz, hvl]; omega), List.nil_append]
        have hqt : (openZone s.pz ++ b :: p).take 884 = openZone s.pz ++ v := by
          rw [hbp, ← List.append_assoc, List.take_append_of_le_length (by simp [hz, hvl]; omega),
            List.take_of_length_le (by simp [hz, hvl]; omega)]
        have hql : (openZone s.pz ++ b :: p).length = 884 + rest.length := by
          rw [List.length_append, hz, hrl]; omega
        generalize hq : openZone s.pz ++ b :: p = q at *
        have hn : q.length / 884 = rest.length / 884 + 1 := by omega
        have hm : q.length % 884 = rest.length % 884 := by omega
        obtain ⟨j1, j2⟩ := ih
        simp only [e, hn, hm, Nat.add_sub_cancel]
        refine ⟨fun h0 => by omega, fun _ => ?_⟩
        rcases Nat.eq_zero_or_pos (rest.length / 884) with h0 | h0
        · obtain ⟨k1, k2⟩ := j1 h0
          have hmr : rest.length % 884 = rest.length := by omega
          rw [h0, hmr, k1, k2, i5, i6]
          have hz0 : zoneSlice q 0 = openZone s.pz ++ v := by rw [zoneSlice, Nat.mul_zero, List.drop_zero, hqt]
          rw [hz0]
          have h3 : frameHeader s.pz.fb.header (framePointer s.pz.fb.header q 0) 0 = s.pz.fb.header := by
            simp [frameHeader, framePointer]
          rw [h3]
          simp only [and_self]
        · obtain ⟨k1, k2⟩ := j2 h0
          obtain ⟨m, hm2⟩ : ∃ m, rest.length / 884 = m + 1 := ⟨_, (Nat.sub_add_cancel h0).symm⟩
          rw [k1, k2, hm2, Nat.add_sub_cancel, ← hqd, zoneSlice_drop, hqd]
          refine ⟨Eq.refl (List.drop (rest.length % 884) (zoneSlice q (m + 1))), ?_⟩
          rw [frameHeader_succ _ q m (by omega), i2, hqd, hc, show q.length - 884 = rest.length by omega]

end Sys2Proof.Machine
end

