-- ==== Sys2Proof/Laws/Emission.lean ====
section
/-! SUPPORT. What an emission, a whole data zone, a padded packet, a flush and a push can do, in the terms of the
statements (R217 to R226). -/

namespace Sys2Proof.Machine

/-- The bytes of `PZ_FB` after an emission (R219). -/
theorem emit_bytes (p : BitVec 11) (s : State) : (emit p s).pz.fb.cvcdu.bytes =
    reopened s.pz.fb.header s.pz.fb.dataZone { s.pz.fb.header with counter := s.pz.ctr + 1, fhp := p } := by
  rw [cvcdu_eq_parts, emit_header, emit_dataZone, reopened, ← headerBytes_eq, ← vcPdu_eq]
  simp [emit_pz_fb]

/-- Everything an emission does (R219). -/
theorem emit_eq (p : BitVec 11) (s : State) : emit p s = { s with
    frmOut := s.frmOut ++ wireBytes s.pz.rand s.par s.pz.fb.header s.pz.fb.dataZone
    pz := { s.pz with nbo := 0, ctr := s.pz.ctr + 1, fb := { cvcdu := (emit p s).pz.fb.cvcdu, dirty := true } } } := by
  rw [← emit_out p s]
  rfl

/-- A whole data zone written and emitted (R223, R226). -/
theorem emitZone_eq (z : List Byte) (p : BitVec 11) (s : State) (hz : z.length = 884) :
    ∃ b : Buf Config.cvcduLen, emitZone z p s = { s with
      frmOut := s.frmOut ++ wireBytes s.pz.rand s.par s.pz.fb.header z
      pz := { s.pz with nbo := 0, ctr := s.pz.ctr + 1, fb := { cvcdu := b, dirty := true } } } ∧
    b.bytes = reopened s.pz.fb.header z { s.pz.fb.header with counter := s.pz.ctr + 1, fhp := p } := by
  let t := putBytes z { s with pz := { s.pz with nbo := 0 } }
  have hh : t.pz.fb.header = s.pz.fb.header := by simp only [t, putBytes_header]
  have hd : t.pz.fb.dataZone = z := by
    have h1 : openZone t.pz = z := by
      have := openZone_putBytes z { s with pz := { s.pz with nbo := 0 } } (by simp [hz])
      rw [this]; simp [openZone]
    rw [← h1, openZone, List.take_of_length_le]
    simp [t, hz]
  refine ⟨(emit p t).pz.fb.cvcdu, ?_, ?_⟩
  · rw [emitZone, emit_eq, hh, hd]
    rfl
  · have := emit_bytes p t
    rw [hh, hd] at this
    exact this

/-- The open data zone closed with `v` and emitted. -/
theorem emit_putBytes (v : List Byte) (p : BitVec 11) (s : State) (hv : s.pz.nbo + v.length = 884) :
    ∃ b : Buf Config.cvcduLen, emit p (putBytes v s) = { s with
      frmOut := s.frmOut ++ wireBytes s.pz.rand s.par s.pz.fb.header (openZone s.pz ++ v)
      pz := { s.pz with nbo := 0, ctr := s.pz.ctr + 1, fb := { cvcdu := b, dirty := true } } } ∧
    b.bytes = reopened s.pz.fb.header (openZone s.pz ++ v) { s.pz.fb.header with counter := s.pz.ctr + 1, fhp := p } := by
  have hh : (putBytes v s).pz.fb.header = s.pz.fb.header := putBytes_header _ _
  have hd : (putBytes v s).pz.fb.dataZone = openZone s.pz ++ v := by
    rw [← openZone_putBytes v s (by omega), openZone, List.take_of_length_le]
    simp; omega
  refine ⟨(emit p (putBytes v s)).pz.fb.cvcdu, ?_, ?_⟩
  · rw [emit_eq, hh, hd]
    rfl
  · have := emit_bytes p (putBytes v s)
    rw [hh, hd] at this
    exact this

theorem fillBytes_eq (n : Nat) : fillBytes n = fillPacket n := rfl

theorem fillPacket_length (n : Nat) (h : 6 ≤ n) : (fillPacket n).length = n := by simp [fillPacket]; omega

/-- Bytes that exactly close the open data zone make one frame, whose successor starts with a packet. -/
theorem packBytes_closing (v : List Byte) (s : State) (h0 : v ≠ []) (hv : s.pz.nbo + v.length = 884) :
    packBytes v s = (emit 0 (putBytes v s), 1) := by
  have hl : 0 < v.length := List.length_pos_iff.mpr h0
  have hch : chunk v s = v.length := by simp only [chunk, Config.dzLen]; omega
  have e0 : ∀ fuel t, packLoop fuel [] t = (t, 0) := by intro fuel t; cases fuel <;> simp [packLoop]
  have e1 : nextFhp ([] : List Byte).length = 0 := by decide
  simp only [packBytes, packLoop, hch, List.take_length, List.drop_length, e0, e1]
  rw [if_neg h0, if_pos (by simp only [putBytes_pz_nbo, Config.dzLen]; omega)]

/-- Only the packetizer changes, and `FRM_OUT`, which grows at its end. -/
def OnlyPacks (s t : State) : Prop := ∃ b z, t = { s with frmOut := s.frmOut ++ b, pz := z }

theorem OnlyPacks.rfl (s : State) : OnlyPacks s s := ⟨[], s.pz, by simp⟩

theorem OnlyPacks.trans {s t u : State} (h1 : OnlyPacks s t) (h2 : OnlyPacks t u) : OnlyPacks s u := by
  obtain ⟨b, z, rfl⟩ := h1
  obtain ⟨c, y, rfl⟩ := h2
  exact ⟨b ++ c, y, by simp⟩

theorem onlyPacks_putBytes (v : List Byte) (s : State) : OnlyPacks s (putBytes v s) :=
  ⟨[], (putBytes v s).pz, by rw [List.append_nil, ← putBytes_frame]⟩

theorem onlyPacks_emit (p : BitVec 11) (s : State) : OnlyPacks s (emit p s) := ⟨_, _, emit_eq p s⟩

theorem onlyPacks_emitZone (z : List Byte) (p : BitVec 11) (s : State) : OnlyPacks s (emitZone z p s) := by
  have h1 : OnlyPacks s { s with pz := { s.pz with nbo := 0 } } := ⟨[], _, by rw [List.append_nil]⟩
  exact (h1.trans (onlyPacks_putBytes z _)).trans (onlyPacks_emit p _)

theorem onlyPacks_packLoop : ∀ (fuel : Nat) (p : List Byte) (s : State), OnlyPacks s (packLoop fuel p s).1
  | 0, p, s => OnlyPacks.rfl s
  | fuel + 1, p, s => by
      unfold packLoop
      split
      · exact OnlyPacks.rfl s
      · dsimp only
        have h1 := onlyPacks_putBytes (p.take (chunk p s)) s
        split
        · exact (h1.trans (onlyPacks_emit _ _)).trans (onlyPacks_packLoop fuel _ _)
        · exact h1.trans (onlyPacks_packLoop fuel _ _)

theorem onlyPacks_flushOversized (sp : Nat) (s : State) : OnlyPacks s (flushOversized sp s) :=
  ((onlyPacks_putBytes _ s).trans (onlyPacks_emit _ _)).trans (onlyPacks_emitZone _ _ _)

/-- A padded packet that fits (R226). -/
theorem padOne_ok (p : List Byte) (s : State) (h : p.length = 884 ∨ p.length ≤ 877) :
    padOne p s = .next (okEnd (emitZone (p ++ if p.length = 884 then [] else fillPacket (884 - p.length)) 0 s) 1 []) := by
  unfold padOne
  rcases h with h | h
  · simp [h, finish_eq]
  · rw [if_neg (by simp only [Config.dzLen]; omega), if_pos (by simp only [Config.dzLen, Config.minPacketLen]; omega),
      if_neg (by omega)]
    rfl

theorem padOne_skip (p : List Byte) (s : State) (h : p.length ≠ 884) (h2 : 877 < p.length) :
    padOne p s = .next (statusEnd { s with diag := s.diag ++ [.packetSkipped p.length] } .packetSkipped) := by
  unfold padOne
  rw [if_neg (by simpa using h), if_neg (by simp only [Config.dzLen, Config.minPacketLen]; omega)]
  rfl

theorem execPzPush_none (s : State) (h : s.pb.hasData = false) : execPzPush s = .next (statusEnd s .invalidPacket) := by
  simp [execPzPush, h, raise_eq]

theorem execPzPush_stream (s : State) (h : s.pb.hasData = true) (hm : s.pz.mode = 0#1) :
    execPzPush s = .next (okEnd (packBytes (packetBytes s.pb) { s with pb := s.pb.recalc }).1
      (packBytes (packetBytes s.pb) { s with pb := s.pb.recalc }).2 []) := by
  simp only [execPzPush, h, hm, if_true, recalc_serialize, finish_eq]

theorem execPzPush_padded (s : State) (h : s.pb.hasData = true) (hm : s.pz.mode = 1#1) :
    execPzPush s = padOne (packetBytes s.pb) { s with pb := s.pb.recalc } := by
  simp only [execPzPush, h, hm, if_true, recalc_serialize]
  rfl

theorem bit_cases (b : BitVec 1) : b = 0#1 ∨ b = 1#1 := by
  revert b
  decide

/-- The oversized fill packet (R225). -/
theorem flushOversized_eq (s : State) (sp : Nat) (h : sp = 884 - s.pz.nbo) (h1 : s.pz.nbo ≤ 884) :
    ∃ b : Buf Config.cvcduLen, flushOversized sp s = { s with
      frmOut := s.frmOut ++ wireBytes s.pz.rand s.par s.pz.fb.header (openZone s.pz ++ (fillPacket (sp + 884)).take sp) ++
        wireBytes s.pz.rand s.par { s.pz.fb.header with counter := s.pz.ctr + 1, fhp := 2047 }
          ((fillPacket (sp + 884)).drop sp)
      pz := { s.pz with nbo := 0, ctr := s.pz.ctr + 1 + 1, fb := { cvcdu := b, dirty := true } } } ∧
    b.bytes = reopened { s.pz.fb.header with counter := s.pz.ctr + 1, fhp := 2047 } ((fillPacket (sp + 884)).drop sp)
      { s.pz.fb.header with counter := s.pz.ctr + 1 + 1, fhp := 0 } := by
  have hf := fillPacket_length (sp + 884) (by omega)
  obtain ⟨b1, e1, r1⟩ := emit_putBytes ((fillPacket (sp + 884)).take sp) 2047 s
    (by rw [List.length_take, hf]; omega)
  have hhd : (emit 2047 (putBytes ((fillPacket (sp + 884)).take sp) s)).pz.fb.header =
      { s.pz.fb.header with counter := s.pz.ctr + 1, fhp := 2047 } := by
    rw [emit_header, putBytes_header, putBytes_pz_ctr]
  obtain ⟨b, e, r⟩ := emitZone_eq ((fillPacket (sp + 884)).drop sp) 0
    (emit 2047 (putBytes ((fillPacket (sp + 884)).take sp) s)) (by rw [List.length_drop, hf]; omega)
  refine ⟨b, ?_, ?_⟩
  · rw [flushOversized, Config.dzLen, fillBytes_eq]
    show emitZone _ 0 (emit 2047 _) = _
    rw [e, hhd, e1]
  · rw [r, hhd]
    simp only [emit_pz_ctr, putBytes_pz_ctr]

theorem execPzFlush_idle (s : State) (h : s.pz.nbo = 0) : execPzFlush s = .next (okEnd s 0 []) := by
  simp [execPzFlush, h, finish_eq]

theorem execPzFlush_fill (s : State) (h : s.pz.nbo ≠ 0) (h7 : 7 ≤ 884 - s.pz.nbo) :
    execPzFlush s = .next (okEnd (emit 0 (putBytes (fillPacket (884 - s.pz.nbo)) s)) 1 []) := by
  have hl := fillPacket_length (884 - s.pz.nbo) (by omega)
  have hp := packBytes_closing (fillPacket (884 - s.pz.nbo)) s (by intro hn; rw [hn] at hl; simp at hl; omega) (by omega)
  simp only [execPzFlush, Config.dzLen, Config.minPacketLen, fillBytes_eq, hp]
  rw [if_neg h, if_pos h7]
  rfl

theorem execPzFlush_oversized (s : State) (h : s.pz.nbo ≠ 0) (h7 : 884 - s.pz.nbo < 7) :
    execPzFlush s = .next (okEnd (flushOversized (884 - s.pz.nbo) s) 2 []) := by
  simp only [execPzFlush, Config.dzLen, Config.minPacketLen]
  rw [if_neg h, if_neg (by omega)]
  rfl

/-- What `PZ.FLUSH` can do (R223). -/
theorem execPzFlush_cases (s : State) : ∃ t r, OnlyPacks s t ∧ execPzFlush s = .next (okEnd t r []) := by
  by_cases h : s.pz.nbo = 0
  · exact ⟨s, 0, OnlyPacks.rfl s, execPzFlush_idle s h⟩
  · by_cases h7 : 7 ≤ 884 - s.pz.nbo
    · exact ⟨_, 1, (onlyPacks_putBytes _ s).trans (onlyPacks_emit _ _), execPzFlush_fill s h h7⟩
    · exact ⟨_, 2, onlyPacks_flushOversized _ s, execPzFlush_oversized s h (by omega)⟩

/-- What `PZ.PUSH` can do (R217): refuse, skip a packet, or append frames. -/
theorem execPzPush_cases (s : State) :
    (s.pb.hasData = false ∧ execPzPush s = .next (statusEnd s .invalidPacket)) ∨
    (s.pb.hasData = true ∧ execPzPush s = .next (statusEnd { s with
      pb := s.pb.recalc, diag := s.diag ++ [.packetSkipped (packetBytes s.pb).length] } .packetSkipped)) ∨
    (s.pb.hasData = true ∧ ∃ t r, OnlyPacks { s with pb := s.pb.recalc } t ∧ execPzPush s = .next (okEnd t r [])) := by
  cases h : s.pb.hasData
  · exact .inl ⟨rfl, execPzPush_none s h⟩
  · right
    rcases bit_cases s.pz.mode with hm | hm
    · right
      exact ⟨rfl, _, _, onlyPacks_packLoop _ _ _, execPzPush_stream s h hm⟩
    · by_cases hl : (packetBytes s.pb).length = 884 ∨ (packetBytes s.pb).length ≤ 877
      · right
        exact ⟨rfl, _, 1, onlyPacks_emitZone _ _ _, by rw [execPzPush_padded s h hm, padOne_ok _ _ hl]⟩
      · left
        exact ⟨rfl, by rw [execPzPush_padded s h hm, padOne_skip _ _ (by omega) (by omega)]⟩

end Sys2Proof.Machine
end

