-- ==== Sys2Proof/Laws/Fields.lean ====
section
/-! SUPPORT. The fields of the two headers as numbers: the bits of R93 and R100 against the header records. -/

namespace Sys2Proof.Machine

/-- A field of a VC_PDU header, as a number. -/
def headerField (h : VcHeader) : FrameField → Nat
  | .version => h.version.toNat | .scid => h.scid.toNat | .vcid => h.vcid.toNat | .counter => h.counter.toNat
  | .spareA => h.spareA.toNat | .replay => h.replay.toNat | .fhp => h.fhp.toNat | .spareB => h.spareB.toNat

theorem frameField_value (f : Frame) (g : FrameField) : FrameField.value f.cvcdu g = headerField f.header g := by
  cases g <;> simp [FrameField.value, headerField, Frame.header, VcHeader.ofBytes, FrameField.lo, FrameField.width, bufRead]

theorem frameField_value_set (f : Frame) (h : VcHeader) (g : FrameField) :
    FrameField.value (bufWrite f.cvcdu 0 h.toBytes) g = headerField h g := by
  have := frameField_value (f.setHeader h) g
  rwa [setHeader_header] at this

/-- A new header leaves the rest of the frame's bytes. -/
theorem setHeader_drop (f : Frame) (h : VcHeader) : (f.setHeader h).cvcdu.bytes.drop 8 = f.cvcdu.bytes.drop 8 := by
  have hs := f.cvcdu.size
  simp only [Frame.setHeader, dirtyFrame_cvcdu, bufWrite_bytes]
  rw [overlay_eq_append _ _ _ (by simp [hs])]
  simp

/-- A field of a packet header, as a number. -/
def packetHeaderField (h : PktHeader) : PacketField → Nat
  | .pversion => h.pversion.toNat | .ptype => h.ptype.toNat | .shf => h.shf.toNat | .apid => h.apid.toNat
  | .seqflags => h.seqflags.toNat | .seqcount => h.seqcount.toNat | .datalen => h.datalen.toNat

theorem packetField_value (p : Packet) (g : PacketField) : PacketField.value p.hdr g = packetHeaderField p.header g := by
  cases g <;> simp [PacketField.value, packetHeaderField, Packet.header, PktHeader.ofBytes, PacketField.lo, PacketField.width]

theorem packetField_value_set (h : PktHeader) (g : PacketField) :
    PacketField.value (bufOfList Config.pktHdrLen h.toBytes) g = packetHeaderField h g := by
  have := packetField_value { emptyPacket with hdr := bufOfList Config.pktHdrLen h.toBytes } g
  simp only [Packet.header] at this
  rw [bufOfList_bytes _ (by simp), PktHeader.ofBytes_toBytes] at this
  exact this

end Sys2Proof.Machine
end

