-- ==== Sys2Proof/Laws/Wire.lean ====
section
/-! SUPPORT. Frames and packets on their streams, read back (R180, R205). -/

namespace Sys2Proof.Machine

/-- A whole frame on the wire is read back (R180). -/
theorem caduRead_wireFrame (r : State) (v : BitVec 1) (f : Frame) (rest : List Byte) (hf : f.dirty = false) (hv : r.cfg.randomize = v) (h : r.frmIn.pending = wireFrame v r.par f ++ rest) :
    execCaduRead r =
      .next (okEnd { r with syncSr := 0x1ACFFC1D#32, frmIn := eaten r.frmIn 1024, fb := f } r.frmIn.pos []) := by
  have hw : wireFrame v r.par f ++ rest = [0x1A, 0xCF, 0xFC, 0x1D] ++ (lineForm v r.par f.cvcdu.bytes ++ rest) := by
    rw [wireFrame, List.append_assoc]; rfl
  have hfm : FirstMatch r.syncSr r.frmIn.pending 4 := by rw [h, hw]; exact firstMatch_marker _ _
  have hs := f.cvcdu.size
  have hp : (eaten r.frmIn 4).pending = lineForm v r.par f.cvcdu.bytes ++ rest := by
    show r.frmIn.pending.drop 4 = _
    rw [h, hw]; rfl
  rw [execCaduRead_first _ _ hfm, readBody_full _ _ (by show 1020 ≤ (eaten r.frmIn 4).pending.length; rw [hp]; simp [hs])]
  have ht : (eaten r.frmIn 4).pending.take 1020 = lineForm v r.par f.cvcdu.bytes := by
    rw [hp, List.take_append_of_le_length (by simp [hs]), List.take_of_length_le (by simp [hs])]
  have e : bufOfList 1020 (lineForm r.cfg.randomize r.par ((eaten r.frmIn 4).pending.take 1020)) = f.cvcdu := by
    rw [ht, hv, lineForm_lineForm, bufOfList_self]
  simp only [eaten_eaten]
  show Host.Outcome.next (okEnd { r with syncSr := _, frmIn := _, fb := ⟨bufOfList 1020 (lineForm r.cfg.randomize r.par ((eaten r.frmIn 4).pending.take 1020)), false⟩ } (r.frmIn.pos + 4 - 4) []) = _
  rw [e, ← hf]
  simp

theorem recalc_bytes (p : Packet) : p.recalc.hdr.bytes ++ p.data = packetBytes p := by
  have := recalc_serialize p
  rw [recalc_eq p] at this; exact this

/-- A packet that meets R36 says its own length. -/
theorem packetBytes_length (p : Packet) (h : p.hasData = true) (hi : PacketInv p) :
    (packetBytes p).length = 6 + p.data.length ∧ beNat (((packetBytes p).drop 4).take 2) + 1 = p.data.length := by
  obtain ⟨h1, h2, h3⟩ := hi
  have hd := h1.1 h
  have hs := p.hdr.size
  unfold packetBytes
  split
  · constructor
    · simp [hs]; omega
    · rw [List.append_assoc, List.drop_append_of_le_length (by simp [hs])]
      simp [beNat_beBytes]
      omega
  · rename_i hst
    have := h3 h (by simpa using hst)
    constructor
    · simp [hs]
    · rw [List.drop_append_of_le_length (by simp [hs]), List.take_append_of_le_length (by simp [hs])]
      have e : (p.hdr.bytes.drop 4).take 2 = bufRead p.hdr 4 2 := rfl
      rw [e, this]; omega

/-- A whole packet on the stream is read back (R205). -/
theorem pktRead_packetBytes (p : Packet) (h : p.hasData = true) (hi : PacketInv p) (r : State) (rest : List Byte)
    (hp : r.pktIn.pending = packetBytes p ++ rest) :
    execPktRead r = .next (okEnd { r with pktIn := eaten r.pktIn (packetBytes p).length, pb := p.recalc }
      (packetBytes p).length []) := by
  obtain ⟨e1, e2⟩ := packetBytes_length p h hi
  have hs := p.hdr.size
  have hd : p.data = (packetBytes p).drop 6 := by
    unfold packetBytes; split
    · rw [List.drop_append_of_le_length (by simp [hs])]; simp [hs]
    · rw [List.drop_append_of_le_length (by simp [hs])]; simp [hs]
  have ht : p.recalc.hdr.bytes = (packetBytes p).take 6 := by
    rw [← recalc_serialize, Packet.serialize, List.take_append_of_le_length (by simp [p.recalc.hdr.size]),
      List.take_of_length_le (by simp [p.recalc.hdr.size])]
  have hn : p.data.length = beNat ((r.pktIn.pending.drop 4).take 2) + 1 := by
    rw [hp, List.drop_append_of_le_length (by omega), List.take_append_of_le_length (by simp; omega), e2]
  have := execPktRead_full r p.data.length hn (by rw [hp]; simp; omega)
  rw [this]
  have e3 : bufOfList 6 (r.pktIn.pending.take 6) = p.recalc.hdr := by
    rw [hp, List.take_append_of_le_length (by omega), ← ht]
    exact bufOfList_self _
  have e4 : (r.pktIn.pending.drop 6).take p.data.length = p.data := by
    rw [hp, List.drop_append_of_le_length (by omega), ← hd, List.take_append_of_le_length (by omega), List.take_length]
  simp only [Config.pktHdrLen, e3, e4, ← e1]
  have e5 : freshPacket p.recalc.hdr p.data = p.recalc := by
    rw [recalc_eq p]
    simp [freshPacket, h]
  rw [e5]

end Sys2Proof.Machine
end

