-- ==== Sys2Proof/Laws/Invariants.lean ====
section
/-! SUPPORT. What single operations do to the invariants of R49. -/

set_option maxRecDepth 20000

namespace Sys2Proof.Machine

/-- The header of the frame an emission opened (R219). -/
theorem reopened_header (h h' : VcHeader) (z : List Byte) (b : Buf 1020) (hb : b.bytes = reopened h z h') :
    (Frame.mk b true).header = h' := by
  have : bufRead b 0 8 = h'.toBytes := by
    rw [bufRead, hb, reopened, List.drop_zero, List.append_assoc, List.take_append_of_le_length (by simp), List.take_of_length_le (by simp)]
  show VcHeader.ofBytes (bufRead b 0 8) = h'
  rw [this, VcHeader.ofBytes_toBytes]

/-- After an emission the packetizer meets R49 when the new header and cursor do. -/
theorem packetizerInv_reopened (z : Packetizer) (nbo ctr b h' zone h0) (hb : b.bytes =
    reopened h0 zone h')
   (hn : nbo ≤ 883) (hc : h'.counter = ctr) (hf : h'.fhp = 2047#11 ∨ h'.fhp.toNat ≤ nbo) (hm : z.mode = 1#1 → nbo =
       0) (h1 : h'.spareA = 0) (h2 : h'.spareB = 0) :
   PacketizerInv { z with nbo := nbo, ctr := ctr, fb := ⟨b, true⟩ } := by
  have := reopened_header _ _ _ _ hb
  refine ⟨hn, ?_, ?_, hm, ?_, ?_, rfl⟩ <;> simp only [this] <;> assumption


/-- A serialized packet has its header at least. -/
theorem packetBytes_pos (p : Packet) : 6 ≤ (packetBytes p).length := by
  have hs := p.hdr.size
  unfold packetBytes; split <;> simp [hs] <;> omega

/-- `Recalc` keeps the invariant of R36 (R199). -/
theorem packetInv_recalc (p : Packet) (h : PacketInv p) (hd : p.hasData = true) : PacketInv p.recalc := by
  obtain ⟨h1, h2, h3⟩ := h
  rw [recalc_eq]
  refine ⟨h1, h2, fun _ _ => ?_⟩
  have := packetBytes_length p hd ⟨h1, h2, h3⟩
  have e := recalc_bytes p
  have hl := p.recalc.hdr.size
  rw [← e, List.drop_append_of_le_length (by simp [hl]), List.take_append_of_le_length (by simp [hl])] at this
  show beNat ((p.recalc.hdr.bytes.drop 4).take 2) = _
  show _ = p.data.length - 1
  omega

/-- `PackBytes` keeps the packetizer's invariants (R49 (a), (b), (c)). -/
theorem packetizerInv_packBytes (p : List Byte) (s : State) (hp : p ≠ []) (hz : PacketizerInv s.pz) (hm :
    s.pz.mode = 0#1) : PacketizerInv (packBytes p s).1.pz := by
  obtain ⟨a1, a2, a3, a4, a5, a6, a7⟩ := hz
  obtain ⟨c1, c2, c3, c4, c5, c6, c7, c8, c9⟩ := packLoop_cases (p.length + 1) p s a1 (by omega) a2
  have hq : (openZone s.pz ++ p).length = s.pz.nbo + p.length := by rw [List.length_append, openZone_length _ (by omega)]
  rw [packBytes]
  generalize (packLoop (p.length + 1) p s).1 = t at *
  generalize (openZone s.pz ++ p) = q at *
  refine ⟨by rw [c3]; omega, ?_, ?_, ?_, ?_, ?_, ?_⟩
  · rw [c7, c4]; simp [frameHeader, a2]
  · rw [c7, c3]
    simp only [frameHeader, framePointer]
    split
    · rename_i h0
      rcases a3 with a3 | a3
      · exact .inl a3
      · right; omega
    · right
      rw [if_neg (by omega), BitVec.toNat_ofNat]
      have : (q.length - 884 * (q.length / 884)) % 2^11 ≤ q.length - 884 * (q.length / 884) := Nat.mod_le _ _
      omega
  · rw [c5, hm]; intro h; cases h
  · rw [c7]; exact a5
  · rw [c7]; exact a6
  · rcases c9 with h | h
    · exact absurd h hp
    · exact h

/-- `PZ.FLUSH` keeps the packetizer's invariants. -/
theorem packetizerInv_pzFlush (s : State) (hz : PacketizerInv s.pz) (t r) (h : execPzFlush s =
    .next (okEnd t r [])) : PacketizerInv t.pz := by
  obtain ⟨a1, a2, a3, a4, a5, a6, a7⟩ := hz
  by_cases h0 : s.pz.nbo = 0
  · rw [execPzFlush_idle s h0] at h
    have : t.pz = s.pz := by injection h with h; exact (congrArg State.pz h).symm
    rw [this]; exact ⟨a1, a2, a3, a4, a5, a6, a7⟩
  · by_cases h7 : 7 ≤ 884 - s.pz.nbo
    · rw [execPzFlush_fill s h0 h7] at h
      obtain ⟨b, e, rb⟩ := emit_putBytes (fillPacket (884 - s.pz.nbo)) 0 s (by rw [fillPacket_length _ (by omega)]; omega)
      have : t.pz = { s.pz with nbo := 0, ctr := s.pz.ctr + 1, fb := ⟨b, true⟩ } := by
        injection h with h; rw [e] at h; exact (congrArg State.pz h).symm
      rw [this]
      exact packetizerInv_reopened _ _ _ _ _ _ _ rb (by omega) rfl (.inr (by simp)) (by simp) a5 a6
    · rw [execPzFlush_oversized s h0 (by omega)] at h
      obtain ⟨b, e, rb⟩ := flushOversized_eq s _ rfl (by omega)
      have : t.pz = { s.pz with nbo := 0, ctr := s.pz.ctr + 1 + 1, fb := ⟨b, true⟩ } := by
        injection h with h; rw [e] at h; exact (congrArg State.pz h).symm
      rw [this]
      exact packetizerInv_reopened _ _ _ _ _ _ _ rb (by omega) rfl (.inr (by simp)) (by simp) a5 a6

/-- A new header with the same length field keeps the invariant of R36. -/
theorem packetInv_setHeader (q : Packet) (h : PktHeader) (hh : h.datalen = q.header.datalen) (hp : PacketInv q) :
    PacketInv (q.setHeader h) := by
  refine ⟨hp.1, hp.2.1, fun h1 h2 => ?_⟩
  have hp := hp.2.2 h1 h2
  have key : ∀ (b : Buf 6), beNat (bufRead b 4 2) = (PktHeader.ofBytes b.bytes).datalen.toNat := by
    intro b
    obtain ⟨l, hl⟩ := b
    match l, hl with
    | [a0, a1, a2, a3, a4, a5], _ =>
      have := a4.isLt; have := a5.isLt
      simp [bufRead, PktHeader.ofBytes, beNat]
      omega
  have e : beNat (bufRead (q.setHeader h).hdr 4 2) = beNat (bufRead q.hdr 4 2) := by
    show beNat (bufRead (bufOfList Config.pktHdrLen h.toBytes) 4 2) = _
    rw [key, key, bufOfList_bytes _ (by simp), PktHeader.ofBytes_toBytes, hh]; rfl
  rw [e, hp]; rfl

end Sys2Proof.Machine
end

