-- ==== Sys2Proof/Laws/Passes.lean ====
section
/-! SUPPORT. Packets and frames in the middle of a packing or an unpacking pass (R229, R255). -/

set_option maxRecDepth 20000

namespace Sys2Proof.Machine

/-! ### Packing -/

/-- One more packet behind a sequence of packets. -/
theorem flatten_concat (ps : List (List Byte)) (p : List Byte) : (ps ++ [p]).flatten = ps.flatten ++ p := by simp

/-- The start offsets with one more packet behind. -/
theorem packetStarts_concat : ∀ (ps : List (List Byte)) (o : Nat) (p : List Byte),
    packetStarts o (ps ++ [p]) = packetStarts o ps ++ [o + ps.flatten.length]
  | [], o, p => by simp [packetStarts]
  | a :: ps, o, p => by simp [packetStarts, packetStarts_concat ps, Nat.add_assoc]

/-- No packet starts behind the bytes of all packets. -/
theorem packetStarts_le : ∀ (ps : List (List Byte)) (o : Nat), ∀ x ∈ packetStarts o ps, x ≤ o + ps.flatten.length
  | [], o, x, h => by simp [packetStarts] at h
  | a :: ps, o, x, h => by
      simp [packetStarts] at h
      rcases h with rfl | h
      · omega
      · have := packetStarts_le ps _ x h; simp at this ⊢; omega

/-- A frame whose first byte is already there keeps its pointer when one more packet follows (R229). -/
theorem passPointer_concat (ps : List (List Byte)) (p : List Byte) (j : Nat) (h : 884 * j ≤ ps.flatten.length) :
    passPointer (ps ++ [p]) j = passPointer ps j := by
  simp only [passPointer]
  rw [packetStarts_concat, List.find?_append, Nat.zero_add]
  cases hf : (packetStarts 0 ps).find? fun o => decide (884 * j ≤ o) with
  | some x => simp
  | none =>
    rw [flatten_concat, List.length_append]
    simp only [Option.none_or, List.find?_cons, decide_eq_true h, Option.getD_some, Option.getD_none]

/-- The pointer of a frame in which no packet starts (R229). -/
theorem passPointer_eq (ps : List (List Byte)) (j : Nat) (h : ∀ x ∈ packetStarts 0 ps, x < 884 * j) :
    passPointer ps j = if ps.flatten.length - 884 * j ≤ 884 then BitVec.ofNat 11 (ps.flatten.length - 884 * j)
        else 2047#11 := by
  have : (packetStarts 0 ps).find? (fun o => decide (884 * j ≤ o)) = none := by
    rw [List.find?_eq_none]; intro x hx; have := h x hx; simp; omega
  simp only [passPointer, this, Option.getD_none]

/-- The header of frame `j` of a pass with the configuration `c` and the given pointer (R229). -/
def passHeaderAt (c : Cfg) (j : Nat) (p : BitVec 11) : VcHeader :=
  { version := c.version, scid := c.scid, vcid := c.vcid, counter := c.startCtr + BitVec.ofNat 24 j,
    spareA := 0, replay := c.replay, fhp := p, spareB := 0 }

/-- The packetizer in the middle of a stream-mode pass: the packets `ps` were pushed since `PZ.INIT`, `out` stood in
`FRM_OUT` before (R229). -/
structure PackedPass (c : Cfg) (par : Params) (out : List Byte) (ps : List (List Byte)) (b : State) : Prop where
  nbo : b.pz.nbo = ps.flatten.length % 884
  ctr : b.pz.ctr = c.startCtr + BitVec.ofNat 24 (ps.flatten.length / 884)
  mode : b.pz.mode = 0#1
  rand : b.pz.rand = c.randomize
  par_eq : b.par = par
  hdr : b.pz.fb.header = passHeaderAt c (ps.flatten.length / 884) (passPointer ps (ps.flatten.length / 884))
  zone : openZone b.pz = ps.flatten.drop (884 * (ps.flatten.length / 884))
  out_eq : b.frmOut = out ++ (List.range (ps.flatten.length / 884)).flatMap fun j =>
      wireBytes c.randomize par (passHeaderAt c j (passPointer ps j)) (zoneSlice ps.flatten j)

/-- Frame `k` of an operation that begins with frame `j` of the pass is frame `j + k` of the pass. -/
theorem frameHeader_passHeaderAt (c : Cfg) (j k : Nat) (p q : BitVec 11) : frameHeader (passHeaderAt c j p) q k =
    passHeaderAt c (j + k) q := by
  simp [frameHeader, passHeaderAt, BitVec.ofNat_add, BitVec.add_assoc]

/-- Frames numbered from 0 to `n + m`, cut at `n`. -/
theorem flatMap_range_add (n m : Nat) (f : Nat → List Byte) :
    (List.range (n + m)).flatMap f = (List.range n).flatMap f ++ (List.range m).flatMap fun j => f (n + j) := by
  rw [List.range_add, List.flatMap_append, List.flatMap_map]

/-- The pointers of R220 are the pointers of R229. -/
theorem framePointer_passPointer (c : Cfg) (ps : List (List Byte)) (p q : List Byte) (j : Nat)
    (hq : q = ps.flatten.drop (884 * (ps.flatten.length / 884)) ++ p) :
    framePointer (passHeaderAt c (ps.flatten.length / 884) (passPointer ps (ps.flatten.length / 884))) q j =
      passPointer (ps ++ [p]) (ps.flatten.length / 884 + j) := by
  have hql : q.length = ps.flatten.length % 884 + p.length := by rw [hq, List.length_append, List.length_drop]; omega
  unfold framePointer
  split
  · rename_i h; subst h
    rw [Nat.add_zero, passPointer_concat _ _ _ (by omega)]; rfl
  · rename_i hj
    have hT : (ps ++ [p]).flatten.length = ps.flatten.length + p.length := by rw [flatten_concat, List.length_append]
    rw [passPointer_eq, hT]
    · have e : ps.flatten.length + p.length - 884 * (ps.flatten.length / 884 + j) = q.length - 884 * j := by
        rw [hql, Nat.mul_add]; omega
      rw [e]
      by_cases h8 : 884 < q.length - 884 * j
      · rw [if_pos h8, if_neg (by omega)]
      · rw [if_neg h8, if_pos (by omega)]
    · intro x hx
      rw [packetStarts_concat] at hx
      have hb : x ≤ ps.flatten.length := by
        rcases List.mem_append.mp hx with hx | hx
        · have := packetStarts_le _ _ _ hx; omega
        · rw [List.mem_singleton] at hx; omega
      have : 884 * (ps.flatten.length / 884 + j) = 884 * (ps.flatten.length / 884) + 884 * j := Nat.mul_add _ _ _
      omega

/-- The data zones that a packet fills, as zones of the whole pass. -/
theorem zoneSlice_concat_new (ps : List (List Byte)) (p : List Byte) (j : Nat) :
    zoneSlice (ps.flatten.drop (884 * (ps.flatten.length / 884)) ++ p) j =
        zoneSlice (ps ++ [p]).flatten (ps.flatten.length / 884 + j) := by
  have e := flatten_concat ps p
  simp only [zoneSlice]
  have : 884 * (ps.flatten.length / 884 + j) = 884 * (ps.flatten.length / 884) + 884 * j := Nat.mul_add _ _ _
  have h2 : (ps.flatten ++ p).drop (884 * (ps.flatten.length / 884)) =
      ps.flatten.drop (884 * (ps.flatten.length / 884)) ++ p :=
    List.drop_append_of_le_length (by omega)
  rw [e, this, ← List.drop_drop, h2]

/-- A data zone already full stays as it is when one more packet follows. -/
theorem zoneSlice_concat_old (ps : List (List Byte)) (p : List Byte) (j : Nat) (h : j < ps.flatten.length / 884) :
    zoneSlice (ps ++ [p]).flatten j = zoneSlice ps.flatten j := by
  have e : (ps ++ [p]).flatten = ps.flatten ++ p := by simp
  rw [e]
  simp only [zoneSlice]
  rw [List.drop_append_of_le_length (by omega), List.take_append_of_le_length (by rw [List.length_drop]; omega)]

/-- Packing one more packet keeps the description of the pass (R218 to R220, R229). -/
theorem packedPass_push (c par out ps p) (b : State) (h : PackedPass c par out ps b) :
    PackedPass c par out (ps ++ [p]) (packBytes p b).1 := by
  have hn : b.pz.nbo ≤ 883 := by rw [h.nbo]; omega
  have hc : b.pz.fb.header.counter = b.pz.ctr := by rw [h.hdr, h.ctr]; rfl
  obtain ⟨c1, c2, c3, c4, c5, c6, c7, c8, c9⟩ := packLoop_cases (p.length + 1) p b hn (by omega) hc
  rw [packBytes]
  have hT : (ps ++ [p]).flatten.length = ps.flatten.length + p.length := by rw [flatten_concat, List.length_append]
  generalize hq : openZone b.pz ++ p = q at *
  rw [h.zone] at hq
  have hql : q.length = ps.flatten.length % 884 + p.length := by rw [← hq, List.length_append, List.length_drop]; omega
  have hN : (ps ++ [p]).flatten.length / 884 = ps.flatten.length / 884 + q.length / 884 := by rw [hT, hql]; omega
  generalize (packLoop (p.length + 1) p b).1 = t at *
  refine ⟨?_, ?_, by rw [c5, h.mode], by rw [c6, h.rand], by rw [c2]; exact h.par_eq, ?_, ?_, ?_⟩
  · rw [c3, hT, hql]; omega
  · rw [c4, h.ctr, hN, BitVec.ofNat_add, BitVec.add_assoc]
  · rw [c7, h.hdr, frameHeader_passHeaderAt, hN]
    rw [framePointer_passPointer _ _ p _ _ hq.symm]
  · rw [c8, hN]
    have e : (ps ++ [p]).flatten = ps.flatten ++ p := by simp
    have : 884 * (ps.flatten.length / 884 + q.length / 884) = 884 * (ps.flatten.length / 884)
        + 884 * (q.length / 884) := Nat.mul_add _ _ _
    have h2 : (ps.flatten ++ p).drop (884 * (ps.flatten.length / 884)) =
        ps.flatten.drop (884 * (ps.flatten.length / 884)) ++ p :=
      List.drop_append_of_le_length (by omega)
    rw [this, e, ← List.drop_drop, h2, hq]
  · have c2' := congrArg State.frmOut c2
    simp only at c2'
    rw [c2', h.out_eq, h.rand, h.par_eq, List.append_assoc, hN, flatMap_range_add]
    refine congrArg (fun x => out ++ x) (congrArg₂ (fun x y => x ++ y) ?_ ?_)
    · apply List.flatMap_congr
      intro j hj
      have hj : j < ps.flatten.length / 884 := by simpa using hj
      rw [passPointer_concat _ _ _ (by omega), zoneSlice_concat_old _ _ _ hj]
    · unfold packedFrames
      apply List.flatMap_congr
      intro j _
      rw [h.hdr, frameHeader_passHeaderAt, framePointer_passPointer _ _ p _ _ hq.symm, ← hq, zoneSlice_concat_new]

/-- Pushing several packets keeps it too. -/
theorem pushPackets_packedPass (c par out) : ∀ (l : List Packet) (ps) (b : State), (∀ p ∈ l, p.hasData = true) →
    PackedPass c par out ps b →
    ∃ t, pushPackets l b = some t ∧ PackedPass c par out (ps ++ l.map packetBytes) t
  | [], ps, b, _, h => ⟨b, rfl, by simpa using h⟩
  | p :: l, ps, b, hd, h => by
      have h1 := execPzPush_stream { b with pb := p } (hd p (by simp)) h.mode
      have hp : PackedPass c par out ps { b with pb := p.recalc } := ⟨h.nbo, h.ctr, h.mode, h.rand, h.par_eq, h.hdr, h.zone, h.out_eq⟩
      have h2 := packedPass_push c par out ps (packetBytes p) { b with pb := p.recalc } hp
      generalize hu : (packBytes (packetBytes p) { b with pb := p.recalc }) = u at *
      have h3 : PackedPass c par out (ps ++ [packetBytes p]) (okEnd u.1 u.2 []) := ⟨h2.nbo, h2.ctr, h2.mode,
          h2.rand, h2.par_eq, h2.hdr, h2.zone, h2.out_eq⟩
      obtain ⟨t, t1, t2⟩ := pushPackets_packedPass c par out l _ _ (fun q hq => hd q (by simp [hq])) h3
      refine ⟨t, ?_, by simpa using t2⟩
      simp only [pushPackets]
      show (okNext (execPzPush { b with pb := p })).bind _ = _
      rw [h1]
      exact t1

/-- The header of a frame of a pass, by its pointer. -/
theorem passHeader_eq (c ps j) : passHeader c ps j = passHeaderAt c j (if (ps.flatten.length % 884 ≠ 0 ∧
    884 - ps.flatten.length % 884 < 7) ∧ j =
    ps.flatten.length / 884 + 1 then 2047#11 else passPointer (ps ++ closingFill ps.flatten.length) j) := by
  simp [passHeader, passHeaderAt]

/-- The first data zone of an oversized flush (R225). -/
theorem zoneSlice_split_zero (A F : List Byte) (sp : Nat) (hA : A.length = 884 - sp) (h : sp ≤ 884) :
    A ++ F.take sp = zoneSlice (A ++ F) 0 := by
  have e : 884 - A.length = sp := by omega
  rw [zoneSlice, Nat.mul_zero, List.drop_zero, List.take_append, List.take_of_length_le (l := A) (by omega), e]

/-- The second data zone of an oversized flush (R225). -/
theorem zoneSlice_split_one (A F : List Byte) (sp : Nat) (hA : A.length = 884 - sp) (h : sp ≤ 884) (hF : F.length =
    sp + 884) :
    F.drop sp = zoneSlice (A ++ F) 1 := by
  have e : 884 * 1 - A.length = sp := by omega
  rw [zoneSlice, List.drop_append, List.drop_of_length_le (l := A) (by omega), List.nil_append, e,
    List.take_of_length_le (by rw [List.length_drop]; omega)]

/-- No fill packet on a frame boundary (R223). -/
theorem closingFill_none (n : Nat) (h : n % 884 = 0) : closingFill n = [] := by simp [closingFill, h]

/-- A fill packet that fits the space left (R223). -/
theorem closingFill_one (n : Nat) (h : n % 884 ≠ 0) (h7 : 7 ≤ 884 - n % 884) : closingFill n =
    [fillPacket (884 - n % 884)] := by
  simp [closingFill, h, h7]

/-- An oversized fill packet (R223, R225). -/
theorem closingFill_oversized (n : Nat) (h : n % 884 ≠ 0) (h7 : ¬ 7 ≤ 884 - n % 884) : closingFill n =
    [fillPacket (884 - n % 884 + 884)] := by
  simp only [closingFill, if_neg h, if_neg h7]

/-! ### Unpacking -/

/-- A Clean frame with this header, this data zone and its checksum. -/
def builtFrame (h : VcHeader) (z : List Byte) : Frame := ((emptyFrame.setHeader h).writeZone 0 z).recompute

/-- Its header. -/
theorem builtFrame_header (h z) : (builtFrame h z).header = h := by
  rw [builtFrame, recompute_header, writeZone_header, setHeader_header]

/-- Its data zone. -/
theorem builtFrame_zone (h : VcHeader) (z : List Byte) (hz : z.length = 884) : (builtFrame h z).dataZone = z := by
  rw [builtFrame, recompute_dataZone, writeZone_dataZone _ _ _ (by omega), List.take_zero, List.nil_append, List.drop_of_length_le (by simp; omega), List.append_nil]

/-- Its bytes on the wire. -/
theorem builtFrame_wire (v p) (h : VcHeader) (z : List Byte) (hz : z.length = 884) : wireFrame v p (builtFrame h z)
    = wireBytes v p h z := by
  have := wireFrame_recompute v p ((emptyFrame.setHeader h).writeZone 0 z)
  have hh := builtFrame_header h z
  have hz' := builtFrame_zone h z hz
  rw [builtFrame, recompute_header] at hh
  rw [builtFrame, recompute_dataZone] at hz'
  rw [builtFrame, this, hh, hz']

/-- Receiving a frame that stands at the front of the stream: what is left to do after `CADU.READ` (R180). -/
theorem receiveFrames_succ (r : State) (h : VcHeader) (z rest : List Byte) (hz : z.length = 884)
    (hp : r.frmIn.pending = wireBytes r.cfg.randomize r.par h z ++ rest) (n : Nat) :
    receiveFrames (n + 1) r = (okNext (exec .dzPush (okEnd { r with syncSr := 0x1ACFFC1D#32, frmIn := eaten r.frmIn 1024, fb := builtFrame h z } r.frmIn.pos []))).bind (receiveFrames n) := by
  have := caduRead_wireFrame r r.cfg.randomize (builtFrame h z) rest rfl rfl (by rw [hp, builtFrame_wire _ _ _ _ hz])
  simp only [receiveFrames]
  show ((okNext (execCaduRead r)).bind _).bind _ = _
  rw [this]
  rfl

/-- The stream behind that frame. -/
theorem eaten_pending (r : State) (v p) (h : VcHeader) (z rest : List Byte) (hz : z.length = 884)
    (hp : r.frmIn.pending = wireBytes v p h z ++ rest) : (eaten r.frmIn 1024).pending = rest := by
  rw [← builtFrame_wire v p h z hz] at hp
  show r.frmIn.pending.drop 1024 = rest
  rw [hp, List.drop_append_of_le_length (by rw [wireFrame_length]), List.drop_of_length_le (by rw [wireFrame_length]), List.nil_append]

/-- After alignment, frame after frame leaves whole (R246). -/
theorem receiveFrames_aligned (v : BitVec 1) (p : Params) : ∀ (L : List (VcHeader × List Byte)) (r : State),
    (∀ x ∈ L, x.2.length = 884) → r.dz.seen = true →
    r.cfg.randomize = v → r.par = p → r.frmIn.pending = L.flatMap (fun x => wireBytes v p x.1 x.2) →
    ∃ t, receiveFrames L.length r = some t ∧ t.frmIn.pending = [] ∧ t.pktOut = r.pktOut ++ L.flatMap (·.2) ∧ t.dz =
        r.dz ∧ t.diag = r.diag
  | [], r, _, _, _, _, h => ⟨r, rfl, by simpa using h, by simp, rfl, rfl⟩
  | x :: L, r, hz, hs, hv, hp, h => by
    subst hv; subst hp
    have hx := hz x (by simp)
    rw [List.flatMap_cons] at h
    have e1 := receiveFrames_succ r x.1 x.2 _ hx h L.length
    have e2 := eaten_pending r _ _ _ _ _ hx h
    have hzz := builtFrame_zone x.1 x.2 hx
    generalize builtFrame x.1 x.2 = f at *
    generalize hw : (okEnd { r with syncSr := 0x1ACFFC1D#32, frmIn := eaten r.frmIn 1024, fb := f } r.frmIn.pos []) = w at *
    have w1 : w.fb = f := by rw [← hw]; rfl
    have w2 : w.dz = r.dz := by rw [← hw]; rfl
    have w3 : w.pktOut = r.pktOut := by rw [← hw]; rfl
    have w4 : w.diag = r.diag := by rw [← hw]; rfl
    have w5 : w.frmIn = eaten r.frmIn 1024 := by rw [← hw]; rfl
    have w6 : w.cfg = r.cfg := by rw [← hw]; rfl
    have w7 : w.par = r.par := by rw [← hw]; rfl
    have e3 := execDzPush_seen w (by rw [w2]; exact hs)
    rw [w1, hzz, w3] at e3
    generalize hu : okEnd _ 884 [] = u at e3
    have h1 : u.frmIn = eaten r.frmIn 1024 := by rw [← hu, ← w5]; rfl
    have h2 : u.pktOut = r.pktOut ++ x.2 := by rw [← hu]; rfl
    have h3 : u.dz = r.dz := by rw [← hu, ← w2]; rfl
    have h4 : u.diag = r.diag := by rw [← hu, ← w4]; rfl
    have h5 : u.cfg = r.cfg := by rw [← hu, ← w6]; rfl
    have h6 : u.par = r.par := by rw [← hu, ← w7]; rfl
    have u7 : u.status = .ok := by rw [← hu]; rfl
    obtain ⟨t, t1, t2, t3, t4, t5⟩ := receiveFrames_aligned r.cfg.randomize r.par L u (fun y hy => hz y (by simp [hy])) (by rw [h3]; exact hs) (by rw [h5]) h6 (by rw [h1, e2])
    refine ⟨t, ?_, t2, by rw [t3, h2]; simp, by rw [t4, h3], by rw [t5, h4]⟩
    show receiveFrames (L.length + 1) r = _
    rw [e1]
    show (okNext (execDzPush w)).bind _ = _
    rw [e3]
    simp only [okNext, u7, if_true, Option.bind_some]
    exact t1

/-- Packets that stand one behind the other are read back one after the other (R205). -/
theorem readsPackets_all : ∀ (l : List Packet) (v : State) (rest : List Byte), (∀ p ∈ l, p.hasData = true ∧
    PacketInv p) →
    v.pktIn.pending = (l.map packetBytes).flatten ++ rest → ∃ u, readsPackets (l.map packetBytes) v = some u ∧
        u.pktIn.pending = rest
  | [], v, rest, _, h => ⟨v, rfl, by simpa using h⟩
  | p :: l, v, rest, hl, h => by
    obtain ⟨hd, hi⟩ := hl p (by simp)
    rw [List.map_cons, List.flatten_cons, List.append_assoc] at h
    have e := pktRead_packetBytes p hd hi v _ h
    generalize hu : (okEnd { v with pktIn := eaten v.pktIn (packetBytes p).length, pb := p.recalc } (packetBytes p).length []) = u at e
    have h1 : u.pktIn.pending = (l.map packetBytes).flatten ++ rest := by
      rw [← hu]
      show v.pktIn.pending.drop _ = _
      rw [h, List.drop_append_of_le_length (Nat.le_refl _), List.drop_of_length_le (Nat.le_refl _), List.nil_append]
    have h2 : u.pb = p.recalc := by rw [← hu]; rfl
    have h3 : u.status = .ok := by rw [← hu]; rfl
    obtain ⟨w, w1, w2⟩ := readsPackets_all l u rest (fun q hq => hl q (by simp [hq])) h1
    refine ⟨w, ?_, w2⟩
    simp only [List.map_cons, readsPackets]
    show (okNext (execPktRead v)).bind _ = _
    rw [e]
    simp only [okNext, h3, if_true, Option.bind_some]
    rw [if_pos, w1]
    rw [h2, recalc_eq]
    exact ⟨recalc_bytes p, rfl⟩

/-- The fill packet of total length `n` as `PKT.FILL` leaves it (R201). -/
def fillPktOf (n : Nat) : Packet := freshPacket (bufOfList _ (fillHeaderBytes n)) (zeros (n - 6))

/-- Its bytes. -/
theorem fillPktOf_bytes (n : Nat) : packetBytes (fillPktOf n) = fillPacket n := by
  show (bufOfList 6 (fillHeaderBytes n)).bytes ++ zeros (n - 6) = _
  rw [bufOfList_bytes _ (by simp [fillHeaderBytes])]
  rfl

/-- It meets R36. -/
theorem fillPktOf_inv (n : Nat) (h1 : 7 ≤ n) (h2 : n ≤ 65542) : (fillPktOf n).hasData = true ∧
    PacketInv (fillPktOf n) := by
  refine ⟨rfl, ⟨by simp [fillPktOf, freshPacket]; omega, by simp [fillPktOf, freshPacket]; omega, fun _ _ => ?_⟩⟩
  show beNat (((bufOfList Config.pktHdrLen (fillHeaderBytes n)).bytes.drop 4).take 2) = (zeros (n - 6)).length - 1
  rw [bufOfList_bytes _ (by simp [fillHeaderBytes])]
  show beNat (List.take 2 (beBytes 2 (n - 7))) = _
  rw [List.take_of_length_le (by simp), beNat_beBytes, zeros_length]; omega

/-- The closing fill packet is a packet like any other (R104). -/
theorem closingFill_packets (n : Nat) : ∃ k : List Packet, k.map packetBytes = closingFill n ∧ ∀ p ∈ k, p.hasData =
    true ∧ PacketInv p := by
  by_cases h : n % 884 = 0
  · exact ⟨[], (closingFill_none n h).symm, by simp⟩
  · by_cases h7 : 7 ≤ 884 - n % 884
    · refine ⟨[fillPktOf (884 - n % 884)], by rw [closingFill_one n h h7]; simp [fillPktOf_bytes], ?_⟩
      intro p hp; rw [List.mem_singleton] at hp; subst hp; exact fillPktOf_inv _ h7 (by omega)
    · refine ⟨[fillPktOf (884 - n % 884 + 884)], by rw [closingFill_oversized n h h7]; simp [fillPktOf_bytes], ?_⟩
      intro p hp; rw [List.mem_singleton] at hp; subst hp; exact fillPktOf_inv _ (by omega) (by omega)

/-- Whole data zones, joined again. -/
theorem zoneSlice_join : ∀ (n : Nat) (q : List Byte), q.length = 884 * n → (List.range n).flatMap (zoneSlice q) = q
  | 0, q, h => by simp at h; simp [h]
  | n + 1, q, h => by
    have ih := zoneSlice_join n (q.take (884 * n)) (by rw [List.length_take]; omega)
    rw [List.range_succ, List.flatMap_append]
    have e : (List.range n).flatMap (zoneSlice q) = (List.range n).flatMap (zoneSlice (q.take (884 * n))) := by
      apply List.flatMap_congr
      intro j hj
      have hj : j < n := by simpa using hj
      simp only [zoneSlice]
      rw [List.drop_take, List.take_take]
      congr 1
      omega
    rw [e, ih]
    simp only [List.flatMap_cons, List.flatMap_nil, List.append_nil, zoneSlice]
    rw [List.take_of_length_le (l := q.drop (884 * n)) (by rw [List.length_drop]; omega), List.take_append_drop]

/-- A whole data zone has 884 bytes. -/
theorem zoneSlice_whole_length (q : List Byte) (n j : Nat) (h : q.length = 884 * n) (hj : j < n) :
    (zoneSlice q j).length = 884 := by
  have : 884 * (j + 1) ≤ 884 * n := Nat.mul_le_mul_left _ hj
  rw [zoneSlice, List.length_take, List.length_drop]; omega

/-- A flushed pass ends on a frame boundary (R223). -/
theorem passBytes_mod (ps : List (List Byte)) : (passBytes ps).length % 884 = 0 := by
  by_cases h : ps.flatten.length % 884 = 0
  · rw [passBytes, closingFill_none _ h, List.append_nil, h]
  · by_cases h7 : 7 ≤ 884 - ps.flatten.length % 884
    · rw [passBytes, closingFill_one _ h h7, flatten_concat, List.length_append, fillPacket_length _ (by omega)]; omega
    · rw [passBytes, closingFill_oversized _ h h7, flatten_concat, List.length_append, fillPacket_length _ (by omega)]; omega

end Sys2Proof.Machine
end

