-- ==== Sys2Proof/Laws/PerInstr.lean ====
section
/-! SUPPORT. The family EncodeDecode: for each instruction, the command the encoder makes of it decodes to it again. -/

namespace Sys2Proof.Laws.EncodeDecode

set_option maxRecDepth 20000

/-- What the encoder makes of a well-formed instruction, the decoder reads as that instruction. -/
def Statement (i : Instr) : Prop := i.wellFormed = true → decode (encode i) = .ok i

theorem reset : Statement (.reset) := fun _ => rfl
theorem cfgSetVersion (v : Nat) : Statement (.cfgSetVersion v) := fun _ => rfl
theorem cfgSetScid (v : Nat) : Statement (.cfgSetScid v) := fun _ => rfl
theorem cfgSetVcid (v : Nat) : Statement (.cfgSetVcid v) := fun _ => rfl
theorem cfgSetStartCtr (v : Nat) : Statement (.cfgSetStartCtr v) := fun _ => rfl
theorem cfgSetReplay (v : Nat) : Statement (.cfgSetReplay v) := fun _ => rfl
theorem cfgSetRandomize (v : Nat) : Statement (.cfgSetRandomize v) := fun _ => rfl
theorem cfgSetPackMode (v : Nat) : Statement (.cfgSetPackMode v) := fun _ => rfl
theorem cfgGetVersion : Statement (.cfgGetVersion) := fun _ => rfl
theorem cfgGetScid : Statement (.cfgGetScid) := fun _ => rfl
theorem cfgGetVcid : Statement (.cfgGetVcid) := fun _ => rfl
theorem cfgGetStartCtr : Statement (.cfgGetStartCtr) := fun _ => rfl
theorem cfgGetReplay : Statement (.cfgGetReplay) := fun _ => rfl
theorem cfgGetRandomize : Statement (.cfgGetRandomize) := fun _ => rfl
theorem cfgGetPackMode : Statement (.cfgGetPackMode) := fun _ => rfl
theorem syncShift : Statement (.syncShift) := fun _ => rfl
theorem syncFind : Statement (.syncFind) := fun _ => rfl
theorem randApply : Statement (.randApply) := fun _ => rfl
theorem ckRecompute : Statement (.ckRecompute) := fun _ => rfl
theorem ckValidate : Statement (.ckValidate) := fun _ => rfl
theorem caduNew : Statement (.caduNew) := fun _ => rfl
theorem caduGetVersion : Statement (.caduGetVersion) := fun _ => rfl
theorem caduGetScid : Statement (.caduGetScid) := fun _ => rfl
theorem caduGetVcid : Statement (.caduGetVcid) := fun _ => rfl
theorem caduGetCounter : Statement (.caduGetCounter) := fun _ => rfl
theorem caduGetSpareA : Statement (.caduGetSpareA) := fun _ => rfl
theorem caduGetReplay : Statement (.caduGetReplay) := fun _ => rfl
theorem caduGetFhp : Statement (.caduGetFhp) := fun _ => rfl
theorem caduGetSpareB : Statement (.caduGetSpareB) := fun _ => rfl
theorem caduSetVersion (v : Nat) : Statement (.caduSetVersion v) := fun _ => rfl
theorem caduSetScid (v : Nat) : Statement (.caduSetScid v) := fun _ => rfl
theorem caduSetVcid (v : Nat) : Statement (.caduSetVcid v) := fun _ => rfl
theorem caduSetCounter (v : Nat) : Statement (.caduSetCounter v) := fun _ => rfl
theorem caduSetReplay (v : Nat) : Statement (.caduSetReplay v) := fun _ => rfl
theorem caduSetFhp (v : Nat) : Statement (.caduSetFhp v) := fun _ => rfl
theorem caduGetdata : Statement (.caduGetdata) := fun _ => rfl
theorem caduSetdata (dat : List Byte) : Statement (.caduSetdata dat) := fun _ => rfl
theorem caduRead : Statement (.caduRead) := fun _ => rfl
theorem caduWrite : Statement (.caduWrite) := fun _ => rfl
theorem pktNew : Statement (.pktNew) := fun _ => rfl
theorem pktGetPversion : Statement (.pktGetPversion) := fun _ => rfl
theorem pktGetType : Statement (.pktGetType) := fun _ => rfl
theorem pktGetShf : Statement (.pktGetShf) := fun _ => rfl
theorem pktGetApid : Statement (.pktGetApid) := fun _ => rfl
theorem pktGetSeqflags : Statement (.pktGetSeqflags) := fun _ => rfl
theorem pktGetSeqcount : Statement (.pktGetSeqcount) := fun _ => rfl
theorem pktGetDatalen : Statement (.pktGetDatalen) := fun _ => rfl
theorem pktSetPversion (v : Nat) : Statement (.pktSetPversion v) := fun _ => rfl
theorem pktSetType (v : Nat) : Statement (.pktSetType v) := fun _ => rfl
theorem pktSetShf (v : Nat) : Statement (.pktSetShf v) := fun _ => rfl
theorem pktSetApid (v : Nat) : Statement (.pktSetApid v) := fun _ => rfl
theorem pktSetSeqflags (v : Nat) : Statement (.pktSetSeqflags v) := fun _ => rfl
theorem pktSetSeqcount (v : Nat) : Statement (.pktSetSeqcount v) := fun _ => rfl
theorem pktGetdata : Statement (.pktGetdata) := fun _ => rfl
theorem pktSetdata (dat : List Byte) : Statement (.pktSetdata dat) := fun _ => rfl
theorem pktSetdataLen (n : Nat) (dat : List Byte) : Statement (.pktSetdataLen n dat) := fun _ => rfl
theorem pktRead : Statement (.pktRead) := fun _ => rfl
theorem pktWrite : Statement (.pktWrite) := fun _ => rfl
theorem pktFill (n : Nat) : Statement (.pktFill n) := fun _ => rfl
theorem pzInit : Statement (.pzInit) := fun _ => rfl
theorem pzPush : Statement (.pzPush) := fun _ => rfl
theorem pzFlush : Statement (.pzFlush) := fun _ => rfl
theorem dzInit : Statement (.dzInit) := fun _ => rfl
theorem dzPush : Statement (.dzPush) := fun _ => rfl
theorem dzEnd : Statement (.dzEnd) := fun _ => rfl
theorem formatAsm : Statement .formatAsm := by simp [Statement, encode, beBytes, decode, beNat]

/-- The fields of a header and its fill-packet form are told apart by the first four bytes (R103). -/
theorem decodePacketHeader_fill (dataLen : BitVec 16) :
    decodePacketHeader (fillHeader dataLen) = .formatFillPacketHeader dataLen := by
  simp [decodePacketHeader, PktHeader.isFill, fillHeader]

/-- A list of six bytes is its six elements. -/
theorem decode_six (b : List Byte) (h : b.length = 6) (arg : Nat) (dat : List Byte) :
    decode ⟨b, arg, dat⟩ = .ok (decodePacketHeader (PktHeader.ofBytes b)) := by
  match b, h with
  | [_, _, _, _, _, _], _ => rfl

/-- A list of eight bytes is its eight elements. -/
theorem decode_eight (b : List Byte) (h : b.length = 8) (arg : Nat) (dat : List Byte) :
    decode ⟨b, arg, dat⟩ = .ok (.formatVcpduHeader (VcHeader.ofBytes b)) := by
  match b, h with
  | [_, _, _, _, _, _, _, _], _ => rfl

theorem formatVcpduHeader (h : VcHeader) : Statement (.formatVcpduHeader h) := by
  intro _
  rw [encode, decode_eight _ (by simp), VcHeader.ofBytes_toBytes]

theorem formatPacketHeader (h : PktHeader) : Statement (.formatPacketHeader h) := by
  intro hw
  have hf : h.isFill = false := by simpa [Instr.wellFormed] using hw
  rw [encode, decode_six _ (by simp), PktHeader.ofBytes_toBytes, decodePacketHeader, hf]
  rfl

theorem formatFillPacketHeader (dataLen : BitVec 16) : Statement (.formatFillPacketHeader dataLen) := by
  intro _
  rw [encode, decode_six _ (by simp), PktHeader.ofBytes_toBytes, decodePacketHeader_fill]

/-- A word that is no operation is read as such (R115). -/
theorem decodeWord_illegal (c : Cmd) (op sel : Byte) (h : legalWord op sel = false) :
    decodeWord c op sel = .formatCmd op sel := by
  have ho := op.isLt
  have hs := sel.isLt
  unfold decodeWord
  unfold legalWord at h
  split
  all_goals first
    | rfl
    | (rename_i heq
       exfalso
       have h1 : op.toNat = (op.toNat * 256 + sel.toNat) / 256 := by omega
       have h2 : sel.toNat = (op.toNat * 256 + sel.toNat) % 256 := by omega
       rw [heq] at h1 h2
       rw [h1, h2] at h
       revert h
       decide)

theorem formatCmd (op sel : Byte) : Statement (.formatCmd op sel) := by
  intro hw
  have hl : legalWord op sel = false := by simpa [Instr.wellFormed] using hw
  show Except.ok (decodeWord _ op sel) = _
  rw [decodeWord_illegal _ _ _ hl]

end Sys2Proof.Laws.EncodeDecode
end

