-- ==== Sys2Proof/Laws/Words.lean ====
section
/-! SUPPORT. Command words: what R115 calls illegal is read as such, and every other word as the operation it encodes. -/

namespace Sys2Proof.Machine

/-- A word that R115 calls illegal is no operation. -/
theorem illegalWord_of (op sel : Byte) (h : legalWord op sel = false) : IllegalWord op sel :=
  ⟨fun arg dat => by simp only [decode, Laws.EncodeDecode.decodeWord_illegal _ _ _ h], fun _ => rfl⟩

/-- A word is its number, byte by byte. -/
theorem word_bytes (op sel : Byte) (n : Nat) (h : op.toNat * 256 + sel.toNat = n) :
    op = BitVec.ofNat 8 (n / 256) ∧ sel = BitVec.ofNat 8 (n % 256) := by
  have := op.isLt
  have := sel.isLt
  constructor <;> apply BitVec.eq_of_toNat_eq <;> simp <;> omega

end Sys2Proof.Machine
end

