-- ==== Sys2Proof/Tests/Slice0.lean ====
section
/-! SUPPORT. Tests: ill-formed terms, the written-out word of every constructor, steps whose outcome
95_test_vectors.md or a worked example of a rule gives, and a witness for the hypotheses of every statement that has some. -/

set_option maxRecDepth 100000

namespace Sys2Proof.Tests
open Sys2Proof Sys2Proof.Machine

/-! ### Ill-formed terms -/

/-- A legal word is no `FORMAT.CMD` term; words that R115 names are. -/
theorem test_wf_formatCmd : Instr.wellFormed (.formatCmd 0x32 0x06) = false ∧ Instr.wellFormed (.formatCmd 0x32 0x04) = true ∧
    Instr.wellFormed (.formatCmd 0x00 0x00) = true ∧ Instr.wellFormed (.formatCmd 0x01 0x00) = false := by decide

/-- A fill packet's header is no `FORMAT.PACKET_HEADER` term; with one bit of it changed it is. -/
theorem test_wf_formatPacketHeader :
    Instr.wellFormed (.formatPacketHeader ⟨0, 0, 0, 2047, 3, 0, 645⟩) = false ∧
    Instr.wellFormed (.formatPacketHeader ⟨0, 0, 0, 2046, 3, 0, 645⟩) = true := by decide

/-! ### The decoding of every constructor -/

/-- Words of R111 to R114, written out from the tables. -/
theorem test_decode_cfg_1 :
    decode ⟨[0x01, 0x00], 0, []⟩ = .ok .reset ∧
    decode ⟨[0x02, 0x00], 3, []⟩ = .ok (.cfgSetVersion 3) ∧
    decode ⟨[0x02, 0x01], 154, []⟩ = .ok (.cfgSetScid 154) ∧
    decode ⟨[0x02, 0x02], 30, []⟩ = .ok (.cfgSetVcid 30) ∧
    decode ⟨[0x02, 0x03], 16777214, []⟩ = .ok (.cfgSetStartCtr 16777214) ∧
    decode ⟨[0x02, 0x04], 1, []⟩ = .ok (.cfgSetReplay 1) ∧
    decode ⟨[0x02, 0x05], 1, []⟩ = .ok (.cfgSetRandomize 1) ∧
    decode ⟨[0x02, 0x06], 1, []⟩ = .ok (.cfgSetPackMode 1) ∧
    decode ⟨[0x03, 0x00], 0, []⟩ = .ok .cfgGetVersion ∧
    decode ⟨[0x03, 0x01], 0, []⟩ = .ok .cfgGetScid ∧
    decode ⟨[0x03, 0x02], 0, []⟩ = .ok .cfgGetVcid ∧
    decode ⟨[0x03, 0x03], 0, []⟩ = .ok .cfgGetStartCtr ∧
    decode ⟨[0x03, 0x04], 0, []⟩ = .ok .cfgGetReplay ∧
    decode ⟨[0x03, 0x05], 0, []⟩ = .ok .cfgGetRandomize ∧
    decode ⟨[0x03, 0x06], 0, []⟩ = .ok .cfgGetPackMode := by
  decide

/-- Words of R111 to R114, written out from the tables. -/
theorem test_decode_sync_rand_ck_1 :
    decode ⟨[0x10, 0x00], 0, []⟩ = .ok .syncShift ∧
    decode ⟨[0x11, 0x00], 0, []⟩ = .ok .syncFind ∧
    decode ⟨[0x18, 0x00], 0, []⟩ = .ok .randApply ∧
    decode ⟨[0x20, 0x00], 0, []⟩ = .ok .ckRecompute ∧
    decode ⟨[0x21, 0x00], 0, []⟩ = .ok .ckValidate := by
  decide

/-- Words of R111 to R114, written out from the tables. -/
theorem test_decode_cadu_1 :
    decode ⟨[0x30, 0x00], 0, []⟩ = .ok .caduNew ∧
    decode ⟨[0x31, 0x00], 0, []⟩ = .ok .caduGetVersion ∧
    decode ⟨[0x31, 0x01], 0, []⟩ = .ok .caduGetScid ∧
    decode ⟨[0x31, 0x02], 0, []⟩ = .ok .caduGetVcid ∧
    decode ⟨[0x31, 0x03], 0, []⟩ = .ok .caduGetCounter ∧
    decode ⟨[0x31, 0x04], 0, []⟩ = .ok .caduGetSpareA ∧
    decode ⟨[0x31, 0x05], 0, []⟩ = .ok .caduGetReplay ∧
    decode ⟨[0x31, 0x06], 0, []⟩ = .ok .caduGetFhp ∧
    decode ⟨[0x31, 0x07], 0, []⟩ = .ok .caduGetSpareB ∧
    decode ⟨[0x32, 0x00], 2, []⟩ = .ok (.caduSetVersion 2) ∧
    decode ⟨[0x32, 0x01], 85, []⟩ = .ok (.caduSetScid 85) ∧
    decode ⟨[0x32, 0x02], 42, []⟩ = .ok (.caduSetVcid 42) ∧
    decode ⟨[0x32, 0x03], 1193046, []⟩ = .ok (.caduSetCounter 1193046) ∧
    decode ⟨[0x32, 0x05], 1, []⟩ = .ok (.caduSetReplay 1) ∧
    decode ⟨[0x32, 0x06], 2047, []⟩ = .ok (.caduSetFhp 2047) := by
  decide

/-- Words of R111 to R114, written out from the tables. -/
theorem test_decode_cadu_2 :
    decode ⟨[0x33, 0x00], 0, []⟩ = .ok .caduGetdata ∧
    decode ⟨[0x34, 0x00], 0, [0xAA, 0xBB]⟩ = .ok (.caduSetdata [0xAA, 0xBB]) ∧
    decode ⟨[0x35, 0x00], 0, []⟩ = .ok .caduRead ∧
    decode ⟨[0x36, 0x00], 0, []⟩ = .ok .caduWrite := by
  decide

/-- Words of R111 to R114, written out from the tables. -/
theorem test_decode_pkt_1 :
    decode ⟨[0x40, 0x00], 0, []⟩ = .ok .pktNew ∧
    decode ⟨[0x41, 0x00], 0, []⟩ = .ok .pktGetPversion ∧
    decode ⟨[0x41, 0x01], 0, []⟩ = .ok .pktGetType ∧
    decode ⟨[0x41, 0x02], 0, []⟩ = .ok .pktGetShf ∧
    decode ⟨[0x41, 0x03], 0, []⟩ = .ok .pktGetApid ∧
    decode ⟨[0x41, 0x04], 0, []⟩ = .ok .pktGetSeqflags ∧
    decode ⟨[0x41, 0x05], 0, []⟩ = .ok .pktGetSeqcount ∧
    decode ⟨[0x41, 0x06], 0, []⟩ = .ok .pktGetDatalen ∧
    decode ⟨[0x42, 0x00], 7, []⟩ = .ok (.pktSetPversion 7) ∧
    decode ⟨[0x42, 0x01], 1, []⟩ = .ok (.pktSetType 1) ∧
    decode ⟨[0x42, 0x02], 1, []⟩ = .ok (.pktSetShf 1) ∧
    decode ⟨[0x42, 0x03], 700, []⟩ = .ok (.pktSetApid 700) ∧
    decode ⟨[0x42, 0x04], 3, []⟩ = .ok (.pktSetSeqflags 3) ∧
    decode ⟨[0x42, 0x05], 16383, []⟩ = .ok (.pktSetSeqcount 16383) ∧
    decode ⟨[0x43, 0x00], 0, []⟩ = .ok .pktGetdata := by
  decide

/-- Words of R111 to R114, written out from the tables. -/
theorem test_decode_pkt_2 :
    decode ⟨[0x44, 0x00], 0, [0xAA, 0xBB]⟩ = .ok (.pktSetdata [0xAA, 0xBB]) ∧
    decode ⟨[0x45, 0x00], 2, [0xAA, 0xBB]⟩ = .ok (.pktSetdataLen 2 [0xAA, 0xBB]) ∧
    decode ⟨[0x46, 0x00], 0, []⟩ = .ok .pktRead ∧
    decode ⟨[0x47, 0x00], 0, []⟩ = .ok .pktWrite ∧
    decode ⟨[0x48, 0x00], 652, []⟩ = .ok (.pktFill 652) := by
  decide

/-- Words of R111 to R114, written out from the tables. -/
theorem test_decode_pz_dz_1 :
    decode ⟨[0x50, 0x00], 0, []⟩ = .ok .pzInit ∧
    decode ⟨[0x51, 0x00], 0, []⟩ = .ok .pzPush ∧
    decode ⟨[0x52, 0x00], 0, []⟩ = .ok .pzFlush ∧
    decode ⟨[0x60, 0x00], 0, []⟩ = .ok .dzInit ∧
    decode ⟨[0x61, 0x00], 0, []⟩ = .ok .dzPush ∧
    decode ⟨[0x62, 0x00], 0, []⟩ = .ok .dzEnd := by
  decide

/-- R115, V80 to V82: words that are no operation. -/
theorem test_decode_illegal :
    decode ⟨[0x00, 0x00], 0, []⟩ = .ok (.formatCmd 0x00 0x00) ∧
    decode ⟨[0x70, 0x00], 0, []⟩ = .ok (.formatCmd 0x70 0x00) ∧
    decode ⟨[0x10, 0x01], 0, []⟩ = .ok (.formatCmd 0x10 0x01) ∧
    decode ⟨[0x32, 0x07], 0, []⟩ = .ok (.formatCmd 0x32 0x07) ∧
    decode ⟨[0x42, 0x06], 0, []⟩ = .ok (.formatCmd 0x42 0x06) ∧
    decode ⟨[0x31, 0x08], 0, []⟩ = .ok (.formatCmd 0x31 0x08) ∧
    decode ⟨[0x41, 0x07], 0, []⟩ = .ok (.formatCmd 0x41 0x07) ∧
    decode ⟨[0x02, 0x07], 0, []⟩ = .ok (.formatCmd 0x02 0x07) ∧
    decode ⟨[0x03, 0x07], 0, []⟩ = .ok (.formatCmd 0x03 0x07) := by
  decide

/-- R91, V32 (the header `A5 5A C3 3C 0F F0 99 66`), V51 (the header `1A BC 4D 5E 00 10`), R103. -/
theorem test_decode_formats :
    decode ⟨[0x1A, 0xCF, 0xFC, 0x1D], 0, []⟩ = .ok .formatAsm ∧
    decode ⟨[0xA5, 0x5A, 0xC3, 0x3C, 0x0F, 0xF0, 0x99, 0x66], 0, []⟩ =
      .ok (.formatVcpduHeader ⟨2, 149, 26, 12794895, 120, 0, 1227, 6⟩) ∧
    decode ⟨[0x1A, 0xBC, 0x4D, 0x5E, 0x00, 0x10], 0, []⟩ = .ok (.formatPacketHeader ⟨0, 1, 1, 700, 1, 3422, 16⟩) ∧
    decode ⟨[0x07, 0xFF, 0xC0, 0x00, 0x02, 0x85], 0, []⟩ = .ok (.formatFillPacketHeader 645) := by
  decide

/-- Items of other lengths, and a 4-byte item that is not the marker. -/
theorem test_decode_refused :
    decode ⟨[], 0, []⟩ = .error .notACommandWord ∧ decode ⟨[0x01], 0, []⟩ = .error .notACommandWord ∧
    decode ⟨[0x01, 0x00, 0x00], 0, []⟩ = .error .notACommandWord ∧
    decode ⟨[0x1A, 0xCF, 0xFC, 0x1C], 0, []⟩ = .error .notACommandWord := by
  decide

/-- The numbering of the opcode table. -/
theorem test_table_words : decodeTableWord 16 0x3206 = some (.caduSetFhp 0) ∧ decodeTableWord 16 0x0100 = some .reset ∧
    decodeTableWord 32 0x1ACFFC1D = some .formatAsm := by decide

/-! ### Small states -/

/-- The reset state with these bytes pending on `FRM_IN`. -/
def onFrames (b : List Byte) : State := { State.reset with frmIn := { pending := b, pos := 0, later := [] } }
/-- The reset state with these bytes pending on `PKT_IN`. -/
def onPackets (b : List Byte) : State := { State.reset with pktIn := { pending := b, pos := 0, later := [] } }
/-- The reset state with this pointer in `FB`. -/
def onPointer (p : BitVec 11) : State :=
  { State.reset with fb := emptyFrame.setHeader { emptyFrame.header with fhp := p } }
/-- The reset state with these bytes as the header of `FB`. -/
def onHeader (b : List Byte) : State := { State.reset with fb := { cvcdu := bufOfList _ b, dirty := false } }
/-- A packet with the header `00 01 C0 00` and a data field of `n` bytes `44`, as 95_test_vectors.md uses. -/
def pkt44 (n : Nat) : Packet where
  hdr := ⟨[0x00, 0x01, 0xC0, 0x00, 0x00, 0x00], rfl⟩
  data := List.replicate n 0x44
  hasData := true
  lenStale := true
/-- The reset state with that packet in `PB`, the cursor of the packetizer and its mode. -/
def onPacket (n nbo : Nat) (mode : BitVec 1) : State :=
  { State.reset with pb := pkt44 n, pz := { State.reset.pz with nbo := nbo, mode := mode } }

/-- What an observation of the state an operation leaves gives; `none` where it leaves none. -/
def seen {α : Type} (r : Result) (f : State → α) : Option α :=
  match r with
  | .next t => some (f t)
  | .fault _ => none
  | .refused _ => none
/-- How an operation ended: status and `RESULT`. -/
def ending (r : Result) : Option (Status × Nat) := seen r fun t => (t.status, t.result)

/-! ### Steps -/

/-- `RESET` and `PZ.FLUSH` as the first command after reset, placed as the host places them. -/
theorem test_first_command : seen (step (State.reset.withFetchWord 16 0x0100)) (·.status) = some .ok ∧
    ending (step (State.reset.withFetchWord 16 0x5200)) = some (.ok, 0) ∧
    ending (step (State.reset.withFetchWord 16 0x2100)) = some (.checksumInvalid, 0) ∧
    ending (step (State.reset.withFetchWord 16 0x0000)) = some (.illegalOp, 0) := by decide

/-- V71. -/
theorem test_cfg_set : ending (exec (.cfgSetVcid 64) State.reset) = some (.fieldRange, 0) ∧
    seen (exec (.cfgSetVcid 63) State.reset) (·.cfg.vcid) = some 63 := by decide
/-- V70, for registers that differ. -/
theorem test_cfg_get : ending (exec .cfgGetStartCtr { State.reset with cfg := ⟨1, 2, 3, 4, 1, 0, 1⟩ }) = some (.ok, 4) ∧
    ending (exec .cfgGetRandomize { State.reset with cfg := ⟨1, 2, 3, 4, 1, 0, 1⟩ }) = some (.ok, 0) := by decide
/-- V4. -/
theorem test_sync_shift : seen (exec .syncShift { onFrames [0x1D] with syncSr := 0x001ACFFC }) (·.syncSr) = some 0x1ACFFC1D ∧
    ending (exec .syncShift { onFrames [0x1D] with syncSr := 0x001ACFFC }) = some (.ok, 1) ∧
    ending (exec .syncShift { onFrames [0x1C] with syncSr := 0x001ACFFC }) = some (.ok, 0) := by decide
/-- V1. -/
theorem test_sync_find : ending (exec .syncFind (onFrames [0x00, 0x1A, 0xCF, 0x1A, 0xCF, 0xFC, 0x1D, 0x55])) = some (.ok, 3) ∧
    seen (exec .syncFind (onFrames [0x00, 0x1A, 0xCF, 0x1A, 0xCF, 0xFC, 0x1D, 0x55])) (·.frmIn.pos) = some 7 := by decide
/-- V3. -/
theorem test_sync_find_end : ending (exec .syncFind (onFrames [0x1A, 0xCF, 0xFC])) = some (.endOfStream, 0) ∧
    seen (exec .syncFind (onFrames [0x1A, 0xCF, 0xFC])) (·.syncSr) = some 0x001ACFFC := by decide
/-- V10: the first bytes, and where the table wraps. -/
theorem test_rand_apply : seen (exec .randApply State.reset) (fun t => t.fb.cvcdu.bytes.take 8) =
      some [0xFF, 0x48, 0x0E, 0xC0, 0x9A, 0x0D, 0x70, 0xBC] ∧
    seen (exec .randApply State.reset) (fun t => (t.fb.cvcdu.bytes.drop 252).take 6) =
      some [0x66, 0xF5, 0x58, 0xFF, 0x48, 0x0E] := by decide +kernel
/-- V20: with the stand-in encoder that copies, the checksum is the first 128 bytes. -/
theorem test_checksum : cksumWith (·.take 32) ((List.range 892).map fun i => BitVec.ofNat 8 (5 * i + 2)) =
    (List.range 128).map fun i => BitVec.ofNat 8 (5 * i + 2) := by decide +kernel
/-- V21, its first step. -/
theorem test_ck_validate_dirty : ending (exec .ckValidate State.reset) = some (.checksumInvalid, 0) := by decide
/-- V32. -/
theorem test_cadu_get : ending (exec .caduGetScid (onHeader [0xA5, 0x5A, 0xC3, 0x3C, 0x0F, 0xF0, 0x99, 0x66])) = some (.ok, 149) ∧
    ending (exec .caduGetSpareA (onHeader [0xA5, 0x5A, 0xC3, 0x3C, 0x0F, 0xF0, 0x99, 0x66])) = some (.ok, 120) ∧
    ending (exec .caduGetFhp (onHeader [0xA5, 0x5A, 0xC3, 0x3C, 0x0F, 0xF0, 0x99, 0x66])) = some (.ok, 1227) := by decide +kernel
/-- R171's example, and V34. -/
theorem test_cadu_set : seen (exec (.caduSetFhp 2047) State.reset) (fun t => t.fb.cvcdu.bytes.take 8) =
      some [0x00, 0x00, 0x00, 0x00, 0x00, 0x00, 0xFF, 0xE0] ∧
    ending (exec (.caduSetFhp 2048) State.reset) = some (.fieldRange, 0) := by decide +kernel
/-- V35 and R173's example. -/
theorem test_cadu_setdata : ending (exec (.caduSetdata (zeros 883)) State.reset) = some (.fieldRange, 0) ∧
    seen (exec (.caduSetdata (zeros 883 ++ [1])) State.reset) (fun t => bufByte t.fb.cvcdu 891) = some 1 := by decide +kernel
/-- V36. -/
theorem test_cadu_read : ending (exec .caduRead (onFrames ([0xAA, 0xBB, 0x1A, 0xCF, 0xFC, 0x1D] ++ List.replicate 1020 7))) =
      some (.ok, 2) ∧
    seen (exec .caduRead (onFrames ([0xAA, 0xBB, 0x1A, 0xCF, 0xFC, 0x1D] ++ List.replicate 1020 7))) (fun t =>
      (t.frmIn.pos, t.fb.dirty, bufByte t.fb.cvcdu 1019)) = some (1026, false, 7) := by decide +kernel
/-- V37. -/
theorem test_cadu_read_truncated : seen (exec .caduRead (onFrames ([0x1A, 0xCF, 0xFC, 0x1D] ++ List.replicate 1019 7))) (fun t =>
      (t.status, t.diag)) = some (.truncated, [.decodeFailure .truncated 1023]) := by decide +kernel
/-- V38: a Clean frame is written as it is. -/
theorem test_cadu_write : seen (exec .caduWrite (onHeader [0x00, 0x40])) (fun t => (t.frmOut.take 6, t.frmOut.length)) =
    some ([0x1A, 0xCF, 0xFC, 0x1D, 0x00, 0x40], 1024) := by decide +kernel
/-- V51. -/
theorem test_pkt_get : ending (exec .pktGetApid { State.reset with pb := { emptyPacket with
      hdr := ⟨[0x1A, 0xBC, 0x4D, 0x5E, 0x00, 0x10], rfl⟩ } }) = some (.ok, 700) ∧
    ending (exec .pktGetSeqcount { State.reset with pb := { emptyPacket with
      hdr := ⟨[0x1A, 0xBC, 0x4D, 0x5E, 0x00, 0x10], rfl⟩ } }) = some (.ok, 3422) := by decide
/-- R194's examples. -/
theorem test_pkt_set : seen (exec (.pktSetApid 64) State.reset) (·.pb.hdr.bytes) = some [0x00, 0x40, 0x00, 0x00, 0x00, 0x00] ∧
    ending (exec (.pktSetApid 2048) State.reset) = some (.fieldRange, 0) := by decide
/-- R196's examples. -/
theorem test_pkt_setdata_len : ending (exec (.pktSetdataLen 3 [0xAA, 0xBB]) State.reset) = some (.invalidPacket, 0) ∧
    seen (exec (.pktSetdataLen 2 [0xAA, 0xBB]) State.reset) (·.pb.hdr.bytes) = some [0, 0, 0, 0, 0, 1] := by decide
/-- V56, its write. -/
theorem test_pkt_write : seen (exec .pktWrite { State.reset with pb := emptyPacket.withStaleData [0xAA, 0xBB, 0xCC] }) (fun t =>
    (t.result, t.pktOut)) = some (9, [0x00, 0x00, 0x00, 0x00, 0x00, 0x02, 0xAA, 0xBB, 0xCC]) := by decide
/-- V52. -/
theorem test_pkt_read : ending (exec .pktRead (onPackets [0, 0, 0, 0, 0, 0, 0xAA])) = some (.ok, 7) ∧
    seen (exec .pktRead (onPackets [0, 0, 0, 0, 0, 0, 0xAA])) (·.pb.data) = some [0xAA] := by decide
/-- V53 and V54. -/
theorem test_pkt_read_truncated : seen (exec .pktRead (onPackets [0x08, 0x40, 0xC0])) (fun t => (t.status, t.diag)) =
      some (.truncated, [.decodeFailure .truncated 3]) ∧
    seen (exec .pktRead (onPackets [0x08, 0x40, 0xC0, 0x01, 0x00, 0x01, 0xAA])) (fun t => (t.status, t.diag)) =
      some (.truncated, [.decodeFailure .truncated 7]) := by decide
/-- V58. -/
theorem test_pkt_fill : ending (exec (.pktFill 6) State.reset) = some (.invalidPacket, 0) ∧
    seen (exec (.pktFill 8) State.reset) (fun t => t.pb.hdr.bytes ++ t.pb.data) =
      some [0x07, 0xFF, 0xC0, 0x00, 0x00, 0x01, 0x00, 0x00] := by decide
/-- V57, its read. -/
theorem test_pkt_getdata : ending (exec .pktGetdata { State.reset with pb := emptyPacket.withStaleData [1] }) = some (.ok, 1) ∧
    ending (exec .pktGetdata State.reset) = some (.invalidPacket, 0) := by decide
/-- R216's example. -/
theorem test_pz_init : seen (exec .pzInit { State.reset with cfg := ⟨1, 0x9A, 0x1E, 0xFFFFFE, 0, 0, 0⟩ }) (fun t =>
    t.pz.fb.cvcdu.bytes.take 8) = some [0x66, 0x9E, 0xFF, 0xFF, 0xFE, 0x00, 0x00, 0x00] := by decide +kernel
/-- V40, its first push, and V46, its push. -/
theorem test_pz_push : seen (exec .pzPush (onPacket 4 0 0)) (fun t => (t.result, t.pz.nbo)) = some (0, 10) ∧
    seen (exec .pzPush (onPacket 884 0 0)) (fun t => (t.result, t.pz.nbo, t.pz.fb.header.fhp, t.pz.ctr)) =
      some (1, 6, 6, 1) := by decide +kernel
/-- R226: 877 bytes fit with the smallest fill packet, 878 do not. -/
theorem test_pz_push_padded : ending (exec .pzPush (onPacket 871 0 1)) = some (.ok, 1) ∧
    ending (exec .pzPush (onPacket 872 0 1)) = some (.packetSkipped, 0) := by decide +kernel
/-- V43 and V44: the flush of 6 bytes and of 1 byte takes two frames; V42: that of 7 takes one. -/
theorem test_pz_flush : ending (exec .pzFlush (onPacket 1 878 0)) = some (.ok, 2) ∧
    ending (exec .pzFlush (onPacket 1 877 0)) = some (.ok, 1) := by decide +kernel
/-- V60, its third push, and the guard of R250: after a report that `DZ.END` wrote, the aligning frame writes none. -/
theorem test_dz_push : seen (exec .dzPush { onPointer 5 with dz := { emptyDepacketizer with dfc := 2 } }) (fun t =>
      (t.result, t.diag, t.pktOut.length)) = some (879, [.discardReport 2 5], 879) ∧
    seen (exec .dzPush { onPointer 5 with dz := { emptyDepacketizer with dfc := 2, reported := true } }) (fun t =>
      (t.result, t.diag, t.pktOut.length)) = some (879, [], 879) := by decide +kernel
/-- R249 at its upper end, and R246's sentinel. -/
theorem test_dz_push_unaligned : ending (exec .dzPush (onPointer 2046)) = some (.invalidPointer, 0) ∧
    seen (exec .dzPush (onPointer 2047)) (fun t => (t.result, t.dz.dfc)) = some (0, 1) := by decide +kernel
/-- V61, its two ends. -/
theorem test_dz_end : seen (exec .dzEnd { State.reset with dz := { emptyDepacketizer with dfc := 2 } }) (fun t =>
      (t.result, t.diag)) = some (2, [.discardReport 2 0]) ∧
    seen (exec .dzEnd { State.reset with dz := { emptyDepacketizer with dfc := 2, reported := true } }) (fun t =>
      (t.result, t.diag)) = some (2, []) := by decide

/-! ### Witnesses

For each statement with hypotheses, states and operands that meet them together, each clause at a boundary of its range. -/

/-- `EncodedInstructionsDecodeBack`. -/
theorem witness_EncodedInstructionsDecodeBack : Instr.wellFormed (.caduSetFhp 2048) = true ∧
    Instr.wellFormed (.pktSetdataLen 65536 []) = true := by decide

/-- `IllegalCommandWordsOnlyRaiseIllegalOp`. -/
theorem witness_IllegalCommandWordsOnlyRaiseIllegalOp : ∃ s : State, legalWord 0x32 0x04 = false ∧ s.resetIn = false ∧
    s.cmds = ⟨[0x32, 0x04], 7, [1]⟩ :: [] :=
  ⟨present ⟨[0x32, 0x04], 7, [1]⟩ State.reset, by decide, rfl, rfl⟩

/-- `StepRunsTheDecodedCommand`. -/
theorem witness_StepRunsTheDecodedCommand : ∃ (s : State) (c : Cmd), s.resetIn = false ∧ s.cmds = c :: [] ∧
    decode c = .ok (.cfgSetScid 154) :=
  ⟨present ⟨[0x02, 0x01], 154, []⟩ State.reset, ⟨[0x02, 0x01], 154, []⟩, rfl, rfl, by decide⟩

/-- `StepWithoutACommand`, `ResetLeavesTheTableOfR48` and `TheCleanDirtyMachine`: idle, and the reset input asserted. -/
theorem witness_StepWithoutACommand : (State.reset.resetIn = false ∧ State.reset.cmds = []) ∧
    ({ State.reset with resetIn := true } : State).resetIn = true := ⟨⟨rfl, rfl⟩, rfl⟩

/-- A state with the invariants of R49 at their bounds: cursor 883 behind the sentinel, 884 discarded bytes. -/
def atTheBounds : State := { State.reset with
  pz := { State.reset.pz with nbo := 883, fb := emptyFrame.setHeader { emptyFrame.header with fhp := 2047 } }
  dz := { seen := true, reported := true, dfc := 3, dbc := 884 }
  cmds := [⟨[0x62, 0x00], 0, []⟩] }

/-- `EveryStepKeepsTheInvariants`. -/
theorem witness_EveryStepKeepsTheInvariants : atTheBounds.Inv ∧ ReportInv false atTheBounds.dz ∧
    ∃ t, step atTheBounds = .next t := by
  refine ⟨⟨⟨by decide, by decide, by decide, by decide, by decide, by decide, by decide⟩, ?_, ?_, by decide⟩, ?_, ?_⟩
  · exact ⟨by decide, by decide, by decide⟩
  · exact ⟨by decide, by decide, by decide, by decide⟩
  · exact fun _ => .inl rfl
  · exact ⟨_, rfl⟩

/-- The first half of R49 (f) where no frame aligned: `DZ.END` reports, and the pass has ended from then on. -/
theorem witness_ReportInv : ∃ s t : State, ReportInv false s.dz ∧ step s = .next t ∧ t.dz.reported = true ∧
    t.dz.seen = false ∧ endedAfterStep s false = true ∧ ReportInv true t.dz :=
  ⟨present ⟨[0x62, 0x00], 0, []⟩ State.reset, _, (fun h => by cases h), rfl, rfl, rfl, rfl, fun _ => .inr rfl⟩

/-- `ConfigurationWrites` and `ConfigurationReads`: the largest value that fits, the smallest that does not, and the first
selector that is no register. -/
theorem witness_ConfigurationWrites : 63 < 2 ^ CfgReg.vcid.width ∧ 2 ^ CfgReg.vcid.width ≤ 64 ∧ CfgReg.scid ≠ CfgReg.vcid ∧
    6 < (0x07 : Byte).toNat := by decide

/-- `ShiftingOneByteIn`. -/
theorem witness_ShiftingOneByteIn : (onFrames [0x1D]).frmIn.pending = 0x1D :: [] ∧ (onFrames []).frmIn.pending = [] :=
  ⟨rfl, rfl⟩

/-- `SearchingForTheNextMarker`: the register holds the first three bytes of the marker, and the first byte completes it. -/
theorem witness_SearchingForTheNextMarker_first : FirstMatch 0x001ACFFC#32 [0x1D] 1 :=
  ⟨by decide, by decide, by decide, fun j h1 h2 => by omega⟩

/-- `SearchingForTheNextMarker`: no match. -/
theorem witness_SearchingForTheNextMarker_none : NoMatch 0x001ACFFC#32 [0x1C] := by
  intro j h1 h2
  have : j = 1 := by simp at h2; omega
  subst this
  decide

/-- `TheRegisterNeedsNoClearing`: one byte before the marker, and nothing pending. -/
theorem witness_TheRegisterNeedsNoClearing :
    ((onFrames [0x1A, 0x1A, 0xCF, 0xFC, 0x1D]).syncSr = 0 ∧ markerAt [0x1A, 0x1A, 0xCF, 0xFC, 0x1D] 1 ∧
      ∀ j, j < 1 → ¬ markerAt [0x1A, 0x1A, 0xCF, 0xFC, 0x1D] j) ∧
    ({ onFrames [] with syncSr := 0x1ACFFC1D#32 } : State).syncSr = 0x1ACFFC1D#32 ∧ ∀ k, ¬ markerAt [] k := by
  refine ⟨⟨rfl, rfl, fun j hj h => ?_⟩, rfl, fun k h => by simp [markerAt] at h⟩
  have : j = 0 := by omega
  subst this
  simp [markerAt] at h

/-- `RandomizingTheWorkingFrame`, `RecomputingTheChecksum` and `AFlippedDataBitIsDetected`: the last index of each range. -/
theorem witness_LastBytes : 1019 < 1020 ∧ 891 < 892 ∧ 127 < 128 ∧ 7 < 8 := by decide

/-- `ValidatingTheChecksum`: Dirty; Clean and matching; Clean and not matching. -/
theorem witness_ValidatingTheChecksum : State.reset.fb.dirty = true ∧
    (emptyFrame.recompute.dirty = false ∧
      ∀ j, j < 128 → bufByte emptyFrame.recompute.cvcdu (892 + j) = parityByte emptyFrame.recompute.cvcdu j) ∧
    ∃ b : Buf Config.cvcduLen, ¬ ∀ j, j < 128 → bufByte b (892 + j) = parityByte b j := by
  refine ⟨rfl, ⟨rfl, (checksumMatches_iff _).mp (recompute_checksumMatches _)⟩, ?_⟩
  have hm := (checksumMatches_iff emptyFrame.recompute).mp (recompute_checksumMatches _) 0 (by decide)
  refine ⟨flipBit emptyFrame.recompute.cvcdu 892 0, fun h => ?_⟩
  have h0 := h 0 (by decide)
  have hv : parityByte (flipBit emptyFrame.recompute.cvcdu 892 0) 0 = parityByte emptyFrame.recompute.cvcdu 0 := by
    have e : subBlock (flipBit emptyFrame.recompute.cvcdu 892 0) (0 % 4) = subBlock emptyFrame.recompute.cvcdu (0 % 4) := by
      apply List.map_congr_left
      intro i hi
      rw [flip_byte _ _ _ _ (by decide), if_neg]
      simp at hi; omega
    rw [parityByte, e, parityByte]
  rw [hv, ← hm, flip_byte _ _ _ _ (by decide), if_pos rfl] at h0
  exact flip_ne _ _ (by decide) h0

/-- `ValidAfterRecomputing` and `WritingAFrame`: a Dirty frame, and a Clean one. -/
theorem witness_WritingAFrame : State.reset.fb.dirty = true ∧ (onHeader []).fb.dirty = false := ⟨rfl, rfl⟩

/-- `AFlippedChecksumBitIsDetected`: a valid frame, and the first and last bits of its checksum field. -/
theorem witness_AFlippedChecksumBitIsDetected : (892 ≤ 892 ∧ 1019 < 1020 ∧ 7 < 8) ∧
    exec .ckValidate { State.reset with fb := emptyFrame.recompute } =
      .next (okEnd { State.reset with fb := emptyFrame.recompute } 1 []) := by
  refine ⟨by decide, ?_⟩
  have h : emptyFrame.recompute.checksumMatches = true := recompute_checksumMatches _
  show execCkValidate _ = _
  simp only [execCkValidate, h, if_true]
  rfl

/-- `FrameFieldReads` and `FrameFieldWrites`: the bounds of the pointer, and the selectors that are none. -/
theorem witness_FrameFieldWrites : FrameField.fhp.setInstr 2047 = some (.caduSetFhp 2047) ∧
    2047 < 2 ^ FrameField.fhp.width ∧ 2 ^ FrameField.fhp.width ≤ 2048 ∧ FrameField.replay ≠ FrameField.fhp ∧
    (0x04 : Byte).toNat = 4 ∧ 7 ≤ (0x07 : Byte).toNat ∧ 7 < (0x08 : Byte).toNat := by decide

/-- `TheDataZoneAsAWhole`: 883, 884 and 885 bytes. -/
theorem witness_TheDataZoneAsAWhole : (zeros 884).length = 884 ∧ (zeros 883).length ≠ 884 ∧ (zeros 885).length ≠ 884 := by
  simp [zeros]

/-- `ReadingAFrame`: exactly 1020 bytes behind the marker, 1019, and no marker. -/
theorem witness_ReadingAFrame (n : Nat) : FirstMatch 0 ([0x1A, 0xCF, 0xFC, 0x1D] ++ zeros n) 4 ∧
    4 + 1020 ≤ ([0x1A, 0xCF, 0xFC, 0x1D] ++ zeros 1020 : List Byte).length ∧
    ([0x1A, 0xCF, 0xFC, 0x1D] ++ zeros 1019 : List Byte).length < 4 + 1020 ∧ NoMatch 0 [] :=
  ⟨firstMatch_marker _ _, by simp [zeros], by simp [zeros], fun j h1 h2 => by simp at h2; omega⟩

/-- `FramesComeBackFromTheWire`: readers of the same and of the other variant, on the bytes written. -/
theorem witness_FramesComeBackFromTheWire (W : List Byte) : ∃ r q : State,
    r.cfg.randomize = State.reset.cfg.randomize ∧ r.par = State.reset.par ∧ r.frmIn.pending = W ++ [0x55] ∧
    q.cfg.randomize ≠ State.reset.cfg.randomize ∧ q.par = State.reset.par ∧ q.frmIn.pending = W ++ [0x55] :=
  ⟨onFrames (W ++ [0x55]), { onFrames (W ++ [0x55]) with cfg := { State.reset.cfg with randomize := 1 } },
    rfl, rfl, rfl, (by decide : (1#1 : BitVec 1) ≠ 0#1), rfl, rfl⟩

/-- `PacketFieldReads` and `PacketFieldWrites`: the bounds of the sequence count, and the selectors that are none. -/
theorem witness_PacketFieldWrites : PacketField.seqcount.setInstr 16383 = some (.pktSetSeqcount 16383) ∧
    16383 < 2 ^ PacketField.seqcount.width ∧ 2 ^ PacketField.seqcount.width ≤ 16384 ∧
    PacketField.datalen ≠ PacketField.seqcount ∧ 6 ≤ (0x06 : Byte).toNat ∧ 6 < (0x07 : Byte).toNat := by decide

/-- `SettingTheDataField`: 1, 65536, 0 and 65537 bytes. -/
theorem witness_SettingTheDataField : 1 ≤ (zeros 1).length ∧ (zeros 65536).length ≤ 65536 ∧ (zeros 0).length = 0 ∧
    65536 < (zeros 65537).length := by simp only [zeros_length]; decide

/-- `SettingTheDataFieldWithItsLength`: the bounds, and each way to miss them. -/
theorem witness_SettingTheDataFieldWithItsLength : (1 ≤ 1 ∧ (zeros 1).length = 1) ∧
    (65536 ≤ 65536 ∧ (zeros 65536).length = 65536) ∧ 65536 < 65537 ∧ (zeros 2).length ≠ 3 := by
  simp only [zeros_length]; decide

/-- `ReadingTheDataField`, `PushingNeedsAPacket` and `WritingAPacket`: with and without a data field. -/
theorem witness_ReadingTheDataField : (onPacket 1 0 0).pb.hasData = true ∧ State.reset.pb.hasData = false := ⟨rfl, rfl⟩

/-- `MakingAFillPacket`: the bounds and the first lengths outside. -/
theorem witness_MakingAFillPacket : (7 ≤ 7 ∧ 65542 ≤ 65542) ∧ 6 < 7 ∧ 65542 < 65543 := by decide

/-- `ReadingAPacket`: nothing pending; one byte; 5 of 6 header bytes; one data byte too few; the whole packet. -/
theorem witness_ReadingAPacket : (onPackets []).pktIn.pending = [] ∧
    1 ≤ ([0x08] : List Byte).length ∧ ([0x08, 0x40, 0xC0, 0x01, 0x00] : List Byte).length < 6 ∧
    ([0x08, 0x40, 0xC0, 0x01, 0x00, 0x01, 0xAA] : List Byte).length < 6 + 2 ∧
    2 = beNat (([0x08, 0x40, 0xC0, 0x01, 0x00, 0x01, 0xAA, 0xBB].drop 4).take 2) + 1 ∧
    6 + 2 ≤ ([0x08, 0x40, 0xC0, 0x01, 0x00, 0x01, 0xAA, 0xBB] : List Byte).length := by decide

/-- `PacketsComeBackFromTheStream`: a packet with data and the invariant of R36, and a reader of the bytes written. -/
theorem witness_PacketsComeBackFromTheStream (W : List Byte) : (onPacket 1 0 0).pb.hasData = true ∧
    PacketInv (onPacket 1 0 0).pb ∧ ∃ r : State, r.pktIn.pending = W ++ [0x55] :=
  ⟨rfl, ⟨by decide, by decide, by decide⟩, onPackets (W ++ [0x55]), rfl⟩

/-- The open frame after reset carries the counter (R49 (b)). -/
theorem counter_reset : State.reset.pz.fb.header.counter = State.reset.pz.ctr := by decide +kernel

/-- `PackingAPacketIntoFrames`: the cursor at 883, where a packet of 7 bytes emits one frame, and at 876, where it emits none. -/
theorem witness_PackingAPacketIntoFrames (n : Nat) (h : n = 883 ∨ n = 876) : (onPacket 1 n 0).pb.hasData = true ∧
    (onPacket 1 n 0).pz.mode = 0#1 ∧ (onPacket 1 n 0).pz.nbo ≤ 883 ∧
    (onPacket 1 n 0).pz.fb.header.counter = (onPacket 1 n 0).pz.ctr ∧
    ((openZone (onPacket 1 n 0).pz ++ packetBytes (onPacket 1 n 0).pb).length / 884 = if n = 883 then 1 else 0) := by
  rcases h with rfl | rfl <;> decide +kernel

/-- `PaddingAPacketIntoOneFrame`: lengths 884, 877, 878 and 885. -/
theorem witness_PaddingAPacketIntoOneFrame : (onPacket 1 0 1).pb.hasData = true ∧ (onPacket 1 0 1).pz.mode = 1#1 ∧
    (packetBytes (pkt44 878)).length = 884 ∧ (packetBytes (pkt44 871)).length = 877 ∧
    (packetBytes (pkt44 872)).length = 878 ∧ (packetBytes (pkt44 879)).length = 885 := by decide +kernel

/-- `ClosingTheOpenFrame`: the cursor at 0, at 1, at 877 (7 bytes left), at 878 (6 left) and at 883 (1 left). -/
theorem witness_ClosingTheOpenFrame (n : Nat) (h : n ∈ [0, 1, 877, 878, 883]) : (onPacket 1 n 0).pz.nbo = n ∧ n ≤ 883 ∧
    (onPacket 1 n 0).pz.fb.header.counter = (onPacket 1 n 0).pz.ctr ∧ (7 ≤ 884 - n ↔ n ≤ 877) := by
  refine ⟨rfl, ?_, counter_reset, by omega⟩
  simp at h; omega

/-- `APacketOfOneDataZone`: data fields of 878 and of 884 bytes at an empty cursor. -/
theorem witness_APacketOfOneDataZone (n : Nat) : (onPacket n 0 0).pb.hasData = true ∧ (onPacket n 0 0).pz.mode = 0#1 ∧
    (onPacket n 0 0).pz.nbo = 0 ∧ (onPacket n 0 0).pz.fb.header.counter = (onPacket n 0 0).pz.ctr ∧
    (onPacket n 0 0).pb.data.length = n :=
  ⟨rfl, rfl, rfl, counter_reset, List.length_replicate⟩

/-- `WhatAPackingPassEmits`: two packets that end 6 bytes before a frame boundary, in stream mode. -/
theorem witness_WhatAPackingPassEmits : (∀ p ∈ [pkt44 1, pkt44 865], p.hasData = true) ∧ State.reset.cfg.packMode = 0#1 ∧
    ([pkt44 1, pkt44 865].map packetBytes).flatten.length = 878 :=
  ⟨by simp [pkt44], rfl, by decide +kernel⟩

/-- `UnpackingAFrame` and `UnpackingAtTheEdges`: the pointers where the clauses meet, the last count that fits a finite
width, and the first that does not. -/
theorem witness_UnpackingAFrame : FrameField.value (onPointer 884).fb.cvcdu .fhp = 884 ∧
    FrameField.value (onPointer 885).fb.cvcdu .fhp = 885 ∧ FrameField.value (onPointer 2046).fb.cvcdu .fhp = 2046 ∧
    FrameField.value (onPointer 2047).fb.cvcdu .fhp = 2047 ∧ (onPointer 884).dz.seen = false ∧
    (onPointer 884).dz.reported = false ∧ atTheBounds.dz.seen = true ∧ 6 + 1 < 2 ^ 3 ∧ 2 ^ 3 ≤ 7 + 1 := by decide +kernel

/-- `UnpackingAtTheEdges`: a state whose discard counter is full, and states whose counts `DZ.END` reported, with a pointer at
each bound and a counter that can still count once. -/
theorem witness_UnpackingAtTheEdges : ∃ s u v : State,
    (s.dz.seen = false ∧ s.par.dfcWidth = some 3 ∧ FrameField.value s.fb.cvcdu .fhp = 2047 ∧ 2 ^ 3 ≤ s.dz.dfc + 1) ∧
    (u.dz.seen = false ∧ u.dz.reported = true ∧ FrameField.value u.fb.cvcdu .fhp = 2047 ∧ u.par.dfcWidth = some 3 ∧
      u.dz.dfc + 1 < 2 ^ 3) ∧
    v.dz.seen = false ∧ v.dz.reported = true ∧ FrameField.value v.fb.cvcdu .fhp = 884 :=
  ⟨{ onPointer 2047 with dz := { emptyDepacketizer with dfc := 7 }, par := { State.reset.par with dfcWidth := some 3 } },
    { onPointer 2047 with
      dz := { emptyDepacketizer with dfc := 6, reported := true }
      par := { State.reset.par with dfcWidth := some 3 } },
    { onPointer 884 with dz := { emptyDepacketizer with reported := true } },
    ⟨rfl, rfl, by decide +kernel, by decide⟩, ⟨rfl, rfl, by decide +kernel, rfl, by decide⟩, rfl, rfl, by decide +kernel⟩

/-- `OpeningAndClosingAnUnpackingPass`: before and after the report. -/
theorem witness_OpeningAndClosingAnUnpackingPass : State.reset.dz.reported = false ∧ atTheBounds.dz.reported = true :=
  ⟨rfl, rfl⟩

/-- `DiscardsAreReportedOnce`: `DZ.END` before and after the report. One sentinel frame, then one with the pointer 884. -/
theorem witness_DiscardsAreReportedOnce : (∃ t, exec .dzEnd State.reset = .next t ∧ State.reset.dz.reported = false ∧
      t.dz.reported = true) ∧
    (∃ t, exec .dzEnd atTheBounds = .next t ∧ atTheBounds.dz.reported = true) ∧
    State.reset.par.dfcWidth = none ∧
    State.reset.dz = { seen := false, reported := false, dfc := 0, dbc := 0 } ∧
    (∀ g ∈ [(onPointer 2047).fb], g.header.fhp = 2047) ∧ (onPointer 884).fb.header.fhp.toNat ≤ 884 := by
  refine ⟨⟨_, rfl, rfl, rfl⟩, ⟨_, rfl, rfl⟩, rfl, rfl, ?_, by decide +kernel⟩
  intro g hg
  rw [List.mem_singleton] at hg
  subst hg
  decide +kernel

/-- `UnpackingInvertsPacking`: a packet, a reader of the frames of its pass, and a reader of its bytes. -/
theorem witness_UnpackingInvertsPacking : ∃ (c : Cfg) (r v : State), (∀ p ∈ [pkt44 878], p.hasData = true ∧ PacketInv p) ∧
    r.cfg.randomize = c.randomize ∧ r.dz = { seen := false, reported := false, dfc := 0, dbc := 0 } ∧
    r.frmIn.pending = passWire c r.par ([pkt44 878].map packetBytes) ∧
    v.pktIn.pending = passBytes ([pkt44 878].map packetBytes) :=
  ⟨State.reset.cfg, onFrames (passWire State.reset.cfg State.reset.par ([pkt44 878].map packetBytes)),
    onPackets (passBytes ([pkt44 878].map packetBytes)), by simp [pkt44, PacketInv], rfl, rfl, rfl, rfl⟩

/-- `NoResultWithoutSuccess`, `WhatAFailureLeaves`, `WhichOperationsRaiseWhichStatus`, `StreamsOnlyMoveForward` and
`UnitsKeepToTheirOwnState`: an operation that ends with a status of each shape. -/
theorem witness_WhatAFailureLeaves :
    (∃ t, exec (.cfgSetVcid 64) State.reset = .next t ∧ t.status = .fieldRange) ∧
    (∃ t, exec .syncShift State.reset = .next t ∧ t.status = .endOfStream) ∧
    (∃ t, exec .pktRead (onPackets [0x08]) = .next t ∧ t.status = .truncated) ∧
    (∃ t, exec .pzPush (onPacket 872 0 1) = .next t ∧ t.status = .packetSkipped) ∧
    ∃ t, exec .dzPush (onPointer 885) = .next t ∧ t.status = .invalidPointer := by
  refine ⟨⟨_, rfl, rfl⟩, ⟨_, rfl, rfl⟩, ⟨_, rfl, rfl⟩, ?_, ?_⟩
  · cases h : exec .pzPush (onPacket 872 0 1) with
    | next t =>
      have : ending (exec .pzPush (onPacket 872 0 1)) = some (.packetSkipped, 0) := by decide +kernel
      rw [h] at this
      exact ⟨t, rfl, congrArg (fun o => (o.getD (.ok, 0)).1) this⟩
    | fault f =>
      have : ending (exec .pzPush (onPacket 872 0 1)) = some (.packetSkipped, 0) := by decide +kernel
      rw [h] at this; cases this
    | refused f =>
      have : ending (exec .pzPush (onPacket 872 0 1)) = some (.packetSkipped, 0) := by decide +kernel
      rw [h] at this; cases this
  · cases h : exec .dzPush (onPointer 885) with
    | next t =>
      have : ending (exec .dzPush (onPointer 885)) = some (.invalidPointer, 0) := by decide +kernel
      rw [h] at this
      exact ⟨t, rfl, congrArg (fun o => (o.getD (.ok, 0)).1) this⟩
    | fault f =>
      have : ending (exec .dzPush (onPointer 885)) = some (.invalidPointer, 0) := by decide +kernel
      rw [h] at this; cases this
    | refused f =>
      have : ending (exec .dzPush (onPointer 885)) = some (.invalidPointer, 0) := by decide +kernel
      rw [h] at this; cases this

end Sys2Proof.Tests
end

section
/-! SUPPORT. The inversion lemma of `exec`: everything an instruction can answer, in one list. The statements about all
instructions (R21, R23, R39, R49) are then case splits over this list, and none of them unfolds a meaning again. -/

namespace Sys2Proof.Machine

/-! ### What the writes do to the packet's and the packetizer's invariants (R36, R49) -/

/-- The packet of `PKT.NEW` and of reset meets R36. -/
theorem packetInv_empty : PacketInv emptyPacket :=
  ⟨by simp [emptyPacket], by simp [emptyPacket], fun h => Bool.noConfusion h⟩

/-- Data set directly leaves the length field stale, so that R36 asks for its length alone (R195). -/
theorem packetInv_withStaleData (p : Packet) (d : List Byte) (h1 : 1 ≤ d.length) (h2 : d.length ≤ 65536) :
    PacketInv (p.withStaleData d) :=
  ⟨⟨fun _ => h1, fun _ => rfl⟩, h2, fun _ h => Bool.noConfusion h⟩

/-- Header and data set together meet R36 when the length field says the data's length less 1. -/
theorem packetInv_freshPacket (h : Buf Config.pktHdrLen) (d : List Byte) (h1 : 1 ≤ d.length)
    (h2 : beNat (bufRead h 4 2) + 1 = d.length) : PacketInv (freshPacket h d) := by
  have hlt := beNat_lt (bufRead h 4 2)
  rw [bufRead_length _ _ _ (by decide)] at hlt
  refine ⟨⟨fun _ => h1, fun _ => rfl⟩, ?_, fun _ _ => ?_⟩
  · show d.length ≤ 65536
    omega
  · show beNat (bufRead h 4 2) = d.length - 1
    omega

/-- The length field that `PKT.SETDATA_LEN` writes (R196). -/
theorem length_bufWrite (h : Buf Config.pktHdrLen) (n : Nat) (h1 : 1 ≤ n) (h2 : n ≤ 65536) :
    beNat (bufRead (bufWrite h 4 (beBytes 2 (n - 1))) 4 2) + 1 = n := by
  have e := bufRead_bufWrite_same h 4 (beBytes 2 (n - 1)) (by simp)
  rw [beBytes_length] at e
  rw [e, beNat_beBytes]
  omega

/-- The length field of a fill packet (R103, R201). -/
theorem length_fillHeader (n : Nat) (h1 : 7 ≤ n) (h2 : n ≤ 65542) :
    beNat (bufRead (bufOfList Config.pktHdrLen (fillHeaderBytes n)) 4 2) + 1 = n - 6 := by
  have e : bufRead (bufOfList Config.pktHdrLen (fillHeaderBytes n)) 4 2 = beBytes 2 (n - 7) := by
    rw [bufRead, bufOfList_bytes _ (by simp [fillHeaderBytes])]
    simp [fillHeaderBytes, List.take_of_length_le]
  rw [e, beNat_beBytes]
  omega

/-- `PZ.INIT` opens a frame that meets R49 (R216). -/
theorem packetizerInv_init (c : Cfg) : PacketizerInv
    { nbo := 0, ctr := c.startCtr, fb := emptyFrame.setHeader (initHeader c), mode := c.packMode, rand := c.randomize } := by
  refine ⟨Nat.zero_le _, ?_, .inr ?_, fun _ => rfl, ?_, ?_, rfl⟩ <;> simp [initHeader]

/-- A padded packet's data zone, emitted, keeps the packetizer's invariants (R226). -/
theorem packetizerInv_emitZone (z : List Byte) (s : State) (hl : z.length = 884) (hz : PacketizerInv s.pz) :
    PacketizerInv (emitZone z 0 s).pz := by
  obtain ⟨_, _, _, _, hA, hB, _⟩ := hz
  obtain ⟨b, e, hb⟩ := emitZone_eq z 0 s hl
  rw [e]
  exact packetizerInv_reopened _ _ _ _ _ _ _ hb (by omega) rfl (.inr (by simp)) (fun _ => rfl) hA hB

/-- Two operations that end alike leave the same packetizer. -/
theorem pz_eq_of_okEnd_eq {s t : State} {q r : Nat} {d e : List Byte}
    (h : (.next (okEnd s q d) : Result) = .next (okEnd t r e)) : s.pz = t.pz := by
  have hs := congrArg State.pz (Host.Outcome.next.inj h)
  exact hs

/-- A `PZ.PUSH` that packs keeps the packetizer's invariants, in either mode (R217). -/
theorem packetizerInv_pzPush (s t : State) (r : Nat) (hd : s.pb.hasData = true) (hz : PacketizerInv s.pz)
    (h : execPzPush s = .next (okEnd t r [])) : PacketizerInv t.pz := by
  have hpos := packetBytes_pos s.pb
  rcases bit_cases s.pz.mode with hm | hm
  · rw [execPzPush_stream s hd hm] at h
    rw [← pz_eq_of_okEnd_eq h]
    exact packetizerInv_packBytes _ _ (List.length_pos_iff.mp (by omega)) hz hm
  · rw [execPzPush_padded s hd hm] at h
    by_cases hl : (packetBytes s.pb).length = 884 ∨ (packetBytes s.pb).length ≤ 877
    · rw [padOne_ok _ _ hl] at h
      rw [← pz_eq_of_okEnd_eq h]
      refine packetizerInv_emitZone _ _ ?_ hz
      split
      · simpa
      · rw [List.length_append, fillPacket_length _ (by omega)]
        omega
    · rw [padOne_skip _ _ (by omega) (by omega), Host.Outcome.next.injEq] at h
      exact Status.noConfusion (congrArg State.status h)

/-! ### The list of answers -/

/-- Everything that an instruction can answer in the state `s`: which instruction, the whole state it leaves, and the
invariant that the values it writes meet. -/
inductive Answers : Instr → State → Result → Prop
  /-- a read, a validation, or nothing to do: only the result registers change -/
  | reads {i s} (r : Nat) (d : List Byte) (hi : mayRaise i .ok = true) : Answers i s (.next (okEnd s r d))
  /-- a refused operation, or an item that is no operation: only the result registers change -/
  | refuses {i s} (st : Status) (hi : mayRaise i st = true) (hst : st ≠ .ok) : Answers i s (.next (statusEnd s st))
  /-- `RESET` (R262) -/
  | reset {s} : Answers .reset s (.next (okEnd (resetState s) 0 []))
  /-- `CFG.SET` (R260) -/
  | setsCfg {i s} (c : Cfg) (hi : writesCfg i = true) : Answers i s (.next (okEnd { s with cfg := c } 0 []))
  /-- an operation on `FB` alone (R143, R155, R166, R171, R173) -/
  | setsFrame {i s} (f : Frame) (hi : writesFrame i = true) : Answers i s (.next (okEnd { s with fb := f } 0 []))
  /-- an operation on `PB` alone (R192 to R196, R201) -/
  | setsPacket {i s} (p : Packet) (hi : writesPacket i = true) (hp : PacketInv s.pb → PacketInv p) :
      Answers i s (.next (okEnd { s with pb := p } 0 []))
  /-- `n` bytes went through the shift register (R131, R132) -/
  | shifts {i s} (n r : Nat) (hi : i ∈ [.syncShift, .syncFind]) (hn : n ≤ s.frmIn.pending.length) :
      Answers i s (.next (okEnd { s with
        syncSr := shiftAll s.syncSr (s.frmIn.pending.take n), frmIn := eaten s.frmIn n } r []))
  /-- the search found no marker (R132, R175) -/
  | noMarker {i s} (hi : i ∈ [.syncFind, .caduRead]) :
      Answers i s (.next (statusEnd { s with
        syncSr := shiftAll s.syncSr (s.frmIn.pending.take s.frmIn.pending.length)
        frmIn := eaten s.frmIn s.frmIn.pending.length } .endOfStream))
  /-- `CADU.READ` of a whole frame (R175) -/
  | readsFrame {s} (k r : Nat) (b : Buf Config.cvcduLen) (hk : k + 1020 ≤ s.frmIn.pending.length) :
      Answers .caduRead s (.next (okEnd { s with
        syncSr := shiftAll s.syncSr (s.frmIn.pending.take k)
        frmIn := eaten s.frmIn (k + 1020), fb := { cvcdu := b, dirty := false } } r []))
  /-- `CADU.READ` of a frame that the stream cuts off (R175) -/
  | cutFrame {s} (k : Nat) : Answers .caduRead s (.next (statusEnd { s with
        syncSr := shiftAll s.syncSr (s.frmIn.pending.take k)
        frmIn := eaten s.frmIn s.frmIn.pending.length
        diag := s.diag ++ [.decodeFailure .truncated (s.frmIn.pos + s.frmIn.pending.length)] } .truncated))
  /-- `CADU.WRITE` (R178) -/
  | writesWire {s} (b : List Byte) :
      Answers .caduWrite s (.next (okEnd { s with fb := s.fb.settle, frmOut := s.frmOut ++ b } 0 []))
  /-- `PKT.READ` of a whole packet (R197) -/
  | readsPacket {s} (n : Nat) (p : Packet) (hn : n ≤ s.pktIn.pending.length) (hp : PacketInv p) :
      Answers .pktRead s (.next (okEnd { s with pktIn := eaten s.pktIn n, pb := p } n []))
  /-- `PKT.READ` of a packet that the stream cuts off (R197) -/
  | cutPacket {s} : Answers .pktRead s (.next (statusEnd { s with
        pktIn := eaten s.pktIn s.pktIn.pending.length
        diag := s.diag ++ [.decodeFailure .truncated (s.pktIn.pos + s.pktIn.pending.length)] } .truncated))
  /-- `PKT.WRITE` (R203) -/
  | writesPkt {s} (hd : s.pb.hasData = true) : Answers .pktWrite s (.next (okEnd { s with
        pb := s.pb.recalc, pktOut := s.pktOut ++ packetBytes s.pb } (6 + s.pb.data.length) []))
  /-- `PZ.INIT` (R216) -/
  | opensPacking {s} (z : Packetizer) (hz : PacketizerInv z) : Answers .pzInit s (.next (okEnd { s with pz := z } 0 []))
  /-- `PZ.PUSH` of a packet that a padded frame cannot hold (R226) -/
  | skips {s} (hd : s.pb.hasData = true) : Answers .pzPush s (.next (statusEnd { s with
        pb := s.pb.recalc, diag := s.diag ++ [.packetSkipped (packetBytes s.pb).length] } .packetSkipped))
  /-- `PZ.PUSH` of a packet that is packed (R218, R226) -/
  | packs {s} (b : List Byte) (z : Packetizer) (r : Nat) (hd : s.pb.hasData = true)
      (hz : PacketizerInv s.pz → PacketizerInv z) :
      Answers .pzPush s (.next (okEnd { s with pb := s.pb.recalc, frmOut := s.frmOut ++ b, pz := z } r []))
  /-- `PZ.FLUSH` (R223) -/
  | flushes {s} (b : List Byte) (z : Packetizer) (r : Nat) (hz : PacketizerInv s.pz → PacketizerInv z) :
      Answers .pzFlush s (.next (okEnd { s with frmOut := s.frmOut ++ b, pz := z } r []))
  /-- `DZ.INIT` (R245) -/
  | opensUnpacking {s} : Answers .dzInit s (.next (okEnd { s with dz := emptyDepacketizer } 0 []))
  /-- `DZ.PUSH` after alignment (R249) -/
  | unpacks {s} (hs : s.dz.seen = true) :
      Answers .dzPush s (.next (okEnd { s with pktOut := s.pktOut ++ s.fb.dataZone } 884 []))
  /-- `DZ.PUSH` of a frame that is discarded (R246) -/
  | discards {s} (hs : s.dz.seen = false) (hc : countFits s.par.dfcWidth (s.dz.dfc + 1) = true) :
      Answers .dzPush s (.next (okEnd { s with dz := { s.dz with dfc := s.dz.dfc + 1 } } 0 []))
  /-- `DZ.PUSH` of a discarded frame that cannot be counted (log entry 3) -/
  | overflows {s} (hc : countFits s.par.dfcWidth (s.dz.dfc + 1) = false) : Answers .dzPush s (.fault .dfcOverflow)
  /-- `DZ.PUSH` before alignment with a meaningless pointer (R246) -/
  | badPointer {s} (p : Nat) : Answers .dzPush s (.next (statusEnd { s with
        diag := s.diag ++ [.decodeFailure .invalidPointer p] } .invalidPointer))
  /-- `DZ.PUSH` of the frame that aligns (R246, R250) -/
  | aligns {s} (p : Nat) (b : List Byte) (hp : p ≤ 884) : Answers .dzPush s (.next (okEnd { s with
        pktOut := s.pktOut ++ b
        dz := { s.dz with seen := true, reported := true, dbc := p }
        diag := s.diag ++ (if s.dz.reported then [] else [.discardReport s.dz.dfc p]) } (884 - p) []))
  /-- `DZ.END` (R251) -/
  | closesUnpacking {s} : Answers .dzEnd s (.next (okEnd { s with
        dz := s.dz.afterReport
        diag := s.diag ++ (if s.dz.reported then [] else [.discardReport s.dz.dfc s.dz.dbc]) } s.dz.dfc []))

/-! ### Each operation answers from the list -/

theorem cfgSet_answers {i : Instr} (hi : writesCfg i = true) (hr : mayRaise i .fieldRange = true) (w v : Nat) (c : Cfg)
    (s : State) : Answers i s (cfgSet w v c s) := by
  rcases cfgSet_cases w v c s with h | h <;> rw [h]
  · exact .setsCfg c hi
  · exact .refuses _ hr nofun

theorem caduSet_answers {i : Instr} (hi : writesFrame i = true) (hr : mayRaise i .fieldRange = true) (w v : Nat)
    (h : VcHeader) (s : State) : Answers i s (caduSet w v h s) := by
  rcases caduSet_cases w v h s with e | e <;> rw [e]
  · exact .setsFrame _ hi
  · exact .refuses _ hr nofun

/-- A header that keeps the length field keeps R36. -/
theorem pktSet_answers {i : Instr} (hi : writesPacket i = true) (hr : mayRaise i .fieldRange = true) (w v : Nat)
    (h : PktHeader) (s : State) (hh : h.datalen = s.pb.header.datalen) : Answers i s (pktSet w v h s) := by
  rcases pktSet_cases w v h s with e | e <;> rw [e]
  · exact .setsPacket _ hi (packetInv_setHeader _ _ hh)
  · exact .refuses _ hr nofun

theorem execSyncShift_answers (s : State) : Answers .syncShift s (execSyncShift s) := by
  rcases execSyncShift_cases s with ⟨r, hl, h⟩ | ⟨h, _⟩ <;> rw [h]
  · exact .shifts 1 r (by simp) hl
  · exact .refuses _ rfl nofun

theorem execSyncFind_answers (s : State) : Answers .syncFind s (execSyncFind s) := by
  rcases execSyncFind_cases s with ⟨k, r, hk, h⟩ | h <;> rw [h]
  · exact .shifts k r (by simp) hk
  · exact .noMarker (by simp)

theorem execCkValidate_answers (s : State) : Answers .ckValidate s (execCkValidate s) := by
  rcases execCkValidate_cases s with h | h <;> rw [h]
  · exact .reads 1 [] rfl
  · exact .refuses _ rfl nofun

theorem execCaduSetdata_answers (d : List Byte) (s : State) : Answers (.caduSetdata d) s (execCaduSetdata d s) := by
  rcases execCaduSetdata_cases d s with h | h <;> rw [h]
  · exact .setsFrame _ rfl
  · exact .refuses _ rfl nofun

theorem execCaduRead_answers (s : State) : Answers .caduRead s (execCaduRead s) := by
  rcases execCaduRead_cases s with ⟨k, b, _, hk, h⟩ | ⟨k, h⟩ | h <;> rw [h]
  · exact .readsFrame k _ b hk
  · exact .cutFrame k
  · exact .noMarker (by simp)

theorem execPktGetdata_answers (s : State) : Answers .pktGetdata s (execPktGetdata s) := by
  rcases execPktGetdata_cases s with h | h <;> rw [h]
  · exact .reads _ _ rfl
  · exact .refuses _ rfl nofun

theorem execPktSetdata_answers (d : List Byte) (s : State) : Answers (.pktSetdata d) s (execPktSetdata d s) := by
  rcases execPktSetdata_cases d s with ⟨h1, h2, h⟩ | h <;> rw [h]
  · exact .setsPacket _ rfl fun _ => packetInv_withStaleData _ d h1 h2
  · exact .refuses _ rfl nofun

theorem execPktSetdataLen_answers (n : Nat) (d : List Byte) (s : State) :
    Answers (.pktSetdataLen n d) s (execPktSetdataLen n d s) := by
  rcases execPktSetdataLen_cases n d s with ⟨h1, h2, hd, h⟩ | h <;> rw [h]
  · refine .setsPacket _ rfl fun _ => packetInv_freshPacket _ d (by omega) ?_
    rw [length_bufWrite _ n h1 h2, hd]
  · exact .refuses _ rfl nofun

theorem execPktRead_answers (s : State) : Answers .pktRead s (execPktRead s) := by
  rcases execPktRead_cases s with ⟨n, p, hn, h, hd, hst, hl⟩ | ⟨h, _⟩ | h <;> rw [h]
  · obtain ⟨hdr, data, _, _⟩ := p
    subst hd hst
    exact .readsPacket n _ hn (packetInv_freshPacket hdr data (by simp only at hl; omega) hl)
  · exact .refuses _ rfl nofun
  · exact .cutPacket

theorem execPktWrite_answers (s : State) : Answers .pktWrite s (execPktWrite s) := by
  rcases execPktWrite_cases s with ⟨hd, h⟩ | h <;> rw [h]
  · exact .writesPkt hd
  · exact .refuses _ rfl nofun

theorem execPktFill_answers (n : Nat) (s : State) : Answers (.pktFill n) s (execPktFill n s) := by
  rcases execPktFill_cases n s with ⟨h1, h2, h⟩ | h <;> rw [h]
  · refine .setsPacket _ rfl fun _ => packetInv_freshPacket _ _ (by simp; omega) ?_
    rw [length_fillHeader n h1 h2, zeros_length]
  · exact .refuses _ rfl nofun

theorem execPzPush_answers (s : State) : Answers .pzPush s (execPzPush s) := by
  rcases execPzPush_cases s with ⟨_, h⟩ | ⟨hd, h⟩ | ⟨hd, t, r, ⟨b, z, rfl⟩, h⟩ <;> rw [h]
  · exact .refuses _ rfl nofun
  · exact .skips hd
  · exact .packs b z r hd fun hz => packetizerInv_pzPush s _ r hd hz h

theorem execPzFlush_answers (s : State) : Answers .pzFlush s (execPzFlush s) := by
  obtain ⟨t, r, ⟨b, z, rfl⟩, h⟩ := execPzFlush_cases s
  rw [h]
  exact .flushes b z r fun hz => packetizerInv_pzFlush s hz _ r h

theorem execDzPush_answers (s : State) : Answers .dzPush s (execDzPush s) := by
  rcases execDzPush_cases s with ⟨h, hs⟩ | ⟨h, hs, hc⟩ | ⟨h, hc⟩ | h | ⟨hp, h⟩ <;> rw [h]
  · exact .unpacks hs
  · exact .discards hs hc
  · exact .overflows hc
  · exact .badPointer _
  · exact .aligns _ _ hp

theorem execDzEnd_answers (s : State) : Answers .dzEnd s (execDzEnd s) := by
  rw [execDzEnd, reportOnce_eq]
  exact .closesUnpacking

/-- The inversion lemma: whatever the instruction and the state, the answer stands in the list. -/
theorem exec_answers (i : Instr) (s : State) : Answers i s (exec i s) :=
  match i with
  | .reset => .reset
  | .cfgSetVersion _ | .cfgSetScid _ | .cfgSetVcid _ | .cfgSetStartCtr _ | .cfgSetReplay _ | .cfgSetRandomize _
  | .cfgSetPackMode _ => cfgSet_answers rfl rfl _ _ _ s
  | .cfgGetVersion | .cfgGetScid | .cfgGetVcid | .cfgGetStartCtr | .cfgGetReplay | .cfgGetRandomize
  | .cfgGetPackMode => .reads _ _ rfl
  | .syncShift => execSyncShift_answers s
  | .syncFind => execSyncFind_answers s
  | .randApply | .ckRecompute | .caduNew => .setsFrame _ rfl
  | .ckValidate => execCkValidate_answers s
  | .caduGetVersion | .caduGetScid | .caduGetVcid | .caduGetCounter | .caduGetSpareA | .caduGetReplay | .caduGetFhp
  | .caduGetSpareB | .caduGetdata => .reads _ _ rfl
  | .caduSetVersion _ | .caduSetScid _ | .caduSetVcid _ | .caduSetCounter _ | .caduSetReplay _
  | .caduSetFhp _ => caduSet_answers rfl rfl _ _ _ s
  | .caduSetdata d => execCaduSetdata_answers d s
  | .caduRead => execCaduRead_answers s
  | .caduWrite => .writesWire _
  | .pktNew => .setsPacket _ rfl fun _ => packetInv_empty
  | .pktGetPversion | .pktGetType | .pktGetShf | .pktGetApid | .pktGetSeqflags | .pktGetSeqcount
  | .pktGetDatalen => .reads _ _ rfl
  | .pktSetPversion _ | .pktSetType _ | .pktSetShf _ | .pktSetApid _ | .pktSetSeqflags _
  | .pktSetSeqcount _ => pktSet_answers rfl rfl _ _ _ s rfl
  | .pktGetdata => execPktGetdata_answers s
  | .pktSetdata d => execPktSetdata_answers d s
  | .pktSetdataLen n d => execPktSetdataLen_answers n d s
  | .pktRead => execPktRead_answers s
  | .pktWrite => execPktWrite_answers s
  | .pktFill n => execPktFill_answers n s
  | .pzInit => .opensPacking _ (packetizerInv_init s.cfg)
  | .pzPush => execPzPush_answers s
  | .pzFlush => execPzFlush_answers s
  | .dzInit => .opensUnpacking
  | .dzPush => execDzPush_answers s
  | .dzEnd => execDzEnd_answers s
  | .formatCmd _ _ | .formatAsm | .formatVcpduHeader _ | .formatPacketHeader _
  | .formatFillPacketHeader _ => .refuses _ rfl nofun

/-- The inversion lemma for an instruction that completes. -/
theorem answers_of_exec {i : Instr} {s t : State} (h : exec i s = .next t) : Answers i s (.next t) :=
  h ▸ exec_answers i s

end Sys2Proof.Machine
end

section
/-! SUPPORT. The statements about every operation, each by a case split over what it can answer: that it completes (R39),
which state it writes (R21, R25, R33 to R35, R40), and how the streams move (R23, R66, R67). -/

namespace Sys2Proof.Machine

/-! ### Completion (R39, R270) -/

/-- A count does not fit exactly where the width is finite and too small (R32). -/
theorem countFits_eq_false_iff (width : Option Nat) (n : Nat) :
    countFits width n = false ↔ ∃ w, width = some w ∧ 2 ^ w ≤ n := by
  cases width <;> simp [countFits, fits]

theorem countFits_eq_true_iff (width : Option Nat) (n : Nat) :
    countFits width n = true ↔ ∀ w, width = some w → n < 2 ^ w := by
  cases width <;> simp [countFits, fits]

/-- In the list of answers only the overflow of the discard counter is no next state. -/
theorem Answers.completes {i : Instr} {s : State} {r : Result} (h : Answers i s r) : (∃ t, r = .next t) ∨
    (i = .dzPush ∧ r = .fault .dfcOverflow ∧ ∃ w, s.par.dfcWidth = some w ∧ 2 ^ w ≤ s.dz.dfc + 1) := by
  cases h with
  | overflows hc => exact .inr ⟨rfl, rfl, (countFits_eq_false_iff _ _).mp hc⟩
  | _ => exact .inl ⟨_, rfl⟩

/-- Settles O55, by the list of answers. -/
theorem everyOperationCompletes : Obligations.EveryOperationCompletes := fun i s => (exec_answers i s).completes

/-! ### The frame of every operation -/

section Frame

variable {i : Instr} {s t : State} (h : Answers i s (.next t))
include h

/-- The parameters, the reset input and the commands are no unit's state: no operation writes them (R50). -/
theorem Answers.outside_eq : t.par = s.par ∧ t.resetIn = s.resetIn ∧ t.cmds = s.cmds := by
  cases h <;> exact ⟨rfl, rfl, rfl⟩

theorem Answers.syncSr_frmIn_eq (hr : i ≠ .reset) (hi : i ∉ [.syncShift, .syncFind, .caduRead]) :
    t.syncSr = s.syncSr ∧ t.frmIn = s.frmIn := by
  cases h with
  | reset => exact absurd rfl hr
  | shifts _ _ hj => simp only [List.mem_cons] at hi hj; tauto
  | noMarker hj => simp only [List.mem_cons] at hi hj; tauto
  | readsFrame | cutFrame => simp at hi
  | _ => exact ⟨rfl, rfl⟩

theorem Answers.cfg_eq (hr : i ≠ .reset) (hi : writesCfg i = false) : t.cfg = s.cfg := by
  cases h with
  | reset => exact absurd rfl hr
  | setsCfg _ hj => exact absurd (hj.symm.trans hi) nofun
  | _ => rfl

theorem Answers.fb_eq (hr : i ≠ .reset) (hi : writesFrame i = false) : t.fb = s.fb := by
  cases h with
  | reset => exact absurd rfl hr
  | setsFrame _ hj => exact absurd (hj.symm.trans hi) nofun
  | readsFrame | writesWire => exact absurd hi nofun
  | _ => rfl

theorem Answers.pb_eq (hr : i ≠ .reset) (hi : writesPacket i = false) : t.pb = s.pb := by
  cases h with
  | reset => exact absurd rfl hr
  | setsPacket _ hj => exact absurd (hj.symm.trans hi) nofun
  | readsPacket | writesPkt | skips | packs => exact absurd hi nofun
  | _ => rfl

theorem Answers.pz_eq (hr : i ≠ .reset) (hi : i ∉ [.pzInit, .pzPush, .pzFlush]) : t.pz = s.pz := by
  cases h with
  | reset => exact absurd rfl hr
  | opensPacking | packs | flushes => simp at hi
  | _ => rfl

theorem Answers.dz_eq (hr : i ≠ .reset) (hi : i ∉ [.dzInit, .dzPush, .dzEnd]) : t.dz = s.dz := by
  cases h with
  | reset => exact absurd rfl hr
  | opensUnpacking | discards | aligns | closesUnpacking => simp at hi
  | _ => rfl

theorem Answers.pktIn_eq (hr : i ≠ .reset) (hi : i ≠ .pktRead) : t.pktIn = s.pktIn := by
  cases h with
  | reset => exact absurd rfl hr
  | readsPacket | cutPacket => exact absurd rfl hi
  | _ => rfl

theorem Answers.frmOut_eq (hr : i ≠ .reset) (hi : i ∉ [.caduWrite, .pzPush, .pzFlush]) : t.frmOut = s.frmOut := by
  cases h with
  | reset => exact absurd rfl hr
  | writesWire | packs | flushes => simp at hi
  | _ => rfl

theorem Answers.pktOut_eq (hr : i ≠ .reset) (hi : i ∉ [.pktWrite, .dzPush]) : t.pktOut = s.pktOut := by
  cases h with
  | reset => exact absurd rfl hr
  | writesPkt | unpacks | aligns => simp at hi
  | _ => rfl

theorem Answers.diag_eq (hr : i ≠ .reset) (hi : i ∉ [.dzPush, .dzEnd, .pzPush, .caduRead, .pktRead]) :
    t.diag = s.diag := by
  cases h with
  | reset => exact absurd rfl hr
  | cutFrame | cutPacket | skips | badPointer | aligns | closesUnpacking => simp at hi
  | _ => rfl

/-! ### The streams move forward (R23, R66, R67) -/

theorem Answers.frmIn_eaten (hr : i ≠ .reset) : ∃ n, n ≤ s.frmIn.pending.length ∧ t.frmIn = eaten s.frmIn n := by
  cases h with
  | reset => exact absurd rfl hr
  | shifts n _ _ hn => exact ⟨n, hn, rfl⟩
  | readsFrame k _ _ hk => exact ⟨k + 1020, hk, rfl⟩
  | noMarker | cutFrame => exact ⟨_, le_rfl, rfl⟩
  | _ => exact ⟨0, Nat.zero_le _, rfl⟩

theorem Answers.pktIn_eaten (hr : i ≠ .reset) : ∃ n, n ≤ s.pktIn.pending.length ∧ t.pktIn = eaten s.pktIn n := by
  cases h with
  | reset => exact absurd rfl hr
  | readsPacket n _ hn => exact ⟨n, hn, rfl⟩
  | cutPacket => exact ⟨_, le_rfl, rfl⟩
  | _ => exact ⟨0, Nat.zero_le _, rfl⟩

theorem Answers.frmOut_grows (hr : i ≠ .reset) : ∃ b, t.frmOut = s.frmOut ++ b := by
  cases h with
  | reset => exact absurd rfl hr
  | writesWire | packs | flushes => exact ⟨_, rfl⟩
  | _ => exact ⟨[], (List.append_nil _).symm⟩

theorem Answers.pktOut_grows (hr : i ≠ .reset) : ∃ b, t.pktOut = s.pktOut ++ b := by
  cases h with
  | reset => exact absurd rfl hr
  | writesPkt | unpacks | aligns => exact ⟨_, rfl⟩
  | _ => exact ⟨[], (List.append_nil _).symm⟩

theorem Answers.diag_grows (hr : i ≠ .reset) : ∃ d, t.diag = s.diag ++ d := by
  cases h with
  | reset => exact absurd rfl hr
  | cutFrame | cutPacket | skips | badPointer | aligns | closesUnpacking => exact ⟨_, rfl⟩
  | _ => exact ⟨[], (List.append_nil _).symm⟩

end Frame

/-- Settles O59: the streams of every answer, one lemma per stream. -/
theorem streamsOnlyMoveForward : Obligations.StreamsOnlyMoveForward := by
  intro i s t hr h
  have ha := answers_of_exec h
  exact ⟨ha.frmIn_eaten hr, ha.pktIn_eaten hr, ha.frmOut_grows hr, ha.pktOut_grows hr, ha.diag_grows hr⟩

/-- Settles O60: the frame of every answer, one lemma per unit. -/
theorem unitsKeepToTheirOwnState : Obligations.UnitsKeepToTheirOwnState := by
  intro i s t h
  have ha := answers_of_exec h
  obtain ⟨hpar, hin, hcmds⟩ := ha.outside_eq
  exact ⟨hpar, hin, hcmds, fun hr => ⟨ha.syncSr_frmIn_eq hr, ha.cfg_eq hr, ha.fb_eq hr, ha.pb_eq hr, ha.pz_eq hr,
    ha.dz_eq hr, ha.pktIn_eq hr, ha.frmOut_eq hr, ha.pktOut_eq hr, ha.diag_eq hr⟩⟩

end Sys2Proof.Machine
end

section
/-! SUPPORT. One step of the block and the state after reset (R22, R48, R75, R301). -/

namespace Sys2Proof.Machine

/-! ### The three kinds of step -/

theorem step_resetIn (s : State) (h : s.resetIn = true) : step s = .next (takeReset s) := by
  simp [step, runStep, h]

theorem step_idle (s : State) (h : s.resetIn = false) (hc : s.cmds = []) : step s = .next s := by
  simp [step, runStep, h, hc]

theorem step_command (s : State) (c : Cmd) (later : List Cmd) (h : s.resetIn = false) (hc : s.cmds = c :: later) :
    step s = runCommand c later s := by
  simp [step, runStep, h, hc]

theorem runCommand_decoded (c : Cmd) (later : List Cmd) (i : Instr) (s : State) (hd : decode c = .ok i) :
    runCommand c later s = exec i { s with cmds := later } := by
  simp [runCommand, hd]

theorem runCommand_undecoded (c : Cmd) (later : List Cmd) (e : DecodeError) (s : State) (hd : decode c = .error e) :
    runCommand c later s = .refused .notACommandWord := by
  cases e
  simp [runCommand, hd]

/-- What a step that goes on can be: the reset input taken, an idle step, or an operation on the queue's first
command. -/
theorem step_cases {s t : State} (h : step s = .next t) :
    (s.resetIn = true ∧ takeReset s = t) ∨ (s.resetIn = false ∧ s.cmds = [] ∧ s = t) ∨
    ∃ c later i, s.resetIn = false ∧ s.cmds = c :: later ∧ decode c = .ok i ∧
      exec i { s with cmds := later } = .next t := by
  rcases Bool.eq_false_or_eq_true s.resetIn with hr | hr
  · rw [step_resetIn s hr] at h
    exact .inl ⟨hr, Host.Outcome.next.inj h⟩
  · cases hc : s.cmds with
    | nil =>
      rw [step_idle s hr hc] at h
      exact .inr (.inl ⟨hr, rfl, Host.Outcome.next.inj h⟩)
    | cons c later =>
      rw [step_command s c later hr hc] at h
      cases hd : decode c with
      | error e => rw [runCommand_undecoded c later e s hd] at h; cases h
      | ok i =>
        rw [runCommand_decoded c later i s hd] at h
        exact .inr (.inr ⟨c, later, i, hr, rfl, hd, h⟩)

/-- Settles O6, by the step's command branch. -/
theorem stepRunsTheDecodedCommand : Obligations.StepRunsTheDecodedCommand := by
  intro s c later i hr hc hd
  rw [step_command s c later hr hc, runCommand_decoded c later i s hd]

/-- Settles O7, by the step's other two branches. -/
theorem stepWithoutACommand : Obligations.StepWithoutACommand :=
  ⟨step_idle, fun s hr => step_resetIn s hr⟩

/-! ### The state after reset (R48) -/

/-- A 16-bit command word is decoded by its two bytes (R110). -/
theorem decode_opCmd (w arg : Nat) (dat : List Byte) : decode (opCmd w arg dat) =
    .ok (decodeWord (opCmd w arg dat) (BitVec.ofNat 8 (w / 256)) (BitVec.ofNat 8 w)) := by
  simp [decode, opCmd, beBytes]

theorem selects_reset : Selects 0x0100 (fun _ _ => .reset) := by
  intro arg dat
  rw [decode_opCmd]
  simp [decodeWord]

/-- The header of an empty frame is the header that `PZ.INIT` writes from the reset configuration (R216). -/
theorem emptyFrame_header : emptyFrame.header = initHeader State.reset.cfg := by decide

/-- A Dirty frame is not changed by writing its own header. -/
theorem setHeader_self (f : Frame) (hd : f.dirty = true) : f.setHeader f.header = f :=
  frame_ext (setHeader_header _ _) (setHeader_dataZone _ _) (setHeader_checksumField _ _) hd.symm

/-- The depacketizer of a new pass has counted nothing, and 0 fits any width (R32, R245). -/
theorem depacketizerInv_empty (width : Option Nat) : DepacketizerInv width emptyDepacketizer :=
  ⟨fun h => Bool.noConfusion h, Nat.zero_le _, fun _ => rfl,
    (countFits_eq_true_iff _ _).mpr fun w _ => Nat.two_pow_pos w⟩

/-- The states of R48: the block as after reset, on streams that have not begun, with any parameters, reset input and
commands. -/
def resetWith (frm pkt : InStream) (par : Params) (resetIn : Bool) (cmds : List Cmd) : State :=
  { State.reset with frmIn := frm, pktIn := pkt, par := par, resetIn := resetIn, cmds := cmds }

theorem execReset_eq_resetWith (s : State) :
    exec .reset s = .next (resetWith s.frmIn.nextPass s.pktIn.nextPass s.par s.resetIn s.cmds) := rfl

theorem takeReset_eq_resetWith (s : State) :
    takeReset s = resetWith s.frmIn.nextPass s.pktIn.nextPass s.par false s.cmds := rfl

section ResetWith

variable (frm pkt : InStream) (par : Params) (resetIn : Bool) (cmds : List Cmd)

theorem resetWith_table (hf : frm.pos = 0) (hp : pkt.pos = 0) : ResetTable (resetWith frm pkt par resetIn cmds) :=
  ⟨rfl, rfl, rfl, rfl, rfl, rfl, rfl, rfl, rfl, rfl, rfl, rfl, rfl, rfl, rfl, rfl, rfl, rfl, rfl, rfl, rfl, hf, hp, rfl,
    rfl, rfl⟩

/-- The packing pass is open after reset: `PZ.INIT` finds everything as it would leave it. -/
theorem pzInit_resetWith :
    exec .pzInit (resetWith frm pkt par resetIn cmds) = .next (resetWith frm pkt par resetIn cmds) := by
  have hf : emptyFrame.setHeader (initHeader State.reset.cfg) = emptyFrame := by
    rw [← emptyFrame_header, setHeader_self _ rfl]
  show finish { resetWith frm pkt par resetIn cmds with
    pz := { State.reset.pz with fb := emptyFrame.setHeader (initHeader State.reset.cfg) } } 0 [] = _
  rw [hf]
  rfl

/-- The unpacking pass is open after reset. -/
theorem dzInit_resetWith :
    exec .dzInit (resetWith frm pkt par resetIn cmds) = .next (resetWith frm pkt par resetIn cmds) := rfl

/-- After reset the table of R48 holds, and both passes are open. -/
theorem resetWith_open (hf : frm.pos = 0) (hp : pkt.pos = 0) :
    ResetTable (resetWith frm pkt par resetIn cmds) ∧
    exec .pzInit (resetWith frm pkt par resetIn cmds) = .next (resetWith frm pkt par resetIn cmds) ∧
    exec .dzInit (resetWith frm pkt par resetIn cmds) = .next (resetWith frm pkt par resetIn cmds) :=
  ⟨resetWith_table _ _ _ _ _ hf hp, pzInit_resetWith _ _ _ _ _, dzInit_resetWith _ _ _ _ _⟩

/-- The states after reset meet the invariants of R49: the packetizer is as `PZ.INIT` leaves it. -/
theorem resetWith_inv : (resetWith frm pkt par resetIn cmds).Inv := by
  have hz := packetizerInv_init State.reset.cfg
  rw [← emptyFrame_header, setHeader_self _ rfl] at hz
  exact ⟨hz, packetInv_empty, depacketizerInv_empty _, fun h => absurd rfl h⟩

end ResetWith

/-- Settles O8: `State.reset`, the answer of `RESET` and the reset input's state are all states of R48. -/
theorem resetLeavesTheTableOfR48 : Obligations.ResetLeavesTheTableOfR48 := by
  refine ⟨selects_reset, ?_, fun s => ?_, fun s hr => ?_⟩
  · exact resetWith_open emptyStream emptyStream State.reset.par false [] rfl rfl
  · exact ⟨_, execReset_eq_resetWith s, resetWith_open _ _ _ _ _ rfl rfl⟩
  · rw [step_resetIn s hr, takeReset_eq_resetWith]
    exact ⟨_, rfl, resetWith_open _ _ _ _ _ rfl rfl⟩

/-- Settles O11: nothing was reported yet, so that the history of R49 (f) does not matter. -/
theorem resetMeetsTheInvariants : Obligations.ResetMeetsTheInvariants :=
  ⟨resetWith_inv _ _ _ _ _, fun h => Bool.noConfusion h⟩

end Sys2Proof.Machine
end

section
/-! SUPPORT. Every step keeps the invariants of R49, R36, R32 and R280. -/

namespace Sys2Proof.Machine

/-! ### The invariants of one state -/

/-- After an operation that ends `OK` the invariants are those of the units. -/
theorem inv_okEnd {s : State} {r : Nat} {d : List Byte} (hz : PacketizerInv s.pz) (hp : PacketInv s.pb)
    (hd : DepacketizerInv s.par.dfcWidth s.dz) : (okEnd s r d).Inv :=
  ⟨hz, hp, hd, fun h => absurd rfl h⟩

/-- After any other status they are those of the units too, for the result registers are cleared (R280). -/
theorem inv_statusEnd {s : State} {st : Status} (hz : PacketizerInv s.pz) (hp : PacketInv s.pb)
    (hd : DepacketizerInv s.par.dfcWidth s.dz) : (statusEnd s st).Inv :=
  ⟨hz, hp, hd, fun _ => ⟨rfl, rfl⟩⟩

/-- The commands still to come are in no invariant. -/
theorem inv_withCmds {s : State} (h : s.Inv) (cmds : List Cmd) : State.Inv { s with cmds := cmds } := h

/-- Every answer keeps the invariants: the operation's own unit gets a value that meets them, the others keep theirs. -/
theorem Answers.inv {i : Instr} {s t : State} (h : Answers i s (.next t)) (hs : s.Inv) : t.Inv := by
  obtain ⟨hz, hp, hd, _⟩ := hs
  have hd' := hd
  obtain ⟨hseen, hdbc, hzero, hfit⟩ := hd'
  cases h with
  | reads | setsCfg | setsFrame | shifts | readsFrame | writesWire | unpacks => exact inv_okEnd hz hp hd
  | refuses | noMarker | cutFrame | cutPacket | badPointer => exact inv_statusEnd hz hp hd
  | reset => exact resetWith_inv s.frmIn.nextPass s.pktIn.nextPass s.par s.resetIn s.cmds
  | setsPacket p _ hp' => exact inv_okEnd hz (hp' hp) hd
  | readsPacket n p _ hp' => exact inv_okEnd hz hp' hd
  | writesPkt hdata => exact inv_okEnd hz (packetInv_recalc _ hp hdata) hd
  | opensPacking z hz' => exact inv_okEnd hz' hp hd
  | skips hdata => exact inv_statusEnd hz (packetInv_recalc _ hp hdata) hd
  | packs b z r hdata hz' => exact inv_okEnd (hz' hz) (packetInv_recalc _ hp hdata) hd
  | flushes b z r hz' => exact inv_okEnd (hz' hz) hp hd
  | opensUnpacking => exact inv_okEnd hz hp (depacketizerInv_empty _)
  | discards hns hc => exact inv_okEnd hz hp ⟨hseen, hdbc, hzero, hc⟩
  | aligns p b hle => exact inv_okEnd hz hp ⟨fun _ => rfl, hle, fun h => Bool.noConfusion h, hfit⟩
  | closesUnpacking => exact inv_okEnd hz hp ⟨fun _ => rfl, hdbc, hzero, hfit⟩

/-! ### The first half of R49 (f), with the history of log entry 18 -/

theorem endedAfter_dzEnd (ended : Bool) : endedAfter .dzEnd ended = true := by simp [endedAfter]

theorem endedAfter_other (i : Instr) (ended : Bool) (h : i ∉ [.reset, .dzInit, .dzEnd]) : endedAfter i ended = ended := by
  simp only [List.mem_cons, not_or] at h
  obtain ⟨h1, h2, h3, _⟩ := h
  simp [endedAfter, h1, h2, h3]

/-- A depacketizer that has reported nothing meets it whatever the history. -/
theorem reportInv_of_not_reported (ended : Bool) (d : Depacketizer) (h : d.reported = false) : ReportInv ended d :=
  fun hr => absurd (h.symm.trans hr) nofun

/-- A report comes from the frame that aligns, or from `DZ.END`, which the history keeps until a new pass clears the
flag. -/
theorem reportInv_exec {i : Instr} {s t : State} (h : exec i s = .next t) (ended : Bool)
    (hs : ReportInv ended s.dz) : ReportInv (endedAfter i ended) t.dz := by
  by_cases hi : i ∈ [.reset, .dzInit, .dzEnd]
  · simp only [List.mem_cons, List.not_mem_nil, or_false] at hi
    rcases hi with rfl | rfl | rfl
    · obtain rfl := Host.Outcome.next.inj h
      exact reportInv_of_not_reported _ _ rfl
    · obtain rfl := Host.Outcome.next.inj h
      exact reportInv_of_not_reported _ _ rfl
    · exact fun _ => .inr (endedAfter_dzEnd ended)
  · rw [endedAfter_other i ended hi]
    cases answers_of_exec h with
    | reset | opensUnpacking | closesUnpacking => simp at hi
    | aligns => exact fun _ => .inl rfl
    | _ => exact hs

/-- Settles O10: a step is a reset, an idle step or one operation, and the invariants hold after each. -/
theorem everyStepKeepsTheInvariants : Obligations.EveryStepKeepsTheInvariants := by
  refine ⟨fun s t hs h => ?_, fun ended s t hs h => ?_⟩
  · rcases step_cases h with ⟨_, rfl⟩ | ⟨_, _, rfl⟩ | ⟨c, later, i, _, _, _, he⟩
    · exact resetWith_inv _ _ _ _ _
    · exact hs
    · exact (answers_of_exec he).inv (inv_withCmds hs later)
  · rcases step_cases h with ⟨_, rfl⟩ | ⟨hr, hc, rfl⟩ | ⟨c, later, i, hr, hc, hd, he⟩
    · exact reportInv_of_not_reported _ _ rfl
    · have e : endedAfterStep s ended = ended := by simp [endedAfterStep, hr, hc]
      rw [e]
      exact hs
    · have e : endedAfterStep s ended = endedAfter i ended := by simp [endedAfterStep, hr, hc, hd]
      rw [e]
      exact reportInv_exec he ended hs

end Sys2Proof.Machine
end

section
/-! SUPPORT. Unpacking at the edges (log entries 3, 13, 17). -/

namespace Sys2Proof.Machine

/-- Settles O51, by the branches of `DZ.PUSH`: overflow, a discarded frame, and an aligning frame after the report. -/
theorem unpackingAtTheEdges : Obligations.UnpackingAtTheEdges := by
  refine ⟨fun s w hs hw hp hle => ?_, fun s p hs hrep hp => ⟨fun hfit h2047 => ?_, fun hle => ?_⟩⟩
  · rw [fhp_value] at hp
    exact execDzPush_overflow s hs hp ((countFits_eq_false_iff _ _).mpr ⟨w, hw, hle⟩)
  · rw [fhp_value] at hp
    exact execDzPush_none s hs (hp.symm.trans h2047) ((countFits_eq_true_iff _ _).mpr hfit)
  · rw [fhp_value] at hp
    subst hp
    show execDzPush s = _
    rw [execDzPush_align s hs hle]
    simp only [hrep, if_true, List.append_nil]
    rfl

end Sys2Proof.Machine
end

section
/-! SUPPORT. Command words: what the decoder makes of what the encoder writes, and of every 16-bit word (R110 to R115). -/

namespace Sys2Proof.Laws.EncodeDecode

/-- The laws of the rows are the law of every instruction. -/
theorem decode_encode : ∀ i : Instr, Statement i
  | .reset => reset
  | .cfgSetVersion v => cfgSetVersion v
  | .cfgSetScid v => cfgSetScid v
  | .cfgSetVcid v => cfgSetVcid v
  | .cfgSetStartCtr v => cfgSetStartCtr v
  | .cfgSetReplay v => cfgSetReplay v
  | .cfgSetRandomize v => cfgSetRandomize v
  | .cfgSetPackMode v => cfgSetPackMode v
  | .cfgGetVersion => cfgGetVersion
  | .cfgGetScid => cfgGetScid
  | .cfgGetVcid => cfgGetVcid
  | .cfgGetStartCtr => cfgGetStartCtr
  | .cfgGetReplay => cfgGetReplay
  | .cfgGetRandomize => cfgGetRandomize
  | .cfgGetPackMode => cfgGetPackMode
  | .syncShift => syncShift
  | .syncFind => syncFind
  | .randApply => randApply
  | .ckRecompute => ckRecompute
  | .ckValidate => ckValidate
  | .caduNew => caduNew
  | .caduGetVersion => caduGetVersion
  | .caduGetScid => caduGetScid
  | .caduGetVcid => caduGetVcid
  | .caduGetCounter => caduGetCounter
  | .caduGetSpareA => caduGetSpareA
  | .caduGetReplay => caduGetReplay
  | .caduGetFhp => caduGetFhp
  | .caduGetSpareB => caduGetSpareB
  | .caduSetVersion v => caduSetVersion v
  | .caduSetScid v => caduSetScid v
  | .caduSetVcid v => caduSetVcid v
  | .caduSetCounter v => caduSetCounter v
  | .caduSetReplay v => caduSetReplay v
  | .caduSetFhp v => caduSetFhp v
  | .caduGetdata => caduGetdata
  | .caduSetdata dat => caduSetdata dat
  | .caduRead => caduRead
  | .caduWrite => caduWrite
  | .pktNew => pktNew
  | .pktGetPversion => pktGetPversion
  | .pktGetType => pktGetType
  | .pktGetShf => pktGetShf
  | .pktGetApid => pktGetApid
  | .pktGetSeqflags => pktGetSeqflags
  | .pktGetSeqcount => pktGetSeqcount
  | .pktGetDatalen => pktGetDatalen
  | .pktSetPversion v => pktSetPversion v
  | .pktSetType v => pktSetType v
  | .pktSetShf v => pktSetShf v
  | .pktSetApid v => pktSetApid v
  | .pktSetSeqflags v => pktSetSeqflags v
  | .pktSetSeqcount v => pktSetSeqcount v
  | .pktGetdata => pktGetdata
  | .pktSetdata dat => pktSetdata dat
  | .pktSetdataLen n dat => pktSetdataLen n dat
  | .pktRead => pktRead
  | .pktWrite => pktWrite
  | .pktFill n => pktFill n
  | .pzInit => pzInit
  | .pzPush => pzPush
  | .pzFlush => pzFlush
  | .dzInit => dzInit
  | .dzPush => dzPush
  | .dzEnd => dzEnd
  | .formatAsm => formatAsm
  | .formatVcpduHeader h => formatVcpduHeader h
  | .formatPacketHeader h => formatPacketHeader h
  | .formatFillPacketHeader dataLen => formatFillPacketHeader dataLen
  | .formatCmd op sel => formatCmd op sel

end Sys2Proof.Laws.EncodeDecode

namespace Sys2Proof.Machine

/-! ### Decoding what was encoded -/

/-- Settles O1, by the law of each row. -/
theorem encodedInstructionsDecodeBack : Obligations.EncodedInstructionsDecodeBack :=
  Laws.EncodeDecode.decode_encode

/-! ### The meaning of a 16-bit word -/

/-- `i` is a well-formed instruction whose command word is `op`, `sel`. -/
def HasWord (i : Instr) (op sel : Byte) : Prop := i.wellFormed = true ∧ (encode i).word = [op, sel]

/-- A legal word is one whose code is an operation that admits its selector (R115). -/
theorem legalWord_iff (op sel : Byte) :
    legalWord op sel = true ↔ ∃ l, legalSelectors op.toNat = some l ∧ sel.toNat ∈ l := by
  unfold legalWord
  cases legalSelectors op.toNat <;> simp

/-- A `FORMAT.CMD` term has its own bytes as its word, and is well-formed where they are no operation. -/
theorem hasWord_formatCmd (op sel : Byte) : HasWord (.formatCmd op sel) op sel ↔ legalWord op sel = false := by
  simp [HasWord, encode, Instr.wellFormed]

set_option maxRecDepth 2000 in
/-- Each code with each selector of R111 to R113 is read as an operation with that word. -/
theorem hasWord_decodeWord_of_selector (c : Cmd) (op sel : Nat) (l : List Nat) (hl : legalSelectors op = some l)
    (hs : sel ∈ l) : HasWord (decodeWord c (BitVec.ofNat 8 op) (BitVec.ofNat 8 sel))
      (BitVec.ofNat 8 op) (BitVec.ofNat 8 sel) := by
  unfold legalSelectors at hl
  split_ifs at hl with hcfg hget hset hpget hpset hone
  all_goals obtain rfl := Option.some.inj hl
  · rcases hcfg with rfl | rfl <;> fin_cases hs <;> exact ⟨rfl, rfl⟩
  · subst hget; fin_cases hs <;> exact ⟨rfl, rfl⟩
  · subst hset; fin_cases hs <;> exact ⟨rfl, rfl⟩
  · subst hpget; fin_cases hs <;> exact ⟨rfl, rfl⟩
  · subst hpset; fin_cases hs <;> exact ⟨rfl, rfl⟩
  · obtain rfl := List.mem_singleton.mp hs
    rcases hone with hone | hone <;> fin_cases hone <;> exact ⟨rfl, rfl⟩

/-- The decoder reads every word, legal or not, as a well-formed instruction with that word. -/
theorem hasWord_decodeWord (c : Cmd) (op sel : Byte) : HasWord (decodeWord c op sel) op sel := by
  cases hw : legalWord op sel with
  | false =>
    rw [Laws.EncodeDecode.decodeWord_illegal c op sel hw]
    exact (hasWord_formatCmd op sel).mpr hw
  | true =>
    obtain ⟨l, hl, hs⟩ := (legalWord_iff op sel).mp hw
    simpa using hasWord_decodeWord_of_selector c op.toNat sel.toNat l hl hs

/-- The decoder reads a word as the illegal word exactly when it is no operation (R115). -/
theorem decodeWord_eq_formatCmd_iff (c : Cmd) (op sel : Byte) :
    decodeWord c op sel = .formatCmd op sel ↔ legalWord op sel = false := by
  refine ⟨fun h => ?_, Laws.EncodeDecode.decodeWord_illegal c op sel⟩
  rw [← hasWord_formatCmd, ← h]
  exact hasWord_decodeWord c op sel

/-- Settles O2: the instruction is the one `decodeWord` selects. -/
theorem everyCommandWordHasOneMeaning : Obligations.EveryCommandWordHasOneMeaning := by
  intro op sel arg dat
  obtain ⟨hwf, hword⟩ := hasWord_decodeWord ⟨[op, sel], arg, dat⟩ op sel
  exact ⟨_, rfl, hwf, hword, decodeWord_eq_formatCmd_iff _ op sel⟩

/-! ### Words that are no operation (R115) -/

/-- Settles O3: the step decodes the word as illegal, and the illegal word raises its status on the rest of the queue. -/
theorem illegalCommandWordsOnlyRaiseIllegalOp : Obligations.IllegalCommandWordsOnlyRaiseIllegalOp := by
  intro op sel arg dat later s hw hr hc
  obtain ⟨hdecode, hexec⟩ := illegalWord_of op sel hw
  rw [step_command s _ later hr hc, runCommand_decoded _ later _ s (hdecode arg dat), hexec]

/-- An item that is no operation ends with `ILLEGAL_OP` and changes nothing else (R115). -/
theorem illegalOp_eq (s : State) : illegalOp s = .next (statusEnd s .illegalOp) := rfl

/-- Settles O4: all five rows are `illegalOp`. -/
theorem formatRowsRaiseIllegalOp : Obligations.FormatRowsRaiseIllegalOp :=
  fun _ _ _ _ _ s => ⟨illegalOp_eq s, illegalOp_eq s, illegalOp_eq s, illegalOp_eq s, illegalOp_eq s⟩

/-! ### Words written out -/

/-- Settles O5: the first eight words are what the encoder writes for their instructions, the last three are illegal. -/
theorem writtenOutWordsDecode : Obligations.WrittenOutWordsDecode :=
  ⟨encodedInstructionsDecodeBack (.cfgSetScid 154) rfl,
    encodedInstructionsDecodeBack (.caduSetFhp 2047) rfl,
    encodedInstructionsDecodeBack (.pktSetdata [1, 2, 3]) rfl,
    encodedInstructionsDecodeBack .pzFlush rfl,
    encodedInstructionsDecodeBack .syncFind rfl,
    encodedInstructionsDecodeBack .randApply rfl,
    encodedInstructionsDecodeBack .ckValidate rfl,
    encodedInstructionsDecodeBack .dzPush rfl,
    (illegalWord_of 0x00 0x00 (by decide)).1 0 [],
    (illegalWord_of 0x32 0x04 (by decide)).1 0 [],
    (illegalWord_of 0x42 0x06 (by decide)).1 0 []⟩

end Sys2Proof.Machine
end

section
/-! SUPPORT. The synchronizer: shifting one byte in, and the search from a register that needs no clearing (R131, R132,
R135). -/

namespace Sys2Proof.Machine

/-! ### Shifting one byte in (R131) -/

theorem selects_syncShift : Selects 0x1000 (fun _ _ => .syncShift) := fun _ _ => by simp [decode_opCmd, decodeWord]

/-- The bit operations of the shift are the arithmetic of R131. -/
theorem shiftIn_eq_ofNat (sr : BitVec 32) (b : Byte) : shiftIn sr b = BitVec.ofNat 32 (sr.toNat * 256 + b.toNat) := by
  apply BitVec.eq_of_toNat_eq
  rw [shiftIn_toNat, BitVec.toNat_ofNat]

/-- A match is reported exactly when the number in the register is the marker. -/
theorem matchResult_eq (sr : BitVec 32) : matchResult sr = if sr.toNat = 0x1ACFFC1D then 1 else 0 := by
  have hm : isMarker sr = true ↔ sr.toNat = 0x1ACFFC1D := by
    rw [isMarker_iff, ← BitVec.toNat_inj]; rfl
  simp only [matchResult, hm]

/-- Settles O14, by the two ends of a one-byte read. -/
theorem shiftingOneByteIn : Obligations.ShiftingOneByteIn := by
  refine ⟨selects_syncShift, fun s b rest h => ?_, execSyncShift_nil⟩
  rw [← shiftIn_eq_ofNat, ← shiftIn_toNat, ← matchResult_eq]
  exact execSyncShift_cons s b rest h

/-! ### Searching for the next marker (R132) -/

theorem selects_syncFind : Selects 0x1100 (fun _ _ => .syncFind) := fun _ _ => by simp [decode_opCmd, decodeWord]

/-- Settles O15: the search ends at the first match or at the end of the stream, and one of the two is the case. -/
theorem searchingForTheNextMarker : Obligations.SearchingForTheNextMarker :=
  ⟨selects_syncFind, fun s => ⟨execSyncFind_first s, execSyncFind_none s, match_or_none _ _⟩⟩

/-! ### The register needs no clearing (R135) -/

section
variable {sr : BitVec 32} {l : List Byte} (hsr : sr = 0 ∨ sr = 0x1ACFFC1D#32)
include hsr

/-- From the register of a reset or of a match, a match says that four new bytes came and are the marker: what the register
held before plays no part. -/
theorem shiftAll_take_iff_markerAt {j : Nat} (h1 : 1 ≤ j) (hl : j ≤ l.length) :
    shiftAll sr (l.take j) = 0x1ACFFC1D#32 ↔ 4 ≤ j ∧ markerAt l (j - 4) := by
  rcases Nat.lt_or_ge j 4 with hj | hj
  · have := no_early_match sr hsr l j h1 (by omega) hl
    simp [this, Nat.not_le.mpr hj]
  · simp [shiftAll_take sr l j hj hl, hj]

/-- The first place of the marker is the first match, four bytes later. -/
theorem firstMatch_of_first_markerAt {k : Nat} (hk : markerAt l k) (hfirst : ∀ j, j < k → ¬ markerAt l j) :
    FirstMatch sr l (k + 4) := by
  have hlen := markerAt_length l k hk
  refine ⟨by omega, hlen, ?_, fun j h1 hlt hm => ?_⟩
  · rw [shiftAll_take_iff_markerAt hsr (by omega) hlen]
    exact ⟨by omega, hk⟩
  · obtain ⟨h4, hat⟩ := (shiftAll_take_iff_markerAt hsr h1 (by omega)).mp hm
    exact hfirst (j - 4) (by omega) hat

/-- A stream without the marker has no match. -/
theorem noMatch_of_no_markerAt (hno : ∀ k, ¬ markerAt l k) : NoMatch sr l :=
  fun _ h1 hl hm => hno _ ((shiftAll_take_iff_markerAt hsr h1 hl).mp hm).2

end

/-- Settles O16: the first place of the marker is the first match, and `SYNC.FIND` ends there. -/
theorem theRegisterNeedsNoClearing : Obligations.TheRegisterNeedsNoClearing := by
  refine fun s hsr => ⟨no_early_match s.syncSr hsr s.frmIn.pending, fun k hk hfirst => ?_, fun hno => ?_⟩
  · exact execSyncFind_first s (k + 4) (firstMatch_of_first_markerAt hsr hk hfirst)
  · exact ⟨_, execSyncFind_none s (noMatch_of_no_markerAt hsr hno)⟩

end Sys2Proof.Machine
end

section
/-! The statements O17 to O19: the randomizer on the working frame, byte by byte and twice, and the line form of any byte
sequence (R141, R143, R144). -/

namespace Sys2Proof.Machine

/-! ### The working frame (R143, R144) -/

/-- A frame buffer after the transform. -/
def randomizedBuf (p : Params) (b : Buf Config.cvcduLen) : Buf Config.cvcduLen := bufOfList _ (randomize p b.bytes)

/-- The buffer holds the whole transform: it is as long as the buffer. -/
theorem randomizedBuf_bytes (p : Params) (b : Buf Config.cvcduLen) :
    (randomizedBuf p b).bytes = randomize p b.bytes :=
  bufOfList_bytes _ (by rw [randomize_length, b.size])

theorem randomizedBuf_byte (p : Params) (b : Buf Config.cvcduLen) (i : Nat) (h : i < 1020) :
    bufByte (randomizedBuf p b) i = bufByte b i ^^^ p.pnTable.bytes.getD (i % 255) 0 := by
  have hi : i < b.bytes.length := b.size.symm ▸ h
  rw [bufByte_getD, randomizedBuf_bytes, getD_randomize p b.bytes i hi, bufByte_getD]

/-- The transform of a buffer is its own inverse (R144). -/
theorem randomizedBuf_randomizedBuf (p : Params) (b : Buf Config.cvcduLen) :
    randomizedBuf p (randomizedBuf p b) = b := by
  apply buf_ext
  rw [randomizedBuf_bytes, randomizedBuf_bytes, randomize, randomize, randFrom_randFrom]

/-- `RAND.APPLY` transforms the CVCDU in place and ends `OK` (R143). -/
theorem exec_randApply (s : State) :
    exec .randApply s = .next (okEnd { s with fb := { s.fb with cvcdu := randomizedBuf s.par s.fb.cvcdu } } 0 []) := rfl

theorem selects_randApply : Selects 0x1800 (fun _ _ => .randApply) := fun _ _ => by simp [decode_opCmd, decodeWord]

/-- Settles O17, with the transformed buffer. -/
theorem randomizingTheWorkingFrame : Obligations.RandomizingTheWorkingFrame :=
  ⟨selects_randApply, fun s => ⟨_, exec_randApply s, randomizedBuf_byte s.par s.fb.cvcdu⟩⟩

/-- Settles O18: the second transform uses the table of the first, and undoes it. -/
theorem randomizingTwiceIsTheIdentity : Obligations.RandomizingTwiceIsTheIdentity := by
  intro s
  refine ⟨_, exec_randApply s, ?_⟩
  rw [exec_randApply]
  simp only [okEnd, randomizedBuf_randomizedBuf]

/-! ### The line form (R105, R141) -/

/-- A byte of the line form, past the end too (R105, R141). -/
theorem lineForm_getElem? (v : BitVec 1) (p : Params) (b : List Byte) (i : Nat) :
    (lineForm v p b)[i]? = b[i]?.map (lineByte v p i) := by
  by_cases hv : v = 1#1
  case pos =>
    have hbyte : lineByte v p i = (· ^^^ p.pnTable.bytes.getD (i % 255) 0) := funext fun _ => if_pos hv
    rw [lineForm, if_pos hv, randomize, randFrom_getElem?, Nat.zero_add, hbyte]
    rfl
  case neg =>
    have hbyte : lineByte v p i = id := funext fun _ => if_neg hv
    rw [lineForm, if_neg hv, hbyte, Option.map_id_apply]

/-- Settles O19, by the two variants. -/
theorem theLineFormByteByByte : Obligations.TheLineFormByteByByte :=
  fun v p b i => ⟨lineForm_length v p b, lineForm_getElem? v p b i⟩

end Sys2Proof.Machine
end

section
/-! The statements O20 to O24: the checksum written and checked, what makes a checksum fresh, and flipped bits (R155, R156,
R159, R160). -/

namespace Sys2Proof.Machine

/-! ### Recomputing the checksum (R155) -/

theorem selects_ckRecompute : Selects 0x2000 (fun _ _ => .ckRecompute) := fun _ _ => by simp [decode_opCmd, decodeWord]

/-- `CK.RECOMPUTE` stores the recomputed frame, Clean, and ends `OK` (R155). -/
theorem exec_ckRecompute (s : State) : exec .ckRecompute s = .next (okEnd { s with fb := s.fb.recompute } 0 []) := rfl

/-- A recomputed checksum byte is that of the frame before, whose VC_PDU it leaves alone (R153, R155). -/
theorem recompute_byte_hi (f : Frame) (j : Nat) (h : j < 128) :
    bufByte f.recompute.cvcdu (892 + j) = parityByte f.cvcdu j := by
  rw [← checksumField_getD f.recompute j h, recompute_checksumField, cksum_getD f j h]

/-- Settles O20, with the recomputed buffer. -/
theorem recomputingTheChecksum : Obligations.RecomputingTheChecksum :=
  ⟨selects_ckRecompute, fun s => ⟨s.fb.recompute.cvcdu, exec_ckRecompute s, recompute_byte_lo s.fb, recompute_byte_hi s.fb⟩⟩

/-! ### Validating the checksum (R156) -/

theorem selects_ckValidate : Selects 0x2100 (fun _ _ => .ckValidate) := fun _ _ => by simp [decode_opCmd, decodeWord]

section
variable (s : State)

/-- A Dirty frame is invalid, whatever its checksum field holds (R158). -/
theorem exec_ckValidate_dirty (hd : s.fb.dirty = true) : exec .ckValidate s = .next (statusEnd s .checksumInvalid) :=
  (execCkValidate_eq s).trans (if_pos hd)

theorem exec_ckValidate_match (hd : s.fb.dirty = false) (hm : s.fb.checksumMatches = true) :
    exec .ckValidate s = .next (okEnd s 1 []) := by
  show execCkValidate s = _
  simp [execCkValidate_eq, hd, hm]

/-- A frame that does not match its checksum is invalid, Clean or Dirty. -/
theorem exec_ckValidate_mismatch (hm : s.fb.checksumMatches ≠ true) :
    exec .ckValidate s = .next (statusEnd s .checksumInvalid) := by
  show execCkValidate s = _
  simp [execCkValidate_eq, hm]

/-- The answer 1 says that the stored checksum is the recomputed one. -/
theorem checksumMatches_of_exec_ckValidate (h : exec .ckValidate s = .next (okEnd s 1 [])) :
    s.fb.checksumMatches = true := by
  by_contra hm
  rw [exec_ckValidate_mismatch s hm] at h
  have hresult : (statusEnd s .checksumInvalid).result = (okEnd s 1 []).result :=
    congrArg State.result (Host.Outcome.next.inj h)
  exact absurd hresult (by decide : (0 : Nat) ≠ 1)

end

/-- Settles O21, by the three outcomes of the two tests of R156. -/
theorem validatingTheChecksum : Obligations.ValidatingTheChecksum :=
  ⟨selects_ckValidate, fun s => ⟨exec_ckValidate_dirty s,
    fun hd h => exec_ckValidate_match s hd ((checksumMatches_iff s.fb).mpr h),
    fun _ h => exec_ckValidate_mismatch s fun hm => h ((checksumMatches_iff s.fb).mp hm)⟩⟩

/-! ### A fresh checksum validates (R159 (a), (c)) -/

/-- Whatever else an operation did, a recomputed frame left in `FB` validates. -/
theorem exec_ckValidate_recomputed {t : State} (f : Frame) (h : t.fb = f.recompute) :
    exec .ckValidate t = .next (okEnd t 1 []) :=
  exec_ckValidate_match t (by rw [h]; rfl) (by rw [h]; exact recompute_checksumMatches f)

/-- `CADU.WRITE` of a Dirty frame leaves it recomputed in `FB` (R178). -/
theorem exec_caduWrite_dirty (s : State) (hd : s.fb.dirty = true) :
    ∃ t, exec .caduWrite s = .next t ∧ t.fb = s.fb.recompute :=
  ⟨_, rfl, if_pos hd⟩

/-- `CK.VALIDATE` keeps `FB` and answers by `FB` alone, so that its end is also the end of a second one. -/
theorem exec_ckValidate_twice (s : State) : ∃ t, exec .ckValidate s = .next t ∧ exec .ckValidate t = .next t := by
  by_cases hd : s.fb.dirty = true
  case pos => exact ⟨_, exec_ckValidate_dirty s hd, exec_ckValidate_dirty (statusEnd s .checksumInvalid) hd⟩
  case neg =>
    have hclean : s.fb.dirty = false := Bool.eq_false_iff.mpr hd
    by_cases hm : s.fb.checksumMatches = true
    case pos => exact ⟨_, exec_ckValidate_match s hclean hm, exec_ckValidate_match (okEnd s 1 []) hclean hm⟩
    case neg => exact ⟨_, exec_ckValidate_mismatch s hm, exec_ckValidate_mismatch (statusEnd s .checksumInvalid) hm⟩

/-- Settles O22: both operations leave a recomputed frame, and validating leaves the frame alone. -/
theorem validAfterRecomputing : Obligations.ValidAfterRecomputing := by
  refine ⟨fun s => ⟨_, exec_ckRecompute s, exec_ckValidate_recomputed s.fb rfl⟩, fun s hd => ?_, exec_ckValidate_twice⟩
  obtain ⟨t, ht, hfb⟩ := exec_caduWrite_dirty s hd
  exact ⟨t, ht, exec_ckValidate_recomputed s.fb hfb⟩

/-! ### The sub-blocks of a frame with a flipped bit (R151) -/

theorem subBlock_length (b : Buf Config.cvcduLen) (q : Nat) : (subBlock b q).length = 223 := by simp [subBlock]

/-- Byte `m` of sub-block `q`, and nothing past the 223 bytes (R151). -/
theorem subBlock_getD (b : Buf Config.cvcduLen) (q m : Nat) :
    (subBlock b q).getD m 0 = if m < 223 then bufByte b (4 * m + q) else 0 := by
  split <;> simp_all [subBlock, List.getD_eq_getElem?_getD]

section
variable (b : Buf Config.cvcduLen) {i : Nat} (k : Nat)

/-- A bit of the VC_PDU is a bit of one sub-block: bit `k` of byte `i` is bit `k` of byte `i / 4` of sub-block `i mod 4`. -/
theorem oneBitApart_subBlock_flipBit (hi : i < 892) (hk : k < 8) :
    OneBitApart (subBlock b (i % 4)) (subBlock (flipBit b i k) (i % 4)) := by
  refine ⟨by rw [subBlock_length, subBlock_length], i / 4, k, by rw [subBlock_length]; omega, hk, fun m => ?_⟩
  have hi' : i < Config.cvcduLen := show i < 1020 by omega
  have hbyte : 4 * m + i % 4 = i ↔ m = i / 4 := by omega
  rw [subBlock_getD, subBlock_getD, flip_byte b i k _ hi']
  by_cases hm : m = i / 4
  case pos =>
    have hlt : m < 223 := by omega
    rw [if_pos hlt, if_pos (hbyte.mpr hm), if_pos hm, if_pos hlt, hbyte.mpr hm]
  case neg => rw [if_neg (mt hbyte.mp hm), if_neg hm]

/-- The checksum field is no part of the data that the parity is computed from (R151, R153). -/
theorem parityByte_flipBit_checksum (hlo : 892 ≤ i) (hi : i < 1020) (j : Nat) :
    parityByte (flipBit b i k) j = parityByte b j := by
  have hsub : subBlock (flipBit b i k) (j % 4) = subBlock b (j % 4) := by
    apply List.map_congr_left
    intro m hm
    have hm' : m < 223 := List.mem_range.mp hm
    rw [flip_byte b i k _ hi, if_neg (by omega)]
  rw [parityByte, hsub, parityByte]

end

/-- Two frames with the same 128 checksum bytes have the same four parity blocks (R152). -/
theorem rsEncode_subBlock_of_parityByte {a b : Buf Config.cvcduLen} (h : ∀ j, j < 128 → parityByte a j = parityByte b j)
    {q : Nat} (hq : q < 4) : rsEncode (subBlock a q) = rsEncode (subBlock b q) := by
  apply List.map_congr_left
  intro m hm
  have hm' : m < 32 := List.mem_range.mp hm
  have hj := h (4 * m + q) (by omega)
  have hrow : (4 * m + q) / 4 = m := by omega
  have hcol : (4 * m + q) % 4 = q := by omega
  rwa [parityByte, parityByte, hrow, hcol] at hj

/-! ### A flipped bit is detected (R159 (b), R160) -/

section
variable {f g : Frame} {i k : Nat} (hg : g.cvcdu = flipBit f.cvcdu i k) (hf : f.checksumMatches = true)
include hg hf

/-- Two frames that differ in a bit of the VC_PDU and both match hold the same parity: the encoder missed the bit (R154). -/
theorem rsMissesSingleBit_of_matches (hi : i < 892) (hk : k < 8) (hm : g.checksumMatches = true) :
    RsMissesSingleBit := by
  have hparity : ∀ j, j < 128 → parityByte f.cvcdu j = parityByte (flipBit f.cvcdu i k) j := by
    intro j hj
    have hi' : i < Config.cvcduLen := show i < 1020 by omega
    have hstored : bufByte (flipBit f.cvcdu i k) (892 + j) = bufByte f.cvcdu (892 + j) := by
      rw [flip_byte f.cvcdu i k _ hi', if_neg (by omega)]
    rw [← (checksumMatches_iff f).mp hf j hj, ← hstored, ← hg]
    exact (checksumMatches_iff g).mp hm j hj
  exact ⟨_, _, subBlock_length _ _, oneBitApart_subBlock_flipBit f.cvcdu k hi hk,
    rsEncode_subBlock_of_parityByte hparity (Nat.mod_lt i (by decide))⟩

/-- A flipped bit of the checksum field leaves the recomputed checksum alone and changes the stored one (R160). -/
theorem not_matches_of_flipped_checksum (hlo : 892 ≤ i) (hi : i < 1020) (hk : k < 8) : g.checksumMatches ≠ true := by
  intro hm
  have hj : i - 892 < 128 := by omega
  have hpos : 892 + (i - 892) = i := by omega
  have hnew := (checksumMatches_iff g).mp hm (i - 892) hj
  have hold := (checksumMatches_iff f).mp hf (i - 892) hj
  rw [hg, parityByte_flipBit_checksum f.cvcdu k hlo hi, ← hold, hpos, flip_byte f.cvcdu i k i hi, if_pos rfl] at hnew
  exact flip_ne _ k hk hnew

end

/-- Settles O23: the recomputed frame matches, so the flipped one matches only if the encoder misses the bit. -/
theorem aFlippedDataBitIsDetected : Obligations.AFlippedDataBitIsDetected := by
  refine fun s i k hi hk => ⟨_, exec_ckRecompute s, ?_⟩
  by_cases hm : Frame.checksumMatches { s.fb.recompute with cvcdu := flipBit s.fb.recompute.cvcdu i k } = true
  case pos => exact .inr (rsMissesSingleBit_of_matches rfl (recompute_checksumMatches s.fb) hi hk hm)
  case neg => exact .inl (exec_ckValidate_mismatch _ hm)

/-- Settles O24: a frame that validates matches, and the flipped one does not. -/
theorem aFlippedChecksumBitIsDetected : Obligations.AFlippedChecksumBitIsDetected :=
  fun _ _ _ hlo hi hk hv => exec_ckValidate_mismatch _
    (not_matches_of_flipped_checksum rfl (checksumMatches_of_exec_ckValidate _ hv) hlo hi hk)

end Sys2Proof.Machine
end

section
/-! The statements O25 to O28: a new frame, the header fields of `FB` read and written, its data zone as a whole (R166,
R170 to R173). -/

namespace Sys2Proof.Machine

/-! ### Selectors and words -/

/-- An operation's code with a selector that it does not take is no operation (R115). -/
theorem illegalWord_of_selector {op sel : Byte} (l : List Nat) (hl : legalSelectors op.toNat = some l)
    (hs : sel.toNat ∉ l) : IllegalWord op sel := by
  apply illegalWord_of
  simpa [legalWord, hl] using hs

@[simp] theorem opCmd_arg (w arg : Nat) (dat : List Byte) : (opCmd w arg dat).arg = arg := rfl
@[simp] theorem opCmd_dat (w arg : Nat) (dat : List Byte) : (opCmd w arg dat).dat = dat := rfl

theorem selects_caduNew : Selects 0x3000 (fun _ _ => .caduNew) := fun _ _ => by simp [decode_opCmd, decodeWord]

theorem selects_caduGetdata : Selects 0x3300 (fun _ _ => .caduGetdata) := fun _ _ => by simp [decode_opCmd, decodeWord]

theorem selects_caduSetdata : Selects 0x3400 (fun _ dat => .caduSetdata dat) :=
  fun _ _ => by simp [decode_opCmd, decodeWord]

theorem selects_caduGet (f : FrameField) : Selects (0x3100 + f.sel) (fun _ _ => f.getInstr) := by
  intro arg dat
  cases f <;> simp [decode_opCmd, decodeWord, FrameField.sel, FrameField.getInstr]

/-- Settles O25: the new frame is the empty one of reset. -/
theorem aNewFrameIsEmptyAndDirty : Obligations.ANewFrameIsEmptyAndDirty :=
  ⟨selects_caduNew, fun _ => ⟨emptyFrame.cvcdu, rfl, rfl⟩⟩

/-! ### Reading a field (R170) -/

/-- `CADU.GET f` answers the field of the header, and changes nothing else. -/
theorem exec_caduGet (f : FrameField) (s : State) :
    exec f.getInstr s = .next (okEnd s (headerField s.fb.header f) []) := by
  cases f <;> rfl

/-- Settles O26: the field of the header record is the field of R93. -/
theorem frameFieldReads : Obligations.FrameFieldReads := by
  refine fun f s => ⟨selects_caduGet f, ?_, fun sel h => ?_⟩
  · rw [frameField_value]
    exact exec_caduGet f s
  · refine illegalWord_of_selector [0, 1, 2, 3, 4, 5, 6, 7] rfl ?_
    simp only [List.mem_cons, List.not_mem_nil, or_false]
    omega

/-! ### Writing a field (R171) -/

/-- The header with field `f` at `v`. -/
def withFrameField (h : VcHeader) (v : Nat) : FrameField → VcHeader
  | .version => { h with version := BitVec.ofNat _ v } | .scid => { h with scid := BitVec.ofNat _ v }
  | .vcid => { h with vcid := BitVec.ofNat _ v } | .counter => { h with counter := BitVec.ofNat _ v }
  | .spareA => { h with spareA := BitVec.ofNat _ v } | .replay => { h with replay := BitVec.ofNat _ v }
  | .fhp => { h with fhp := BitVec.ofNat _ v } | .spareB => { h with spareB := BitVec.ofNat _ v }

/-- The fields of the new header: the one written, and the other seven as they were. -/
theorem headerField_withFrameField (h : VcHeader) (v : Nat) (f g : FrameField) :
    headerField (withFrameField h v f) g = if g = f then v % 2 ^ f.width else headerField h g := by
  cases f <;> cases g <;> rfl

section
variable {f : FrameField} {v : Nat} {i : Instr} (hi : f.setInstr v = some i)
include hi

theorem decode_caduSet (dat : List Byte) : decode (opCmd (0x3200 + f.sel) v dat) = .ok i := by
  cases f <;> cases hi <;> simp [decode_opCmd, decodeWord, FrameField.sel]

/-- `CADU.SET f, #v` writes the header with that field replaced. -/
theorem exec_caduSet (s : State) : exec i s = caduSet f.width v (withFrameField s.fb.header v f) s := by
  cases f <;> cases hi <;> rfl

end

/-- Settles O27: the new header differs from the old one in the field alone, and stands in the first eight bytes. -/
theorem frameFieldWrites : Obligations.FrameFieldWrites := by
  refine ⟨fun f v dat i s hi => ⟨decode_caduSet hi dat, fun hv => ?_, fun hv => ?_⟩, fun sel h => ?_⟩
  · refine ⟨_, (exec_caduSet hi s).trans (caduSet_ok _ _ _ _ hv), ?_, fun g hg => ?_, setHeader_drop _ _⟩
    · rw [frameField_value_set, headerField_withFrameField, if_pos rfl, Nat.mod_eq_of_lt hv]
    · rw [frameField_value_set, headerField_withFrameField, if_neg hg, frameField_value]
  · exact (exec_caduSet hi s).trans (caduSet_range _ _ _ _ hv)
  · refine illegalWord_of_selector [0, 1, 2, 3, 5, 6] rfl ?_
    simp only [List.mem_cons, List.not_mem_nil, or_false]
    omega

/-! ### The data zone as a whole (R172, R173) -/

/-- A whole data zone, written, stands between the header and the checksum field. -/
theorem writeZone_whole_bytes (f : Frame) (dat : List Byte) (h : dat.length = 884) :
    (f.writeZone 0 dat).cvcdu.bytes = f.cvcdu.bytes.take 8 ++ dat ++ f.cvcdu.bytes.drop 892 := by
  have hfits : cursorAddr 0 + dat.length ≤ f.cvcdu.bytes.length := by rw [f.cvcdu.size, h]; decide
  rw [Frame.writeZone, dirtyFrame_cvcdu, bufWrite_bytes, overlay_eq_append _ _ _ hfits, h]
  rfl

/-- Settles O28: the data zone is the 884 bytes behind the header. -/
theorem theDataZoneAsAWhole : Obligations.TheDataZoneAsAWhole :=
  ⟨selects_caduGetdata, selects_caduSetdata, fun _ => rfl, fun dat s =>
    ⟨fun h => ⟨_, execCaduSetdata_ok dat s h, writeZone_whole_bytes s.fb dat h⟩, execCaduSetdata_range dat s⟩⟩

end Sys2Proof.Machine
end

section
/-! The statements O29 to O31: frames read from the stream, written to it, and read back in either variant (R175, R178,
R180). -/

namespace Sys2Proof.Machine

theorem selects_caduRead : Selects 0x3500 (fun _ _ => .caduRead) := fun _ _ => by simp [decode_opCmd, decodeWord]

theorem selects_caduWrite : Selects 0x3600 (fun _ _ => .caduWrite) := fun _ _ => by simp [decode_opCmd, decodeWord]

/-! ### Reading (R175) -/

/-- A byte of a buffer filled from a whole body on the line (R105, R141). -/
theorem bufByte_lineForm (v : BitVec 1) (p : Params) {l : List Byte} (hl : l.length = 1020) {i : Nat} (hi : i < 1020) :
    bufByte (bufOfList Config.cvcduLen (lineForm v p l)) i = lineByte v p i (l.getD i 0) := by
  rw [bufByte_getD, bufOfList_bytes _ (by rw [lineForm_length, hl]), lineForm_getD v p l i (hl.symm ▸ hi)]

/-- Byte `i` of the body that begins at index `k` of the stream. -/
theorem getD_body (l : List Byte) (k : Nat) {i : Nat} (hi : i < 1020) :
    ((l.drop k).take 1020).getD i 0 = l.getD (k + i) 0 := by
  simp [List.getD_eq_getElem?_getD, hi]

/-- Settles O29: one case per end of the search and of the read behind it. -/
theorem readingAFrame : Obligations.ReadingAFrame := by
  refine ⟨selects_caduRead, fun s => ⟨fun k hk hlen => ?_, execCaduRead_short s, execCaduRead_none s⟩⟩
  refine ⟨_, execCaduRead_full s k hk hlen, fun i hi => ?_⟩
  have hbody : ((s.frmIn.pending.drop k).take 1020).length = 1020 := by
    rw [List.length_take, List.length_drop]
    omega
  rw [bufByte_lineForm _ _ hbody hi, getD_body _ k hi]

/-! ### Writing (R178) -/

theorem settle_of_clean (f : Frame) (h : f.dirty = false) : f.settle = f := by simp [Frame.settle, h]

theorem settle_of_dirty (f : Frame) (h : f.dirty = true) : f.settle = f.recompute := if_pos h

/-- A settled frame is Clean (R178). -/
theorem settle_eq_clean (f : Frame) : f.settle = { cvcdu := f.settle.cvcdu, dirty := false } :=
  congrArg (Frame.mk f.settle.cvcdu) (settle_dirty f)

/-- `CADU.WRITE` settles `FB` and appends its wire form. -/
theorem exec_caduWrite (s : State) : exec .caduWrite s = .next (okEnd { s with
    fb := s.fb.settle, frmOut := s.frmOut ++ wireFrame s.cfg.randomize s.par s.fb.settle } 0 []) := rfl

/-- Settles O30, with the settled frame and its line form. -/
theorem writingAFrame : Obligations.WritingAFrame := by
  refine ⟨selects_caduWrite, fun s => ⟨s.fb.settle.cvcdu, lineForm s.cfg.randomize s.par s.fb.settle.cvcdu.bytes,
    ?_, fun hc => ?_, fun hd => ?_, ?_, fun i hi => ?_⟩⟩
  · rw [exec_caduWrite, ← settle_eq_clean, List.append_assoc]
    rfl
  · rw [settle_of_clean _ hc]
  · rw [exec_ckRecompute, ← settle_eq_clean, settle_of_dirty _ hd]
  · rw [lineForm_length, s.fb.settle.cvcdu.size]
  · exact lineForm_getD _ _ _ i (s.fb.settle.cvcdu.size.symm ▸ hi)

/-! ### Reading back what was written (R180) -/

/-- The line form in one variant is the line form of the transform in the other. -/
theorem lineForm_randomize {v w : BitVec 1} (h : w ≠ v) (p : Params) (b : List Byte) :
    lineForm w p (randomize p b) = lineForm v p b := by
  rcases bit_cases v with rfl | rfl <;> rcases bit_cases w with rfl | rfl
  · exact absurd rfl h
  · simp [lineForm, randomize]
  · simp [lineForm]
  · exact absurd rfl h

/-- A frame on the wire in one variant is its transform on the wire in the other. -/
theorem wireFrame_randomizedBuf {v w : BitVec 1} (h : w ≠ v) (p : Params) (f : Frame) :
    wireFrame w p (cleanFrame (randomizedBuf p f.cvcdu)) = wireFrame v p f := by
  rw [wireFrame, cleanFrame_cvcdu, randomizedBuf_bytes, lineForm_randomize h, wireFrame]

/-- Settles O31: either reader finds a wire frame of its own variant, of the writer's frame or of the transform of it. -/
theorem framesComeBackFromTheWire : Obligations.FramesComeBackFromTheWire := by
  refine fun s => ⟨_, _, exec_caduWrite s, rfl, wireFrame_length _ _ _, settle_dirty _, fun r rest hv hp hin => ?_,
    fun r rest hv hp hin => ?_⟩
  · rw [← hp] at hin
    exact caduRead_wireFrame r _ s.fb.settle rest (settle_dirty _) hv hin
  · rw [← hp, ← wireFrame_randomizedBuf hv] at hin
    refine ⟨_, caduRead_wireFrame r _ _ rest (cleanFrame_dirty _) rfl hin, fun i hi => ?_⟩
    rw [randomizedBuf_byte _ _ i hi, hp]
    exact (if_pos rfl).symm

end Sys2Proof.Machine
end

section
/-! The statement O32: the Clean/Dirty machine of `FB` (R167). -/

namespace Sys2Proof.Machine

/-- A frame field, written, leaves `FB` Dirty, or the value is refused (R171). -/
theorem caduSet_dirty_cases (w v : Nat) (h : VcHeader) (s : State) :
    (∃ f, f.dirty = true ∧ caduSet w v h s = .next (okEnd { s with fb := f } 0 [])) ∨
    caduSet w v h s = .next (statusEnd s .fieldRange) :=
  (caduSet_cases w v h s).imp_left fun e => ⟨_, setHeader_dirty _ _, e⟩

/-- The setters write `FB` and mark it Dirty, or refuse the value (R171, R173). -/
theorem exec_setsFrame_cases {i : Instr} (hi : setsFrame i = true) (s : State) :
    (∃ f, f.dirty = true ∧ exec i s = .next (okEnd { s with fb := f } 0 [])) ∨
    exec i s = .next (statusEnd s .fieldRange) := by
  cases i with
  | caduSetVersion | caduSetScid | caduSetVcid | caduSetCounter | caduSetReplay | caduSetFhp =>
    exact caduSet_dirty_cases _ _ _ s
  | caduSetdata dat => exact (execCaduSetdata_cases dat s).imp_left fun e => ⟨_, writeZone_dirty _ _ _, e⟩
  | _ => cases hi

/-- A setter leaves `FB` Dirty where it ends `OK`, and as it was where it refuses (R167). -/
theorem exec_setsFrame_dirty {i : Instr} {s t : State} (hi : setsFrame i = true) (h : exec i s = .next t) :
    t.fb.dirty = dirtyAfter i s.fb.dirty t.status := by
  have htable : dirtyAfter i s.fb.dirty t.status = (s.fb.dirty || t.status == .ok) := if_pos hi
  rw [htable]
  rcases exec_setsFrame_cases hi s with ⟨f, hf, he⟩ | he <;> obtain rfl := Host.Outcome.next.inj (he.symm.trans h)
  · simp [okEnd, hf]
  · simp [statusEnd]

/-- `CADU.READ` leaves `FB` Clean, or leaves it alone with another status (R175). -/
theorem exec_caduRead_dirty {s t : State} (h : exec .caduRead s = .next t) :
    t.fb.dirty = (s.fb.dirty && t.status != .ok) := by
  rcases execCaduRead_cases s with ⟨k, b, _, _, he⟩ | ⟨k, he⟩ | he <;>
    obtain rfl := Host.Outcome.next.inj (he.symm.trans h)
  · simp [okEnd]
  · simp [statusEnd]
  · simp [statusEnd]

/-- The table of transitions, for every operation (R167): those that do not write `FB` leave its flag. -/
theorem exec_dirty {i : Instr} {s t : State} (h : exec i s = .next t) :
    t.fb.dirty = dirtyAfter i s.fb.dirty t.status := by
  cases i with
  | caduSetVersion | caduSetScid | caduSetVcid | caduSetCounter | caduSetReplay | caduSetFhp | caduSetdata =>
    exact exec_setsFrame_dirty rfl h
  | reset | caduNew | ckRecompute | randApply =>
    obtain rfl := Host.Outcome.next.inj h
    rfl
  | caduWrite =>
    obtain rfl := Host.Outcome.next.inj h
    exact settle_dirty s.fb
  | caduRead => exact exec_caduRead_dirty h
  | _ => exact congrArg Frame.dirty ((answers_of_exec h).fb_eq nofun rfl)

/-- Settles O32, by the table and the step of the reset input. -/
theorem theCleanDirtyMachine : Obligations.TheCleanDirtyMachine :=
  ⟨fun _ _ _ h => exec_dirty h, fun s hr => ⟨_, step_resetIn s hr, rfl⟩⟩

end Sys2Proof.Machine
end

section
/-! The statements O33 to O35: a new packet, and the header fields of `PB` read and written (R192 to R194). -/

namespace Sys2Proof.Machine

/-! ### Command words of the PKT family (R111, R113) -/

theorem selects_pktNew : Selects 0x4000 (fun _ _ => .pktNew) := fun _ _ => by simp [decode_opCmd, decodeWord]

theorem selects_pktGetdata : Selects 0x4300 (fun _ _ => .pktGetdata) := fun _ _ => by simp [decode_opCmd, decodeWord]

theorem selects_pktSetdata : Selects 0x4400 (fun _ dat => .pktSetdata dat) :=
  fun _ _ => by simp [decode_opCmd, decodeWord]

theorem selects_pktSetdataLen : Selects 0x4500 (fun n dat => .pktSetdataLen n dat) :=
  fun _ _ => by simp [decode_opCmd, decodeWord]

theorem selects_pktRead : Selects 0x4600 (fun _ _ => .pktRead) := fun _ _ => by simp [decode_opCmd, decodeWord]

theorem selects_pktWrite : Selects 0x4700 (fun _ _ => .pktWrite) := fun _ _ => by simp [decode_opCmd, decodeWord]

theorem selects_pktFill : Selects 0x4800 (fun n _ => .pktFill n) := fun _ _ => by simp [decode_opCmd, decodeWord]

theorem selects_pktGet (f : PacketField) : Selects (0x4100 + f.sel) (fun _ _ => f.getInstr) := by
  intro arg dat
  cases f <;> simp [decode_opCmd, decodeWord, PacketField.sel, PacketField.getInstr]

/-- Settles O33: the new packet is the empty one of reset. -/
theorem aNewPacketHasNoData : Obligations.ANewPacketHasNoData :=
  ⟨selects_pktNew, fun _ => ⟨emptyPacket.hdr, rfl, rfl⟩⟩

/-! ### Reading a field (R193) -/

/-- `PKT.GET f` answers the field of the header as it is stored, and changes nothing else. -/
theorem exec_pktGet (f : PacketField) (s : State) :
    exec f.getInstr s = .next (okEnd s (packetHeaderField s.pb.header f) []) := by
  cases f <;> rfl

/-- Settles O34: the field of the header record is the field of R100. -/
theorem packetFieldReads : Obligations.PacketFieldReads := by
  refine fun f s => ⟨selects_pktGet f, ?_, fun sel h => ?_⟩
  · rw [packetField_value]
    exact exec_pktGet f s
  · refine illegalWord_of_selector [0, 1, 2, 3, 4, 5, 6] rfl ?_
    simp only [List.mem_cons, List.not_mem_nil, or_false]
    omega

/-! ### Writing a field (R194) -/

/-- The packet header with field `f` at `v`. -/
def withPacketField (h : PktHeader) (v : Nat) : PacketField → PktHeader
  | .pversion => { h with pversion := BitVec.ofNat _ v } | .ptype => { h with ptype := BitVec.ofNat _ v }
  | .shf => { h with shf := BitVec.ofNat _ v } | .apid => { h with apid := BitVec.ofNat _ v }
  | .seqflags => { h with seqflags := BitVec.ofNat _ v } | .seqcount => { h with seqcount := BitVec.ofNat _ v }
  | .datalen => { h with datalen := BitVec.ofNat _ v }

/-- The fields of the new header: the one written, and the other six as they were. -/
theorem packetHeaderField_withPacketField (h : PktHeader) (v : Nat) (f g : PacketField) :
    packetHeaderField (withPacketField h v f) g = if g = f then v % 2 ^ f.width else packetHeaderField h g := by
  cases f <;> cases g <;> rfl

section
variable {f : PacketField} {v : Nat} {i : Instr} (hi : f.setInstr v = some i)
include hi

theorem decode_pktSet (dat : List Byte) : decode (opCmd (0x4200 + f.sel) v dat) = .ok i := by
  cases f <;> cases hi <;> simp [decode_opCmd, decodeWord, PacketField.sel]

/-- `PKT.SET f, #v` writes the header with that field replaced. -/
theorem exec_pktSet (s : State) : exec i s = pktSet f.width v (withPacketField s.pb.header v f) s := by
  cases f <;> cases hi <;> rfl

end

/-- Settles O35: the new header differs from the old one in the field alone. -/
theorem packetFieldWrites : Obligations.PacketFieldWrites := by
  refine ⟨fun f v dat i s hi => ⟨decode_pktSet hi dat, fun hv => ?_, fun hv => ?_⟩, fun sel h => ?_⟩
  · refine ⟨_, (exec_pktSet hi s).trans (pktSet_ok _ _ _ _ hv), ?_, fun g hg => ?_⟩
    · rw [packetField_value_set, packetHeaderField_withPacketField, if_pos rfl, Nat.mod_eq_of_lt hv]
    · rw [packetField_value_set, packetHeaderField_withPacketField, if_neg hg, packetField_value]
  · exact (exec_pktSet hi s).trans (pktSet_range _ _ _ _ hv)
  · refine illegalWord_of_selector [0, 1, 2, 3, 4, 5] rfl ?_
    simp only [List.mem_cons, List.not_mem_nil, or_false]
    omega

end Sys2Proof.Machine
end

section
/-! The statements O36 to O39: the data field of `PB` set and read, and the fill packet (R195, R196, R198, R201). -/

namespace Sys2Proof.Machine

/-! ### What each operation answers, by its operands -/

theorem execPktSetdata_ok {dat : List Byte} (s : State) (h1 : 1 ≤ dat.length) (h2 : dat.length ≤ 65536) :
    execPktSetdata dat s = .next (okEnd { s with pb := s.pb.withStaleData dat } 0 []) :=
  if_neg (by simp only [Config.pktDataMax]; omega)

theorem execPktSetdata_invalid {dat : List Byte} (s : State) (h : dat.length = 0 ∨ 65536 < dat.length) :
    execPktSetdata dat s = .next (statusEnd s .invalidPacket) := if_pos h

theorem execPktSetdataLen_ok {n : Nat} {dat : List Byte} (s : State) (h1 : 1 ≤ n) (h2 : n ≤ 65536)
    (hl : dat.length = n) : execPktSetdataLen n dat s =
      .next (okEnd { s with pb := freshPacket (bufWrite s.pb.hdr 4 (beBytes 2 (n - 1))) dat } 0 []) :=
  if_neg (by simp only [Config.pktDataMax]; omega)

theorem execPktSetdataLen_invalid {n : Nat} {dat : List Byte} (s : State)
    (h : n = 0 ∨ 65536 < n ∨ dat.length ≠ n) :
    execPktSetdataLen n dat s = .next (statusEnd s .invalidPacket) := if_pos h

theorem execPktGetdata_ok (s : State) (h : s.pb.hasData = true) :
    execPktGetdata s = .next (okEnd s s.pb.data.length s.pb.data) := if_pos h

theorem execPktGetdata_none (s : State) (h : s.pb.hasData = false) :
    execPktGetdata s = .next (statusEnd s .invalidPacket) := if_neg (ne_true_of_eq_false h)

theorem execPktFill_ok {n : Nat} (s : State) (h1 : 7 ≤ n) (h2 : n ≤ 65542) :
    execPktFill n s = .next (okEnd { s with pb := fillPktOf n } 0 []) :=
  if_neg (by simp only [Config.minPacketLen, Config.maxPacketLen]; omega)

theorem execPktFill_invalid {n : Nat} (s : State) (h : n < 7 ∨ 65542 < n) :
    execPktFill n s = .next (statusEnd s .invalidPacket) := if_pos h

/-! ### The two parts of a packet header -/

/-- The length field is the last two bytes of the header (R100). -/
theorem drop_four_header (h : Buf Config.pktHdrLen) : h.bytes.drop 4 = bufRead h 4 2 :=
  (List.take_of_length_le (by simp [h.size])).symm

/-- A new length field leaves the first four bytes of the header (R196). -/
theorem take_four_bufWrite (h : Buf Config.pktHdrLen) (v : List Byte) :
    (bufWrite h 4 v).bytes.take 4 = h.bytes.take 4 :=
  bufRead_bufWrite_before h 4 0 4 v (Nat.le_refl 4)

/-- The header of the fill packet begins `07 FF C0 00` (R103). -/
theorem take_four_fillPktOf (n : Nat) : (fillPktOf n).hdr.bytes.take 4 = [0x07, 0xFF, 0xC0, 0x00] := by
  have hbytes : (fillPktOf n).hdr.bytes = fillHeaderBytes n := bufOfList_bytes _ (by simp [fillHeaderBytes])
  rw [hbytes]
  rfl

/-- The length field of the fill packet of total length `n` (R103). -/
theorem drop_four_fillPktOf {n : Nat} (h1 : 7 ≤ n) (h2 : n ≤ 65542) :
    beNat ((fillPktOf n).hdr.bytes.drop 4) = n - 7 := by
  have hlen : beNat (bufRead (fillPktOf n).hdr 4 2) + 1 = n - 6 := length_fillHeader n h1 h2
  rw [drop_four_header]
  omega

/-! ### The statements -/

/-- Settles O36, by the two answers. -/
theorem settingTheDataField : Obligations.SettingTheDataField :=
  ⟨selects_pktSetdata, fun _ s => ⟨execPktSetdata_ok s, execPktSetdata_invalid s⟩⟩

/-- Settles O37: the new header is the old one with `n - 1` in its length field. -/
theorem settingTheDataFieldWithItsLength : Obligations.SettingTheDataFieldWithItsLength := by
  refine ⟨selects_pktSetdataLen, fun n dat s => ⟨fun h1 h2 hl => ?_, execPktSetdataLen_invalid s⟩⟩
  refine ⟨_, execPktSetdataLen_ok s h1 h2 hl, take_four_bufWrite _ _, ?_⟩
  rw [drop_four_header]
  exact Nat.eq_sub_of_add_eq (length_bufWrite s.pb.hdr n h1 h2)

/-- Settles O38, by the two answers. -/
theorem readingTheDataField : Obligations.ReadingTheDataField :=
  ⟨selects_pktGetdata, fun s => ⟨execPktGetdata_ok s, execPktGetdata_none s⟩⟩

/-- Settles O39: `PB` becomes the fill packet, whose length field is `n - 7`. -/
theorem makingAFillPacket : Obligations.MakingAFillPacket :=
  ⟨selects_pktFill, fun n s =>
    ⟨fun h1 h2 => ⟨_, execPktFill_ok s h1 h2, take_four_fillPktOf n, drop_four_fillPktOf h1 h2⟩, execPktFill_invalid s⟩⟩

end Sys2Proof.Machine
end

section
/-! The statements O40 to O42: packets read from the stream, written to it, and read back (R197, R203, R205). -/

namespace Sys2Proof.Machine

/-- Settles O40: the next packet is there in whole, in part or not at all. -/
theorem readingAPacket : Obligations.ReadingAPacket := by
  refine ⟨selects_pktRead, fun s n hn =>
    ⟨execPktRead_nil s, fun h1 h2 => execPktRead_short s h1 (by omega), fun h => ?_⟩⟩
  have hheader : 6 ≤ s.pktIn.pending.length := Nat.le_trans (Nat.le_add_right 6 n) h
  exact ⟨_, execPktRead_full s n hn h, bufOfList_bytes _ (List.length_take_of_le hheader)⟩

/-- `PKT.WRITE` of a packet with data: `PB` keeps its data, and its header as written (R199, R203). -/
theorem execPktWrite_header (s : State) (h : s.pb.hasData = true) : execPktWrite s = .next (okEnd { s with
    pb := { s.pb with hdr := s.pb.recalc.hdr, lenStale := false }, pktOut := s.pktOut ++ packetBytes s.pb }
    (6 + s.pb.data.length) []) := by
  rw [execPktWrite_ok s h, ← recalc_eq]

/-- Settles O41: the header written is the recalculated one, and stands before the data on the stream. -/
theorem writingAPacket : Obligations.WritingAPacket :=
  ⟨selects_pktWrite, fun s => ⟨fun h => ⟨_, execPktWrite_header s h, recalc_bytes s.pb⟩, execPktWrite_none s⟩⟩

/-- Settles O42: the bytes written are a whole packet that says its own length. -/
theorem packetsComeBackFromTheStream : Obligations.PacketsComeBackFromTheStream :=
  fun s h hi => ⟨_, packetBytes s.pb, execPktWrite_ok s h, rfl, pktRead_packetBytes s.pb h hi⟩

end Sys2Proof.Machine
end

section
/-! The statements O43 and O44: a packing pass begins with an empty frame, and packs nothing without a data field (R216,
R217). -/

namespace Sys2Proof.Machine

/-! ### Command words of the PZ family (R111) -/

theorem selects_pzInit : Selects 0x5000 (fun _ _ => .pzInit) := fun _ _ => by simp [decode_opCmd, decodeWord]

theorem selects_pzPush : Selects 0x5100 (fun _ _ => .pzPush) := fun _ _ => by simp [decode_opCmd, decodeWord]

theorem selects_pzFlush : Selects 0x5200 (fun _ _ => .pzFlush) := fun _ _ => by simp [decode_opCmd, decodeWord]

/-! ### The frame a pass begins with (R216) -/

/-- The open frame right after `PZ.INIT`: the configured header in front of zeros. -/
def initFrame (c : Cfg) : Frame := emptyFrame.setHeader (initHeader c)

/-- The packetizer right after `PZ.INIT`, the configuration latched. -/
def initPacketizer (c : Cfg) : Packetizer :=
  { nbo := 0, ctr := c.startCtr, fb := initFrame c, mode := c.packMode, rand := c.randomize }

theorem execPzInit_eq (s : State) : execPzInit s = .next (okEnd { s with pz := initPacketizer s.cfg } 0 []) := rfl

theorem initFrame_value (c : Cfg) (g : FrameField) :
    FrameField.value (initFrame c).cvcdu g = headerField (initHeader c) g := frameField_value_set emptyFrame _ g

theorem initFrame_drop_header (c : Cfg) : (initFrame c).cvcdu.bytes.drop 8 = List.replicate 1012 0 := by
  rw [initFrame, setHeader_drop]
  exact List.drop_replicate

/-- Settles O43: the fields of the first header are the configured ones. -/
theorem startingAPackingPass : Obligations.StartingAPackingPass :=
  ⟨selects_pzInit, fun s => ⟨(initFrame s.cfg).cvcdu, execPzInit_eq s, initFrame_value _ _, initFrame_value _ _,
    initFrame_value _ _, initFrame_value _ _, initFrame_value _ _, initFrame_value _ _, initFrame_value _ _,
    initFrame_value _ _, initFrame_drop_header _⟩⟩

/-- Settles O44: the first test of the push fails. -/
theorem pushingNeedsAPacket : Obligations.PushingNeedsAPacket := ⟨selects_pzPush, execPzPush_none⟩

end Sys2Proof.Machine
end

section
/-! The statements O45 and O48: the frames a push in stream mode emits, and what stays in the open frame (R218 to R220,
R222). -/

namespace Sys2Proof.Machine

/-! ### The length of what is emitted and packed -/

theorem wireBytes_length (v : BitVec 1) (p : Params) (h : VcHeader) (zone : List Byte) (hz : zone.length = 884) :
    (wireBytes v p h zone).length = 1024 := by
  simp [wireBytes, cvcduBytes, hz]

theorem packetBytes_length_eq (p : Packet) : (packetBytes p).length = 6 + p.data.length := by
  rw [← recalc_bytes, List.length_append, p.recalc.hdr.size]

theorem packetBytes_ne_nil (p : Packet) : packetBytes p ≠ [] :=
  List.ne_nil_of_length_pos (by rw [packetBytes_length_eq]; omega)

/-! ### Packing from any cursor (R218 to R220) -/

/-- The open frame `f` after packing, when `f₀` was open before and `q` is its filled data zone followed by the bytes
packed. Behind the cursor and in the checksum field stands what the last emitted frame held, or `f₀` when none was
emitted (R219, R228). -/
structure OpenAfterPacking (f₀ : Frame) (q : List Byte) (f : Frame) : Prop where
  dirty : f.dirty = true
  header : f.header = frameHeader f₀.header (framePointer f₀.header q (q.length / 884)) (q.length / 884)
  filled : f.dataZone.take (q.length % 884) = q.drop (884 * (q.length / 884))
  rest_same : q.length / 884 = 0 → f.dataZone.drop q.length = f₀.dataZone.drop q.length ∧
    f.checksumField = f₀.checksumField
  rest_last : 1 ≤ q.length / 884 →
    f.dataZone.drop (q.length % 884) = (zoneSlice q (q.length / 884 - 1)).drop (q.length % 884) ∧
    f.checksumField = cksum ((frameHeader f₀.header (framePointer f₀.header q (q.length / 884 - 1))
      (q.length / 884 - 1)).toBytes ++ zoneSlice q (q.length / 884 - 1))

/-- Packing changes `FRM_OUT`, the cursor, the counter and the open frame, and nothing else. -/
theorem packBytes_eq {p q : List Byte} {s : State} (hn : s.pz.nbo ≤ 883) (hc : s.pz.fb.header.counter = s.pz.ctr)
    (hp : p ≠ []) (hq : q = openZone s.pz ++ p) : ∃ f, packBytes p s = ({ s with
      frmOut := s.frmOut ++ packedFrames s.pz.rand s.par s.pz.fb.header q
      pz := { s.pz with nbo := q.length % 884, ctr := s.pz.ctr + BitVec.ofNat 24 (q.length / 884), fb := f } },
      q.length / 884) ∧ OpenAfterPacking s.pz.fb q f := by
  subst hq
  obtain ⟨hcount, hframe, hnbo, hctr, hmode, hrand, hheader, hzone, hdirty⟩ :=
    packLoop_cases (p.length + 1) p s hn (by omega) hc
  obtain ⟨hsame, hlast⟩ := packLoop_rest (p.length + 1) p s hn (by omega) hc
  rw [← packBytes] at hcount hframe hnbo hctr hmode hrand hheader hzone hdirty hsame hlast
  have hpz : (packBytes p s).1.pz = { s.pz with
      nbo := (openZone s.pz ++ p).length % 884
      ctr := s.pz.ctr + BitVec.ofNat 24 ((openZone s.pz ++ p).length / 884)
      fb := (packBytes p s).1.pz.fb } := by
    simp only [← hnbo, ← hctr, ← hmode, ← hrand]
  refine ⟨(packBytes p s).1.pz.fb, ?_, hdirty.resolve_left hp, hheader, ?_, hsame, hlast⟩
  · rw [← hpz]
    exact Prod.ext hframe hcount
  · rw [← hnbo]
    exact hzone

/-- Settles O45: the push packs the serialized packet with its header recalculated. -/
theorem packingAPacketIntoFrames : Obligations.PackingAPacketIntoFrames := by
  intro s q n hd hm hn hc hq hcount
  subst hcount
  have hrun : exec .pzPush s = _ := execPzPush_stream s hd hm
  obtain ⟨f, hpack, hopen⟩ := packBytes_eq (s := { s with pb := s.pb.recalc }) hn hc (packetBytes_ne_nil s.pb) hq
  rw [hpack, recalc_eq] at hrun
  exact ⟨_, f, hrun, recalc_bytes s.pb, hopen.dirty, hopen.header, hopen.filled, hopen.rest_same, hopen.rest_last⟩

/-! ### A packet of about one data zone (R222) -/

/-- Each emitted frame is 1024 bytes on the wire (R90). -/
theorem packedFrames_length (v : BitVec 1) (p : Params) (h : VcHeader) (q : List Byte) :
    (packedFrames v p h q).length = q.length / 884 * 1024 := by
  rw [packedFrames, List.length_flatMap, List.map_congr_left (g := fun _ => 1024), List.map_const', List.sum_replicate,
    List.length_range, smul_eq_mul]
  intro j hj
  have hlt : j < q.length / 884 := List.mem_range.mp hj
  exact wireBytes_length _ _ _ _ (zoneSlice_length q j (by omega))

/-- Bytes that close the open data zone follow what it already held. -/
theorem dataZone_putBytes (v : List Byte) (s : State) (hv : s.pz.nbo + v.length = 884) :
    (putBytes v s).pz.fb.dataZone = openZone s.pz ++ v := by
  have hwhole : openZone (putBytes v s).pz = (putBytes v s).pz.fb.dataZone :=
    List.take_of_length_le (by rw [dataZone_length, putBytes_pz_nbo, hv])
  rw [← hwhole, openZone_putBytes v s (by omega)]

/-- A closed frame adds 1024 bytes to `FRM_OUT`, and the bytes that closed it stay in the data zone (R219, R228). -/
theorem emit_putBytes_closing (v : List Byte) (fhp : BitVec 11) (s : State) (hv : s.pz.nbo + v.length = 884) :
    (emit fhp (putBytes v s)).frmOut.length = s.frmOut.length + 1024 ∧
    (emit fhp (putBytes v s)).pz.fb.dataZone.drop s.pz.nbo = v := by
  constructor
  · rw [emit_out, List.length_append, wireBytes_length _ _ _ _ (dataZone_length _)]
    rfl
  · rw [emit_dataZone, dataZone_putBytes v s hv]
    exact List.drop_left' (openZone_length _ (by omega))

/-- A packet that fills an empty data zone and leaves `r` bytes for the next one makes one frame (R218, R220). -/
theorem pzPush_one_frame {s : State} {r : Nat} (hd : s.pb.hasData = true) (hm : s.pz.mode = 0#1) (hn : s.pz.nbo = 0)
    (hc : s.pz.fb.header.counter = s.pz.ctr) (hlen : 6 + s.pb.data.length = 884 + r) (hr : r < 884) :
    ∃ t, exec .pzPush s = .next t ∧ t.status = .ok ∧ t.result = 1 ∧ t.pz.nbo = r ∧
      t.frmOut.length = s.frmOut.length + 1024 ∧ t.pz.fb.header.fhp = BitVec.ofNat 11 r := by
  have hq : packetBytes s.pb = openZone s.pz ++ packetBytes s.pb := by
    rw [openZone, hn, List.take_zero, List.nil_append]
  have hL : (packetBytes s.pb).length = 884 + r := by rw [packetBytes_length_eq, hlen]
  have hcount : 1 = (packetBytes s.pb).length / 884 := by omega
  obtain ⟨h, f, hrun, -, -, hheader, -⟩ := packingAPacketIntoFrames s _ 1 hd hm (by omega) hc hq hcount
  refine ⟨_, hrun, rfl, rfl, ?_, ?_, ?_⟩
  · show (packetBytes s.pb).length % 884 = r
    omega
  · show (s.frmOut ++ packedFrames _ _ _ _).length = _
    rw [List.length_append, packedFrames_length, ← hcount]
  · show f.header.fhp = BitVec.ofNat 11 r
    have hleft : (packetBytes s.pb).length - 884 * 1 = r := by omega
    rw [hheader, frameHeader, framePointer, if_neg Nat.one_ne_zero, hleft, if_neg (by omega)]

/-- Settles O48: both packets fill the one data zone, and only the longer one leaves bytes for the flush. -/
theorem aPacketOfOneDataZone : Obligations.APacketOfOneDataZone := by
  refine fun s hd hm hn hc => ⟨fun hlen => ?_, fun hlen => ?_⟩
  · obtain ⟨t, hrun, hok, hone, hnbo, hout, hfhp⟩ := pzPush_one_frame (r := 0) hd hm hn hc (by omega) (by omega)
    exact ⟨t, _, hrun, hok, hone, hnbo, hout, hfhp, execPzFlush_idle t hnbo, rfl, rfl⟩
  · obtain ⟨t, hrun, hok, hone, hnbo, hout, hfhp⟩ := pzPush_one_frame (r := 6) hd hm hn hc (by omega) (by omega)
    have hfill : t.pz.nbo + (fillPacket 878).length = 884 := by rw [hnbo, fillPacket_length 878 (by omega)]
    obtain ⟨hflushed, hzone⟩ := emit_putBytes_closing (fillPacket 878) 0 t hfill
    have hflush := execPzFlush_fill t (by omega) (by omega)
    rw [hnbo] at hflush hzone
    exact ⟨t, _, hrun, hok, hone, hnbo, hout, hfhp, hflush, rfl, hflushed, hzone⟩

end Sys2Proof.Machine
end

section
/-! The statements O46 and O47: padded packing and the flush (R223, R225, R226). -/

namespace Sys2Proof.Machine

/-- Settles O46: a packet that fits makes a whole data zone, any other is skipped. -/
theorem paddingAPacketIntoOneFrame : Obligations.PaddingAPacketIntoOneFrame := by
  intro s L zone hd hm hL hzone
  subst hL
  have hrun : exec .pzPush s = _ := execPzPush_padded s hd hm
  refine ⟨fun hfits => ?_, fun hne hlong => ?_⟩
  · have hzlen : zone.length = 884 := by
      rw [hzone, List.length_append]
      split
      · assumption
      · rw [fillPacket_length _ (by omega)]; omega
    rw [padOne_ok _ _ hfits, ← hzone] at hrun
    obtain ⟨b, hemit, hbytes⟩ := emitZone_eq zone 0 { s with pb := s.pb.recalc } hzlen
    rw [hemit, recalc_eq] at hrun
    exact ⟨_, b, hrun, recalc_bytes s.pb, hbytes⟩
  · rw [padOne_skip _ _ hne hlong, recalc_eq] at hrun
    exact ⟨_, hrun, recalc_bytes s.pb⟩

/-- Settles O47: at cursor 0, with room for a fill packet, with less room than that. -/
theorem closingTheOpenFrame : Obligations.ClosingTheOpenFrame := by
  refine ⟨selects_pzFlush, fun s sp z1 z2 hn _ hsp hz1 hz2 =>
    ⟨execPzFlush_idle s, fun hpos h7 => ?_, fun hpos h7 => ?_⟩⟩
  · have hlen : (fillPacket sp).length = sp := fillPacket_length sp (by omega)
    rw [if_pos h7, List.take_of_length_le (by rw [hlen])] at hz1
    have hrun : exec .pzFlush s = _ := execPzFlush_fill s (by omega) (by omega)
    obtain ⟨b, hemit, hbytes⟩ := emit_putBytes (fillPacket sp) 0 s (by omega)
    rw [← hsp, hemit, ← hz1] at hrun
    rw [← hz1] at hbytes
    exact ⟨b, hrun, hbytes⟩
  · rw [if_neg (by omega)] at hz1
    have hrun : exec .pzFlush s = _ := execPzFlush_oversized s (by omega) (by omega)
    obtain ⟨b, hemit, hbytes⟩ := flushOversized_eq s sp hsp (by omega)
    have hctr : s.pz.ctr + 1 + 1 = s.pz.ctr + 2 := BitVec.add_assoc _ _ _
    rw [← hz1, ← hz2, hctr] at hemit
    rw [← hz2, hctr] at hbytes
    rw [← hsp, hemit] at hrun
    exact ⟨b, hrun, hbytes⟩

end Sys2Proof.Machine
end

section
/-! The statement O49: the frames of a whole stream-mode pass (R229). -/

namespace Sys2Proof.Machine

/-- Right after `PZ.INIT` no packet is packed. -/
theorem packedPass_init (s : State) (hm : s.cfg.packMode = 0#1) :
    PackedPass s.cfg s.par s.frmOut [] (okEnd { s with pz := initPacketizer s.cfg } 0 []) where
  nbo := rfl
  ctr := (BitVec.add_zero _).symm
  mode := hm
  rand := rfl
  par_eq := rfl
  hdr := by
    show (initFrame s.cfg).header = _
    rw [initFrame, setHeader_header]
    simp [initHeader, passHeaderAt, passPointer, packetStarts]
  zone := rfl
  out_eq := (List.append_nil _).symm

/-- The closing fill packet needs a data zone beyond the open frame (R223). -/
def Oversized (n : Nat) : Prop := n % 884 ≠ 0 ∧ 884 - n % 884 < 7

theorem passHeader_of_not_oversized (c : Cfg) (ps : List (List Byte)) (j : Nat) (h : ¬ Oversized ps.flatten.length) :
    passHeader c ps j = passHeaderAt c j (passPointer (ps ++ closingFill ps.flatten.length) j) := by
  rw [passHeader_eq, if_neg fun hboth => h hboth.1]

section
variable {c : Cfg} {par : Params} {out : List Byte} {ps : List (List Byte)} {b : State}

/-- Once the closing fill packet is packed, `FRM_OUT` holds the pass. -/
theorem PackedPass.out_eq_passWire (h : PackedPass c par out (ps ++ closingFill ps.flatten.length) b)
    (hfit : ¬ Oversized ps.flatten.length) : b.frmOut = out ++ passWire c par ps := by
  simp only [passWire, passHeader_of_not_oversized c ps _ hfit]
  exact h.out_eq

/-- The header of the frame behind the open one, with the pointer `fhp`. -/
theorem PackedPass.next_header (h : PackedPass c par out ps b) (fhp : BitVec 11) :
    { b.pz.fb.header with counter := b.pz.ctr + 1, fhp := fhp } = passHeaderAt c (ps.flatten.length / 884 + 1) fhp := by
  rw [h.hdr, h.ctr, BitVec.add_assoc]
  simp only [passHeaderAt, BitVec.ofNat_add]
  rfl

/-- The frames an oversized flush adds to those of the pushed packets (R225). -/
theorem passWire_oversized {fill z : List Byte} {sp : Nat} (h : Oversized ps.flatten.length)
    (hsp : sp = 884 - ps.flatten.length % 884) (hfill : fill = fillPacket (sp + 884))
    (hz : z = ps.flatten.drop (884 * (ps.flatten.length / 884))) :
    passWire c par ps =
      ((List.range (ps.flatten.length / 884)).flatMap fun j =>
        wireBytes c.randomize par (passHeaderAt c j (passPointer ps j)) (zoneSlice ps.flatten j)) ++
      wireBytes c.randomize par
        (passHeaderAt c (ps.flatten.length / 884) (passPointer ps (ps.flatten.length / 884))) (z ++ fill.take sp) ++
      wireBytes c.randomize par (passHeaderAt c (ps.flatten.length / 884 + 1) 2047) (fill.drop sp) := by
  obtain ⟨hne, hless⟩ := h
  have hclosing : closingFill ps.flatten.length = [fill] := by
    rw [closingFill_oversized _ hne (by omega), hfill, hsp]
  have hbytes : passBytes ps = (ps ++ [fill]).flatten := by rw [passBytes, hclosing]
  have hfl : fill.length = sp + 884 := by rw [hfill, fillPacket_length _ (by omega)]
  have hzl : z.length = 884 - sp := by rw [hz, List.length_drop]; omega
  have hcount : (passBytes ps).length / 884 = ps.flatten.length / 884 + 2 := by
    rw [hbytes, flatten_concat, List.length_append, hfl]; omega
  have hpointer (j : Nat) (hj : j ≤ ps.flatten.length / 884) :
      passHeader c ps j = passHeaderAt c j (passPointer ps j) := by
    rw [passHeader_eq, if_neg (by omega), hclosing, passPointer_concat _ _ _ (by omega)]
  have hsentinel : passHeader c ps (ps.flatten.length / 884 + 1) =
      passHeaderAt c (ps.flatten.length / 884 + 1) 2047 := by
    rw [passHeader_eq, if_pos ⟨⟨hne, hless⟩, rfl⟩]
    rfl
  have hzone0 : z ++ fill.take sp = zoneSlice (passBytes ps) (ps.flatten.length / 884) := by
    rw [zoneSlice_split_zero z fill sp hzl (by omega), hz, zoneSlice_concat_new, hbytes, Nat.add_zero]
  have hzone1 : fill.drop sp = zoneSlice (passBytes ps) (ps.flatten.length / 884 + 1) := by
    rw [zoneSlice_split_one z fill sp hzl (by omega) hfl, hz, zoneSlice_concat_new, hbytes]
  rw [passWire, hcount, flatMap_range_add, List.append_assoc, hzone0, hzone1, ← hsentinel, ← hpointer _ (Nat.le_refl _)]
  congr 1
  · apply List.flatMap_congr
    intro j hj
    have hlt : j < ps.flatten.length / 884 := List.mem_range.mp hj
    rw [hpointer j (by omega), hbytes, zoneSlice_concat_old _ _ _ hlt]
  · simp [List.range_succ]

/-- `PZ.FLUSH` completes the pass, whatever room the open frame has (R223, R225). -/
theorem execPzFlush_passWire (h : PackedPass c par out ps b) :
    ∃ t, execPzFlush b = .next t ∧ t.status = .ok ∧ t.frmOut = out ++ passWire c par ps := by
  by_cases h0 : b.pz.nbo = 0
  · refine ⟨_, execPzFlush_idle b h0, rfl, ?_⟩
    have hmod : ps.flatten.length % 884 = 0 := h.nbo.symm.trans h0
    refine PackedPass.out_eq_passWire (b := b) ?_ fun hover => hover.1 hmod
    rwa [closingFill_none _ hmod, List.append_nil]
  have hne : ps.flatten.length % 884 ≠ 0 := h.nbo ▸ h0
  have hnbo : b.pz.nbo = ps.flatten.length % 884 := h.nbo
  by_cases h7 : 7 ≤ 884 - b.pz.nbo
  · have hlen : (fillPacket (884 - b.pz.nbo)).length = 884 - b.pz.nbo := fillPacket_length _ (by omega)
    have hclosed := packBytes_closing (fillPacket (884 - b.pz.nbo)) b
      (List.ne_nil_of_length_pos (by omega)) (by omega)
    have hpushed := packedPass_push _ _ _ _ (fillPacket (884 - b.pz.nbo)) b h
    rw [hclosed] at hpushed
    refine ⟨_, execPzFlush_fill b h0 h7, rfl, ?_⟩
    refine PackedPass.out_eq_passWire (b := emit 0 (putBytes _ b)) ?_ fun hover => by
      have hless := hover.2
      omega
    rwa [closingFill_one _ hne (by omega), ← hnbo]
  · have hover : Oversized ps.flatten.length := ⟨hne, by omega⟩
    obtain ⟨f, hflush, -⟩ := flushOversized_eq b _ rfl (by omega)
    refine ⟨_, execPzFlush_oversized b h0 (by omega), rfl, ?_⟩
    show (flushOversized (884 - b.pz.nbo) b).frmOut = _
    rw [hflush, passWire_oversized hover (congrArg _ hnbo) rfl h.zone,
      h.next_header, h.hdr, h.out_eq, h.rand, h.par_eq]
    simp only [List.append_assoc]

end

/-- Settles O49: the description of the pass holds after `PZ.INIT`, every push keeps it, and the flush completes it. -/
theorem whatAPackingPassEmits : Obligations.WhatAPackingPassEmits := by
  refine fun ps s hd hm => ⟨passBytes_mod _, ?_⟩
  obtain ⟨b, hpush, hpass⟩ := pushPackets_packedPass _ _ _ ps [] _ hd (packedPass_init s hm)
  obtain ⟨c, hflush, hstatus, hout⟩ := execPzFlush_passWire hpass
  exact ⟨_, b, c, execPzInit_eq s, hpush, hflush, hstatus, hout⟩

end Sys2Proof.Machine
end

section
/-! The statements O50 and O52: one frame pushed, and a pass opened and closed (R245, R246, R251). -/

namespace Sys2Proof.Machine

/-! ### Command words of the DZ family (R111) -/

theorem selects_dzInit : Selects 0x6000 (fun _ _ => .dzInit) := fun _ _ => by simp [decode_opCmd, decodeWord]

theorem selects_dzPush : Selects 0x6100 (fun _ _ => .dzPush) := fun _ _ => by simp [decode_opCmd, decodeWord]

theorem selects_dzEnd : Selects 0x6200 (fun _ _ => .dzEnd) := fun _ _ => by simp [decode_opCmd, decodeWord]

/-! ### One frame (R246) -/

/-- The frame that aligns while the counts are not reported writes the report (R250). -/
theorem execDzPush_align_report (s : State) (hs : s.dz.seen = false) (hr : s.dz.reported = false)
    (hp : s.fb.header.fhp.toNat ≤ 884) :
    execDzPush s = .next (okEnd { s with
      pktOut := s.pktOut ++ s.fb.dataZone.drop s.fb.header.fhp.toNat
      dz := { s.dz with seen := true, reported := true, dbc := s.fb.header.fhp.toNat }
      diag := s.diag ++ [.discardReport s.dz.dfc s.fb.header.fhp.toNat] } (884 - s.fb.header.fhp.toNat) []) := by
  rw [execDzPush_align s hs hp, hr]
  rfl

/-- Settles O50, by the branches of `DZ.PUSH`: aligned, a discarded frame, a meaningless pointer, the aligning frame. -/
theorem unpackingAFrame : Obligations.UnpackingAFrame := by
  refine ⟨selects_dzPush, fun s p zone hp hzone => ?_⟩
  rw [fhp_value] at hp
  subst hp hzone
  exact ⟨execDzPush_seen s, fun hs _ hfit hp => execDzPush_none s hs hp ((countFits_eq_true_iff _ _).mpr hfit),
    execDzPush_invalid s, execDzPush_align_report s⟩

/-! ### The ends of a pass (R245, R251) -/

theorem execDzEnd_unreported (s : State) (h : s.dz.reported = false) :
    execDzEnd s = .next (okEnd { s with
      dz := { s.dz with reported := true }
      diag := s.diag ++ [.discardReport s.dz.dfc s.dz.dbc] } s.dz.dfc []) := by
  rw [execDzEnd, reportOnce_eq, h]
  rfl

theorem execDzEnd_reported (s : State) (h : s.dz.reported = true) : execDzEnd s = .next (okEnd s s.dz.dfc []) := by
  rw [execDzEnd, reportOnce, if_pos h, finish_eq]

/-- Settles O52: `DZ.END` reports unless the flag says that the counts were reported. -/
theorem openingAndClosingAnUnpackingPass : Obligations.OpeningAndClosingAnUnpackingPass :=
  ⟨selects_dzInit, selects_dzEnd, fun _ => rfl, fun s => ⟨execDzEnd_unreported s, execDzEnd_reported s⟩⟩

end Sys2Proof.Machine
end

section
/-! The statement O53: the discard counts are reported once (R250, R284, log entry 13). -/

namespace Sys2Proof.Machine

/-! ### One operation -/

/-- The flag stays set, and one report was written exactly where it was set on the way from `s` to `t`. -/
def ReportsOnce (s t : State) : Prop :=
  (s.dz.reported = true → t.dz.reported = true) ∧
  discardReports t.diag = discardReports s.diag + (if s.dz.reported = false ∧ t.dz.reported = true then 1 else 0)

theorem discardReports_append (d e : List DiagRecord) :
    discardReports (d ++ e) = discardReports d + discardReports e := List.countP_append

theorem discardReports_concat_other (d : List DiagRecord) {r : DiagRecord} (h : isDiscardReport r = false) :
    discardReports (d ++ [r]) = discardReports d := by
  simp [discardReports, h]

section
variable {s t : State}

theorem reportsOnce_of_kept (hr : t.dz.reported = s.dz.reported) (hd : discardReports t.diag = discardReports s.diag) :
    ReportsOnce s t := by
  refine ⟨fun h => hr.trans h, ?_⟩
  rw [hd, hr, if_neg (by simp), Nat.add_zero]

theorem reportsOnce_of_guarded {frames bytes : Nat} (hr : t.dz.reported = true)
    (hd : t.diag = s.diag ++ if s.dz.reported then [] else [.discardReport frames bytes]) : ReportsOnce s t := by
  refine ⟨fun _ => hr, ?_⟩
  rw [hd, hr, discardReports_append]
  cases s.dz.reported <;> rfl

/-- Of the answers, only the aligning frame and `DZ.END` touch the flag or report, and both are guarded. -/
theorem Answers.reportsOnce {i : Instr} (h : Answers i s (.next t)) (hr : i ≠ .reset) (hi : i ≠ .dzInit) :
    ReportsOnce s t := by
  cases h with
  | reset => exact absurd rfl hr
  | opensUnpacking => exact absurd rfl hi
  | aligns | closesUnpacking => exact reportsOnce_of_guarded rfl rfl
  | cutFrame | cutPacket | skips | badPointer => exact reportsOnce_of_kept rfl (discardReports_concat_other _ rfl)
  | _ => exact reportsOnce_of_kept rfl rfl

end

/-! ### The frames of a pass -/

/-- Pushing a first frame that ends `OK`. -/
theorem pushFrames_cons {f : Frame} {s u : State} {n : Nat} {d : List Byte}
    (h : execDzPush { s with fb := f } = .next (okEnd u n d)) (fs : List Frame) :
    pushFrames (f :: fs) s = pushFrames fs (okEnd u n d) := by
  show (okNext (execDzPush _)).bind _ = _
  rw [h]
  rfl

/-- Pushing frames in two parts. -/
theorem pushFrames_append (gs : List Frame) : ∀ (fs : List Frame) (s : State),
    pushFrames (fs ++ gs) s = (pushFrames fs s).bind (pushFrames gs)
  | [], _ => rfl
  | f :: fs, s => by
    simp only [List.cons_append, pushFrames, Option.bind_assoc, pushFrames_append gs fs]

/-- Before alignment, frames without a packet start are counted and nothing else happens (R246). -/
theorem pushFrames_sentinels : ∀ (fs : List Frame) (s : State), s.par.dfcWidth = none → s.dz.seen = false →
    (∀ f ∈ fs, f.header.fhp = 2047) →
    ∃ t, pushFrames fs s = some t ∧ t.pktOut = s.pktOut ∧ t.diag = s.diag ∧
      t.dz = { s.dz with dfc := s.dz.dfc + fs.length }
  | [], s, _, _, _ => ⟨s, rfl, rfl, rfl, rfl⟩
  | f :: fs, s, hw, hs, hf => by
    have hp : f.header.fhp.toNat = 2047 := congrArg BitVec.toNat (hf f List.mem_cons_self)
    have hpush := execDzPush_none { s with fb := f } hs hp
      ((countFits_eq_true_iff _ _).mpr fun w h => absurd (hw.symm.trans h) nofun)
    obtain ⟨t, hrun, hout, hdiag, hdz⟩ := pushFrames_sentinels fs
      (okEnd { s with fb := f, dz := { s.dz with dfc := s.dz.dfc + 1 } } 0 []) hw hs
      fun g hg => hf g (List.mem_cons_of_mem _ hg)
    refine ⟨t, (pushFrames_cons hpush fs).trans hrun, hout, hdiag, hdz.trans ?_⟩
    simp only [okEnd, List.length_cons, Nat.add_assoc, Nat.add_comm 1]

/-- After alignment, frame after frame leaves whole (R246). -/
theorem pushFrames_aligned : ∀ (fs : List Frame) (s : State), s.dz.seen = true →
    ∃ t, pushFrames fs s = some t ∧ t.pktOut = s.pktOut ++ fs.flatMap Frame.dataZone ∧ t.diag = s.diag ∧ t.dz = s.dz
  | [], s, _ => ⟨s, rfl, (List.append_nil _).symm, rfl, rfl⟩
  | f :: fs, s, hs => by
    have hpush := execDzPush_seen { s with fb := f } hs
    obtain ⟨t, hrun, hout, hdiag, hdz⟩ := pushFrames_aligned fs
      (okEnd { s with fb := f, pktOut := s.pktOut ++ f.dataZone } 884 []) hs
    refine ⟨t, (pushFrames_cons hpush fs).trans hrun, hout.trans ?_, hdiag, hdz⟩
    rw [List.flatMap_cons, ← List.append_assoc]
    rfl

/-- The frames behind one that leaves the depacketizer aligned. -/
theorem pushFrames_behind {f : Frame} {s u : State} {n : Nat} {d : List Byte}
    (h : execDzPush { s with fb := f } = .next (okEnd u n d)) (hs : u.dz.seen = true) (fs : List Frame) :
    ∃ t, pushFrames (f :: fs) s = some t ∧ t.pktOut = u.pktOut ++ fs.flatMap Frame.dataZone ∧ t.diag = u.diag ∧
      t.dz = u.dz := by
  rw [pushFrames_cons h]
  exact pushFrames_aligned fs (okEnd u n d) hs

/-- Settles O53: the guard in the list of answers; then sentinel frames, the aligning frame and the frames behind it. -/
theorem discardsAreReportedOnce : Obligations.DiscardsAreReportedOnce := by
  refine ⟨fun i s t hr hi h => (answers_of_exec h).reportsOnce hr hi, fun s skipped hw hdz hskip => ?_⟩
  obtain ⟨t, hskipped, hout, hdiag, hcounted⟩ := pushFrames_sentinels skipped s hw (by rw [hdz]) hskip
  rw [hdz, Nat.zero_add] at hcounted
  refine ⟨fun f rest hp => ?_, t, hskipped, hout, hdiag, ?_⟩
  · have hpush := execDzPush_align_report { t with fb := f } (by rw [hcounted]) (by rw [hcounted]) hp
    obtain ⟨u, hrest, huout, hudiag, hudz⟩ := pushFrames_behind hpush rfl rest
    have hdone : u.dz = { seen := true, reported := true, dfc := skipped.length, dbc := f.header.fhp.toNat } := by
      rw [hudz]
      simp only [hcounted]
    refine ⟨u, ?_, ?_, ?_, hdone, ?_⟩
    · rw [pushFrames_append, hskipped]
      exact hrest
    · rw [huout, ← hout]
    · rw [hudiag, ← hdiag]
      simp only [hcounted]
    · have hend := execDzEnd_reported u (by rw [hdone])
      rwa [hdone] at hend
  · have hend := execDzEnd_unreported t (by rw [hcounted])
    rw [hdiag] at hend
    simp only [hcounted] at hend ⊢
    exact hend

end Sys2Proof.Machine
end

section
/-! The statement O54: the frames of a packing pass, received and unpacked, give the packets back (R255). -/

namespace Sys2Proof.Machine

/-! ### The frames of a pass (R229) -/

/-- The headers and data zones of the frames of a stream-mode pass, in order. -/
def passFrames (c : Cfg) (ps : List (List Byte)) : List (VcHeader × List Byte) :=
  (List.range ((passBytes ps).length / 884)).map fun j => (passHeader c ps j, zoneSlice (passBytes ps) j)

section
variable (c : Cfg) (ps : List (List Byte))

theorem passFrames_length : (passFrames c ps).length = (passBytes ps).length / 884 := by simp [passFrames]

theorem passWire_eq_passFrames (p : Params) :
    passWire c p ps = (passFrames c ps).flatMap fun x => wireBytes c.randomize p x.1 x.2 := by
  rw [passFrames, List.flatMap_map, passWire]

theorem length_passBytes : (passBytes ps).length = 884 * ((passBytes ps).length / 884) := by
  have := passBytes_mod ps
  omega

theorem passFrames_zones : (passFrames c ps).flatMap (·.2) = passBytes ps :=
  (List.flatMap_map _ _ _).trans (zoneSlice_join _ _ (length_passBytes ps))

theorem passFrames_zone_length : ∀ x ∈ passFrames c ps, x.2.length = 884 := by
  intro x hx
  obtain ⟨j, hj, rfl⟩ := List.mem_map.mp hx
  exact zoneSlice_whole_length _ _ _ (length_passBytes ps) (List.mem_range.mp hj)

/-- The first packet starts the first data zone. -/
theorem passHeader_first_fhp (h : ps ≠ []) : (passHeader c ps 0).fhp = 0 := by
  obtain ⟨p, l, rfl⟩ := List.exists_cons_of_ne_nil h
  simp [passHeader, passPointer, packetStarts]

/-- A pass of some bytes has a first frame, which points at its own first byte. -/
theorem passFrames_cons (h : 0 < ps.flatten.length) : ∃ x L, passFrames c ps = x :: L ∧ x.1.fhp = 0 := by
  have hlen : ps.flatten.length ≤ (passBytes ps).length := by
    rw [passBytes, List.flatten_append, List.length_append]
    omega
  have hcount := length_passBytes ps
  obtain ⟨n, hn⟩ : ∃ n, (passBytes ps).length / 884 = n + 1 := Nat.exists_eq_succ_of_ne_zero (by omega)
  refine ⟨_, _, by rw [passFrames, hn, List.range_succ_eq_map, List.map_cons], ?_⟩
  exact passHeader_first_fhp c ps (by rintro rfl; simp at h)

end

/-! ### Receiving them (R246) -/

/-- A first frame with pointer 0 aligns a fresh depacketizer and leaves whole: nothing was discarded. -/
theorem execDzPush_first (s : State) (hdz : s.dz = emptyDepacketizer) (hp : s.fb.header.fhp = 0) :
    execDzPush s = .next (okEnd { s with
      pktOut := s.pktOut ++ s.fb.dataZone
      dz := { seen := true, reported := true, dfc := 0, dbc := 0 }
      diag := s.diag ++ [.discardReport 0 0] } 884 []) := by
  have hp0 : s.fb.header.fhp.toNat = 0 := congrArg BitVec.toNat hp
  have halign := execDzPush_align_report s (by rw [hdz]; rfl) (by rw [hdz]; rfl) (by omega)
  rw [hp0] at halign
  rw [halign, hdz]
  rfl

/-- What is left to receive behind a frame that leaves the depacketizer aligned. -/
theorem receiveFrames_behind {w u : State} {n : Nat} {d : List Byte} (h : execDzPush w = .next (okEnd u n d))
    (L : List (VcHeader × List Byte)) (hz : ∀ x ∈ L, x.2.length = 884) (hs : u.dz.seen = true)
    (hin : u.frmIn.pending = L.flatMap fun x => wireBytes u.cfg.randomize u.par x.1 x.2) :
    ∃ t, (okNext (exec .dzPush w)).bind (receiveFrames L.length) = some t ∧ t.frmIn.pending = [] ∧
      t.pktOut = u.pktOut ++ L.flatMap (·.2) ∧ t.dz = u.dz ∧ t.diag = u.diag := by
  show ∃ t, (okNext (execDzPush w)).bind _ = some t ∧ _
  rw [h]
  exact receiveFrames_aligned _ _ L (okEnd u n d) hz hs rfl rfl hin

/-- The frames of a pass, received by a fresh depacketizer: the first aligns, and all data zones leave whole. -/
theorem receiveFrames_fresh (r : State) (x : VcHeader × List Byte) (L : List (VcHeader × List Byte))
    (hz : ∀ y ∈ x :: L, y.2.length = 884) (hp : x.1.fhp = 0) (hdz : r.dz = emptyDepacketizer)
    (hin : r.frmIn.pending = (x :: L).flatMap fun y => wireBytes r.cfg.randomize r.par y.1 y.2) :
    ∃ t, receiveFrames (x :: L).length r = some t ∧ t.frmIn.pending = [] ∧
      t.pktOut = r.pktOut ++ (x :: L).flatMap (·.2) ∧
      t.dz = { seen := true, reported := true, dfc := 0, dbc := 0 } ∧ t.diag = r.diag ++ [.discardReport 0 0] := by
  have hx := hz x List.mem_cons_self
  rw [List.flatMap_cons] at hin
  have hread := receiveFrames_succ r x.1 x.2 _ hx hin L.length
  have hrest := eaten_pending r _ _ _ _ _ hx hin
  have hhdr := builtFrame_header x.1 x.2
  have hzone := builtFrame_zone x.1 x.2 hx
  have hpush := execDzPush_first (okEnd { r with syncSr := 0x1ACFFC1D#32, frmIn := eaten r.frmIn 1024, fb := builtFrame x.1 x.2 }
    r.frmIn.pos []) hdz ((congrArg VcHeader.fhp hhdr).trans hp)
  obtain ⟨t, hrun, hend, hout, htdz, hdiag⟩ :=
    receiveFrames_behind hpush L (fun y hy => hz y (List.mem_cons_of_mem _ hy)) rfl hrest
  refine ⟨t, hread.trans hrun, hend, hout.trans ?_, htdz, hdiag⟩
  show r.pktOut ++ (builtFrame x.1 x.2).dataZone ++ _ = _
  rw [hzone, List.append_assoc, List.flatMap_cons]

/-- A pass that packed something, received by a fresh depacketizer. -/
theorem receiveFrames_pass (c : Cfg) (ps : List (List Byte)) (r : State) (hps : 0 < ps.flatten.length)
    (hc : r.cfg.randomize = c.randomize) (hdz : r.dz = emptyDepacketizer) (hin : r.frmIn.pending = passWire c r.par ps) :
    ∃ t, receiveFrames ((passBytes ps).length / 884) r = some t ∧ t.frmIn.pending = [] ∧
      t.pktOut = r.pktOut ++ passBytes ps ∧ t.dz = { seen := true, reported := true, dfc := 0, dbc := 0 } ∧
      t.diag = r.diag ++ [.discardReport 0 0] := by
  obtain ⟨x, L, hcons, hp⟩ := passFrames_cons c ps hps
  rw [passWire_eq_passFrames, hcons, ← hc] at hin
  have hz := passFrames_zone_length c ps
  rw [hcons] at hz
  have hrun := receiveFrames_fresh r x L hz hp hdz hin
  rwa [← hcons, passFrames_length, passFrames_zones] at hrun

/-! ### The packets (R205) -/

/-- Packets that fill the stream are read back, and then it ends. -/
theorem readsPackets_to_end (l : List Packet) (v : State) (hl : ∀ p ∈ l, p.hasData = true ∧ PacketInv p)
    (hin : v.pktIn.pending = (l.map packetBytes).flatten) :
    ∃ u, readsPackets (l.map packetBytes) v = some u ∧ exec .pktRead u = .next (statusEnd u .endOfStream) := by
  obtain ⟨u, hread, hend⟩ := readsPackets_all l v [] hl (by rw [hin, List.append_nil])
  exact ⟨u, hread, execPktRead_nil u hend⟩

/-- Settles O54: an empty pass has no frames; else the first frame aligns and the rest follows it; and the closing fill
packet is read like any other packet. -/
theorem unpackingInvertsPacking : Obligations.UnpackingInvertsPacking := by
  refine fun ps c r hps hc hdz hin => ⟨?_, fun v hv => ?_⟩
  · cases ps with
    | nil => exact ⟨r, rfl, hin, (List.append_nil _).symm, fun h => absurd rfl h⟩
    | cons p l =>
      have hpos : 0 < ((p :: l).map packetBytes).flatten.length := by
        have := packetBytes_pos p
        rw [List.map_cons, List.flatten_cons, List.length_append]
        omega
      obtain ⟨t, hrun, hend, hout, htdz, hdiag⟩ := receiveFrames_pass c _ r hpos hc hdz hin
      exact ⟨t, hrun, hend, hout, fun _ => ⟨by rw [htdz], by rw [htdz], hdiag⟩⟩
  · obtain ⟨k, hk, hkps⟩ := closingFill_packets (ps.map packetBytes).flatten.length
    rw [passBytes, ← hk, ← List.map_append] at hv
    rw [← hk, ← List.map_append]
    exact readsPackets_to_end (ps ++ k) v (fun p hp => (List.mem_append.mp hp).elim (hps p) (hkps p)) hv

end Sys2Proof.Machine
end

section
/-! The statements O9, O12 and O13: `RESET`, and the configuration registers written and read (R260 to R262). -/

namespace Sys2Proof.Machine

/-! ### What RESET keeps (R50, R262) -/

/-- A stream that the environment attaches for a new pass is its next one, else the empty one, from its first byte. -/
theorem nextPass_eq (st : InStream) :
    st.nextPass = { pending := st.later.headD [], pos := 0, later := st.later.tail } := rfl

/-- Settles O9: the state that `RESET` answers, with its two streams written out. -/
theorem whatResetDoesNotPutBack : Obligations.WhatResetDoesNotPutBack := by
  intro s
  rw [execReset_eq_resetWith, nextPass_eq, nextPass_eq]
  rfl

/-! ### Command words of the CFG family (R111, R114) -/

theorem selects_cfgSet (r : CfgReg) : Selects (0x0200 + r.sel) (fun arg _ => r.setInstr arg) := by
  intro arg dat
  cases r <;> simp [decode_opCmd, decodeWord, CfgReg.sel, CfgReg.setInstr]

theorem selects_cfgGet (r : CfgReg) : Selects (0x0300 + r.sel) (fun _ _ => r.getInstr) := by
  intro arg dat
  cases r <;> simp [decode_opCmd, decodeWord, CfgReg.sel, CfgReg.getInstr]

/-- A code that takes the registers of R40 as its selectors takes none above 6. -/
theorem illegalWord_above_cfgRegs {op sel : Byte} (hl : legalSelectors op.toNat = some [0, 1, 2, 3, 4, 5, 6])
    (h : 6 < sel.toNat) : IllegalWord op sel := by
  refine illegalWord_of_selector _ hl ?_
  simp only [List.mem_cons, List.not_mem_nil, or_false]
  omega

/-! ### Reading a register (R261) -/

/-- `CFG.GET r` answers the register, and changes nothing else. -/
theorem exec_cfgGet (r : CfgReg) (s : State) : exec r.getInstr s = .next (okEnd s (CfgReg.value s.cfg r) []) := by
  cases r <;> rfl

/-- Settles O13. -/
theorem configurationReads : Obligations.ConfigurationReads :=
  fun r s => ⟨selects_cfgGet r, exec_cfgGet r s, fun _ => illegalWord_above_cfgRegs rfl⟩

/-! ### Writing a register (R260) -/

/-- The configuration with register `r` at `v`. -/
def withCfgReg (c : Cfg) (v : Nat) : CfgReg → Cfg
  | .version => { c with version := BitVec.ofNat _ v } | .scid => { c with scid := BitVec.ofNat _ v }
  | .vcid => { c with vcid := BitVec.ofNat _ v } | .startCtr => { c with startCtr := BitVec.ofNat _ v }
  | .replay => { c with replay := BitVec.ofNat _ v } | .randomize => { c with randomize := BitVec.ofNat _ v }
  | .packMode => { c with packMode := BitVec.ofNat _ v }

/-- The registers of the new configuration: the one written, and the other six as they were. -/
theorem value_withCfgReg (c : Cfg) (v : Nat) (r q : CfgReg) :
    CfgReg.value (withCfgReg c v r) q = if q = r then v % 2 ^ r.width else CfgReg.value c q := by
  cases r <;> cases q <;> rfl

/-- `CFG.SET r, #v` writes the configuration with that register replaced. -/
theorem exec_cfgSet (r : CfgReg) (v : Nat) (s : State) :
    exec (r.setInstr v) s = cfgSet r.width v (withCfgReg s.cfg v r) s := by
  cases r <;> rfl

/-- Settles O12: the new configuration differs from the old one in the register alone. -/
theorem configurationWrites : Obligations.ConfigurationWrites := by
  refine fun r v s => ⟨selects_cfgSet r, fun hv => ?_, fun hv => ?_, fun _ => illegalWord_above_cfgRegs rfl⟩
  · refine ⟨_, (exec_cfgSet r v s).trans (cfgSet_ok _ _ _ _ hv), ?_, fun q hq => ?_⟩
    · rw [value_withCfgReg, if_pos rfl, Nat.mod_eq_of_lt hv]
    · rw [value_withCfgReg, if_neg hq]
  · exact (exec_cfgSet r v s).trans (cfgSet_range _ _ _ _ hv)

end Sys2Proof.Machine
end

section
/-! The statements O56, O57 and O58: which operation ends with which status, and what a status other than `OK` leaves
(R271, R280, R282). -/

namespace Sys2Proof.Machine

/-! ### Which operation raises which status (R271) -/

/-- An item that is no operation writes no unit's state, so whatever writes one may end `OK`. -/
theorem mayRaise_ok_of_writes {i : Instr}
    (h : writesCfg i = true ∨ writesFrame i = true ∨ writesPacket i = true) : mayRaise i .ok = true := by
  cases i with
  | formatCmd | formatAsm | formatVcpduHeader | formatPacketHeader | formatFillPacketHeader =>
    exact absurd h (by rintro (h | h | h) <;> cases h)
  | _ => rfl

section
variable {i : Instr} {s t : State}

/-- Every answer's status stands in the table of R271. -/
theorem Answers.mayRaise_status (h : Answers i s (.next t)) : mayRaise i t.status = true := by
  cases h with
  | reads _ _ hi => exact hi
  | refuses _ hi => exact hi
  | setsCfg _ hi => exact mayRaise_ok_of_writes (.inl hi)
  | setsFrame _ hi => exact mayRaise_ok_of_writes (.inr (.inl hi))
  | setsPacket _ hi => exact mayRaise_ok_of_writes (.inr (.inr hi))
  | shifts _ _ hi | noMarker hi =>
    simp only [List.mem_cons, List.not_mem_nil, or_false] at hi
    rcases hi with rfl | rfl <;> rfl
  | _ => rfl

/-- An answer that does not end `OK` leaves no result (R280). -/
theorem Answers.no_result (h : Answers i s (.next t)) (hst : t.status ≠ .ok) : t.result = 0 ∧ t.rdat = [] := by
  cases h with
  | refuses | noMarker | cutFrame | cutPacket | skips | badPointer => exact ⟨rfl, rfl⟩
  | _ => exact absurd rfl hst

end

/-- Settles O56: the status of every answer, by the list of answers. -/
theorem whichOperationsRaiseWhichStatus : Obligations.WhichOperationsRaiseWhichStatus :=
  ⟨rfl, fun _ _ _ h => (answers_of_exec h).mayRaise_status⟩

/-- Settles O57: the result registers of every answer, by the list of answers. -/
theorem noResultWithoutSuccess : Obligations.NoResultWithoutSuccess :=
  fun _ _ _ h hst => (answers_of_exec h).no_result hst

/-! ### Shape A of R282: statuses raised before any change -/

section
variable {i : Instr} {s t : State}

/-- The four statuses that are raised without a record leave the state as it was. -/
theorem Answers.refused_eq (h : Answers i s (.next t))
    (hst : t.status ∈ [.illegalOp, .fieldRange, .invalidPacket, .checksumInvalid]) : t = statusEnd s t.status := by
  cases h with
  | refuses => rfl
  | _ => simp [okEnd, statusEnd] at hst

/-- A `DZ.PUSH` that does not end `OK` adds a record (R278). -/
theorem execDzPush_failed (h : execDzPush s = .next t) (hst : t.status ≠ .ok) :
    ∃ r, t = statusEnd { s with diag := s.diag ++ [r] } .invalidPointer := by
  rcases execDzPush_cases s with ⟨e, _⟩ | ⟨e, _⟩ | ⟨e, _⟩ | e | ⟨_, e⟩ <;> cases h.symm.trans e
  case inr.inr.inr.inl => exact ⟨_, rfl⟩
  all_goals exact absurd rfl hst

/-- `Recalc` writes the two length bytes of the header alone (R199). -/
theorem recalc_take_four (p : Packet) : p.recalc.hdr.bytes.take 4 = p.hdr.bytes.take 4 := by
  unfold Packet.recalc
  split
  · exact take_four_bufWrite p.hdr _
  · rfl

/-- A `PZ.PUSH` that skips its packet adds a record and recalculates the packet's length (R277). -/
theorem execPzPush_skipped (h : execPzPush s = .next t) (hst : t.status = .packetSkipped) :
    ∃ hdr r, t = statusEnd { s with
      pb := { s.pb with hdr := hdr, lenStale := false }
      diag := s.diag ++ [r] } .packetSkipped ∧ hdr.bytes.take 4 = s.pb.hdr.bytes.take 4 := by
  rcases execPzPush_cases s with ⟨_, e⟩ | ⟨_, e⟩ | ⟨_, _, _, _, e⟩ <;> cases h.symm.trans e
  · cases hst
  · exact ⟨s.pb.recalc.hdr, _, by rw [← recalc_eq], recalc_take_four s.pb⟩
  · cases hst

/-! ### Shape B of R282: the stream ended -/

/-- Everything `FRM_IN` still held is consumed, and some of it went through the shift register. -/
def EndsFrmIn (s t : State) : Prop := ∃ k, t = statusEnd { s with
  syncSr := shiftAll s.syncSr (s.frmIn.pending.take k)
  frmIn := eaten s.frmIn s.frmIn.pending.length, diag := t.diag } t.status

/-- `SYNC.SHIFT` fails at the end of the stream only, where there is nothing left to consume (R131). -/
theorem execSyncShift_failed (h : execSyncShift s = .next t) (hst : t.status ≠ .ok) : EndsFrmIn s t := by
  rcases execSyncShift_cases s with ⟨_, _, e⟩ | ⟨e, hnil⟩ <;> cases h.symm.trans e
  · exact absurd rfl hst
  · exact ⟨0, by rw [hnil, List.length_nil, eaten_zero]; rfl⟩

/-- `SYNC.FIND` fails where it shifted the whole stream in and met no marker (R132). -/
theorem execSyncFind_failed (h : execSyncFind s = .next t) (hst : t.status ≠ .ok) : EndsFrmIn s t := by
  rcases execSyncFind_cases s with ⟨_, _, _, e⟩ | e <;> cases h.symm.trans e
  · exact absurd rfl hst
  · exact ⟨_, rfl⟩

/-- `CADU.READ` fails in its search or in the frame's body, and consumes the stream in either (R175). -/
theorem execCaduRead_failed (h : execCaduRead s = .next t) (hst : t.status ≠ .ok) : EndsFrmIn s t := by
  rcases execCaduRead_cases s with ⟨_, _, _, _, e⟩ | ⟨k, e⟩ | e <;> cases h.symm.trans e
  · exact absurd rfl hst
  · exact ⟨k, rfl⟩
  · exact ⟨_, rfl⟩

/-- `PKT.READ` fails between packets or inside one, and consumes the stream in either (R197). -/
theorem execPktRead_failed (h : execPktRead s = .next t) (hst : t.status ≠ .ok) :
    t = statusEnd { s with pktIn := eaten s.pktIn s.pktIn.pending.length, diag := t.diag } t.status := by
  rcases execPktRead_cases s with ⟨_, _, _, e, _⟩ | ⟨e, hnil⟩ | e <;> cases h.symm.trans e
  · exact absurd rfl hst
  · rw [hnil, List.length_nil, eaten_zero]
    rfl
  · rfl

/-- Only the four operations that read an input stream end with a status of the stream's end (R271). -/
theorem readsStream_of_mayRaise {st : Status} (h : mayRaise i st = true) (hst : st = .endOfStream ∨ st = .truncated) :
    i = .syncShift ∨ i = .syncFind ∨ i = .caduRead ∨ i = .pktRead := by
  rcases hst with rfl | rfl
  · simpa [mayRaise, or_assoc] using h
  · exact .inr (.inr (by simpa [mayRaise] using h))

/-- Shape B, operation by operation. -/
theorem streamEnded_eq (h : exec i s = .next t) (hst : t.status = .endOfStream ∨ t.status = .truncated) :
    (i = .pktRead ∧ t = statusEnd { s with pktIn := eaten s.pktIn s.pktIn.pending.length, diag := t.diag } t.status) ∨
    (i ≠ .pktRead ∧ EndsFrmIn s t) := by
  have hok : t.status ≠ .ok := by rcases hst with e | e <;> rw [e] <;> nofun
  rcases readsStream_of_mayRaise (answers_of_exec h).mayRaise_status hst with rfl | rfl | rfl | rfl
  · exact .inr ⟨nofun, execSyncShift_failed h hok⟩
  · exact .inr ⟨nofun, execSyncFind_failed h hok⟩
  · exact .inr ⟨nofun, execCaduRead_failed h hok⟩
  · exact .inl ⟨rfl, execPktRead_failed h hok⟩

end

/-- Settles O58: the status names the operations that can have raised it (R271), and each is asked for what it leaves. -/
theorem whatAFailureLeaves : Obligations.WhatAFailureLeaves := by
  intro i s t h
  have ha := answers_of_exec h
  have hmay := ha.mayRaise_status
  refine ⟨ha.refused_eq, fun hst => ?_, fun hst => ?_, streamEnded_eq h⟩
  · rw [hst] at hmay
    obtain rfl : i = .dzPush := eq_of_beq hmay
    exact execDzPush_failed h (by rw [hst]; nofun)
  · rw [hst] at hmay
    obtain rfl : i = .pzPush := eq_of_beq hmay
    exact execPzPush_skipped h hst

end Sys2Proof.Machine
end
